-- ==== Sys2Proof/Word.lean ====
section
/-! DEFINITION. The word types of the machine: bytes, 64-bit general-register words, 128-bit XMM
words and register numbers (00_scope.md R7, R8; 10_state.md R20, R31). -/

namespace Sys2Proof

/-- One byte of memory or of an instruction (20_memory.md R60). -/
abbrev Byte := BitVec 8

/-- A general register, the instruction pointer, an effective or linear address (R20, R26, R61). -/
abbrev Word64 := BitVec 64

/-- An XMM register, or the bits 255:128 above one (R31, R33). -/
abbrev XWord := BitVec 128

/-- A register number 0..15 of the general or of the XMM file (R20, R31). -/
abbrev RegCode := Fin 16

end Sys2Proof
end

