-- ==== Sys2Proof/Config.lean ====
section
/-! DEFINITION. What a launch fixes for a whole run: the configuration parameters of 00_scope.md R6
as plain data (the State holds one `SysConfig`), and the one free value of the spec, the AF flag
after AND (41_and.md R151, 93_implementation_defined.md U1). -/

namespace Sys2Proof

/-- `MODE` of R6: the five operating modes of 60_exceptions.md R216. -/
inductive Mode where
  | real    -- real-address mode
  | prot    -- protected mode
  | v86     -- virtual-8086 mode
  | compat  -- compatibility mode
  | long64  -- 64-bit mode
  deriving DecidableEq, Repr

/-- `CS_D` of R6: the default operand and address size outside 64-bit mode. -/
inductive CodeSize where
  | d16
  | d32
  deriving DecidableEq, Repr

/-- What decoding depends on besides the bytes: `MODE` and `CS_D` (30_encoding.md R96 to R98). -/
structure CodeCtx where
  mode : Mode
  csD  : CodeSize
  deriving DecidableEq, Repr

/-- `LA_BITS` of R6: 48 by default, 57 admitted (20_memory.md R69, D17). -/
inductive LaBits where
  | la48
  | la57
  deriving DecidableEq, Repr

/-- The six segment registers (10_state.md R35). -/
inductive Seg where
  | es
  | cs
  | ss
  | ds
  | fs
  | gs
  deriving DecidableEq, Repr

/-- The record `SEG[s]` of R6 and R35: the hidden descriptor state the exception conditions read. The spec gives
`base` and `limit` no width; 64 bits for the one and 32 for the other are DESIGN CHOICE (log entry 20). -/
structure SegDesc where
  base       : Word64
  limit      : BitVec 32
  null       : Bool
  writable   : Bool
  readable   : Bool
  expandDown : Bool
  deriving DecidableEq, Repr

/-- The six records `SEG[CS]` .. `SEG[SS]`. -/
structure SegFile where
  es : SegDesc
  cs : SegDesc
  ss : SegDesc
  ds : SegDesc
  fs : SegDesc
  gs : SegDesc
  deriving DecidableEq, Repr

/-- What `TRANSLATE` answers on a region of linear addresses (R72): byte number `i` of the region goes
to the physical byte `base + i`, or faults with a code and a recorded address `recorded + i` (both
come from `TRANSLATE`: 60_exceptions.md R206, U2). The spec gives the code no width and no layout; 32 bits
are DESIGN CHOICE (log entry 18). -/
inductive PageEffect where
  | map (base : Word64)
  | fault (code : BitVec 32) (recorded : Word64)
  deriving DecidableEq, Repr

/-- One region of `TRANSLATE`: the linear byte addresses `lo .. lo + size - 1`, with its answer to a
read and its answer to a write. One-byte regions express every function of address and kind, so a list
of regions loses no generality (log entry 5). -/
structure PageRegion where
  lo      : Nat
  size    : Nat
  onRead  : PageEffect
  onWrite : PageEffect
  deriving DecidableEq, Repr

/-- A range `lo .. lo + size - 1` of physical addresses. -/
structure AddrRange where
  lo   : Nat
  size : Nat
  deriving DecidableEq, Repr

/-- The configuration parameters of R6, and which physical addresses hold no memory (70 R254, D10).
No step changes it (R5). `HAS_UPPER` is not here: the State's field `upper` carries it. -/
structure SysConfig where
  mode       : Mode
  csD        : CodeSize
  /-- the current privilege level, `CPL` -/
  cpl        : Fin 4
  /-- CR0 bit 2 (R29) -/
  cr0EM      : Bool
  /-- CR0 bit 3 (R29) -/
  cr0TS      : Bool
  /-- CR4 bit 9 (R29) -/
  cr4OSFXSR  : Bool
  /-- CPUID.01H:ECX bit 25 (R29) -/
  cpuidAESNI : Bool
  /-- CPUID.01H:EDX bit 26 (R29) -/
  cpuidSSE2  : Bool
  /-- CPUID.01H:EDX bit 25 (R29) -/
  cpuidSSE   : Bool
  /-- `AC_ENABLED`: "alignment checking is enabled" (R30, D16) -/
  acEnabled  : Bool
  laBits     : LaBits
  segs       : SegFile
  /-- `TRANSLATE`: the first region that holds the address answers; an address in none is mapped to
  itself, so the empty list is a configuration without paging (R72) -/
  pages      : List PageRegion
  /-- physical addresses that hold no memory -/
  holes      : List AddrRange
  deriving DecidableEq, Repr

/-- The part of the configuration that decoding reads. -/
def SysConfig.ctx (c : SysConfig) : CodeCtx := ⟨c.mode, c.csD⟩

/-- `draw(1)` of R9 and R151: the AF flag that execution number `n` of an AND leaves. It has no body, so
nothing is known of any value of it (log entry 1). -/
opaque Config.freeAF : Nat → BitVec 1

end Sys2Proof
end

