-- ==== Sys2Proof/Syntax.lean ====
section
/-! DEFINITION. The instructions: one constructor per row of spec/opcode_table.json (30_encoding.md
R119), with the prefixes, register fields, memory forms and immediates that a row's bytes carry. -/

namespace Sys2Proof

/-- A REX prefix `0100WRXB` (R95). -/
structure Rex where
  w : Bool
  r : Bool
  x : Bool
  b : Bool
  deriving DecidableEq, Repr

/-- The prefixes an instruction carries (R91, R100): each legacy prefix at most once, in any order, then
at most one REX. Their order has no meaning and is not kept. -/
structure Prefixes where
  /-- F0, LOCK -/
  lock : Bool
  /-- 66, operand-size override or mandatory prefix -/
  p66  : Bool
  /-- 67, address-size override -/
  p67  : Bool
  /-- a segment override -/
  seg  : Option Seg
  rex  : Option Rex
  deriving DecidableEq, Repr

/-- The displacement that `mod` selects: none (00), eight bits (01), or the full `w` bits (10). -/
inductive Disp (w : Nat) where
  | none
  | d8 (d : BitVec 8)
  | full (d : BitVec w)
  deriving DecidableEq, Repr

/-- A memory operand by its encoding (R106, R107, R109). Register fields are the three bits of ModRM or
SIB; REX extends them. -/
inductive MemOp where
  /-- 16-bit addressing by registers, R109 (`rm` = 110 with `mod` = 00 is `direct16`) -/
  | mem16 (rm : BitVec 3) (disp : Disp 16)
  /-- 16-bit addressing, `mod` = 00 and `rm` = 110: the offset is disp16 -/
  | direct16 (disp : BitVec 16)
  /-- 32/64-bit addressing by one base register, R106 -/
  | base (rm : BitVec 3) (disp : Disp 32)
  /-- `mod` = 00 and `rm` = 101: RIP-relative in 64-bit mode, disp32 alone elsewhere (R106, R108) -/
  | disp32 (disp : BitVec 32)
  /-- the SIB form with a base register, R107 -/
  | sib (scale : BitVec 2) (index : BitVec 3) (base : BitVec 3) (disp : Disp 32)
  /-- the SIB form without base (`mod` = 00, SIB base = 101), R107 -/
  | sibNoBase (scale : BitVec 2) (index : BitVec 3) (disp : BitVec 32)
  deriving DecidableEq, Repr

/-- The ModRM r/m operand: a register (`mod` = 11) or memory (R101). -/
inductive Rm where
  | reg (rm : BitVec 3)
  | mem (m : MemOp)
  deriving DecidableEq, Repr

/-- The 25 rows of R119, in its order. `reg` is the three-bit ModRM:reg field. -/
inductive Instr where
  /-- row 1: `66 0F 3A DF /r ib` -/
  | aeskeygenassist (p : Prefixes) (reg : BitVec 3) (rm : Rm) (imm : BitVec 8)
  /-- row 2: `24 ib`, AND AL, imm8 -/
  | andAlImm8 (p : Prefixes) (imm : BitVec 8)
  /-- row 3: `25 iw`, AND AX, imm16 -/
  | andAxImm16 (p : Prefixes) (imm : BitVec 16)
  /-- row 4: `25 id`, AND EAX, imm32 -/
  | andEaxImm32 (p : Prefixes) (imm : BitVec 32)
  /-- row 5: `REX.W + 25 id`, AND RAX, imm32 -/
  | andRaxImm32 (p : Prefixes) (imm : BitVec 32)
  /-- row 6: `80 /4 ib`, AND r/m8, imm8 -/
  | andRm8Imm8 (p : Prefixes) (rm : Rm) (imm : BitVec 8)
  /-- row 7: `REX + 80 /4 ib`, AND r/m8, imm8 -/
  | andRm8Imm8Rex (p : Prefixes) (rm : Rm) (imm : BitVec 8)
  /-- row 8: `81 /4 iw`, AND r/m16, imm16 -/
  | andRm16Imm16 (p : Prefixes) (rm : Rm) (imm : BitVec 16)
  /-- row 9: `81 /4 id`, AND r/m32, imm32 -/
  | andRm32Imm32 (p : Prefixes) (rm : Rm) (imm : BitVec 32)
  /-- row 10: `REX.W + 81 /4 id`, AND r/m64, imm32 -/
  | andRm64Imm32 (p : Prefixes) (rm : Rm) (imm : BitVec 32)
  /-- row 11: `83 /4 ib`, AND r/m16, imm8 -/
  | andRm16Imm8 (p : Prefixes) (rm : Rm) (imm : BitVec 8)
  /-- row 12: `83 /4 ib`, AND r/m32, imm8 -/
  | andRm32Imm8 (p : Prefixes) (rm : Rm) (imm : BitVec 8)
  /-- row 13: `REX.W + 83 /4 ib`, AND r/m64, imm8 -/
  | andRm64Imm8 (p : Prefixes) (rm : Rm) (imm : BitVec 8)
  /-- row 14: `20 /r`, AND r/m8, r8 -/
  | andRm8R8 (p : Prefixes) (rm : Rm) (reg : BitVec 3)
  /-- row 15: `REX + 20 /r`, AND r/m8, r8 -/
  | andRm8R8Rex (p : Prefixes) (rm : Rm) (reg : BitVec 3)
  /-- row 16: `21 /r`, AND r/m16, r16 -/
  | andRm16R16 (p : Prefixes) (rm : Rm) (reg : BitVec 3)
  /-- row 17: `21 /r`, AND r/m32, r32 -/
  | andRm32R32 (p : Prefixes) (rm : Rm) (reg : BitVec 3)
  /-- row 18: `REX.W + 21 /r`, AND r/m64, r64 -/
  | andRm64R64 (p : Prefixes) (rm : Rm) (reg : BitVec 3)
  /-- row 19: `22 /r`, AND r8, r/m8 -/
  | andR8Rm8 (p : Prefixes) (reg : BitVec 3) (rm : Rm)
  /-- row 20: `REX + 22 /r`, AND r8, r/m8 -/
  | andR8Rm8Rex (p : Prefixes) (reg : BitVec 3) (rm : Rm)
  /-- row 21: `23 /r`, AND r16, r/m16 -/
  | andR16Rm16 (p : Prefixes) (reg : BitVec 3) (rm : Rm)
  /-- row 22: `23 /r`, AND r32, r/m32 -/
  | andR32Rm32 (p : Prefixes) (reg : BitVec 3) (rm : Rm)
  /-- row 23: `REX.W + 23 /r`, AND r64, r/m64 -/
  | andR64Rm64 (p : Prefixes) (reg : BitVec 3) (rm : Rm)
  /-- row 24: `66 0F 54 /r` -/
  | andpd (p : Prefixes) (reg : BitVec 3) (rm : Rm)
  /-- row 25: `0F 54 /r` -/
  | andps (p : Prefixes) (reg : BitVec 3) (rm : Rm)
  deriving DecidableEq, Repr

end Sys2Proof
end

