-- ==== Sys2Proof/WellFormed.lean ====
section
/-! DEFINITION. Which instructions the spec's encoding can spell under a given mode and default size:
the conditions of the opcode table's rows (30_encoding.md R119, R134), of the prefix sets (R95, R99,
R100), of the memory forms (R106, R107, R109) and of the length (R114). -/

namespace Sys2Proof

/-- The table's condition on the REX prefix (R134). -/
inductive RexRule where
  | absent
  | present
  | any
  | w0
  | w1
  deriving DecidableEq, Repr

/-- The table's condition on the 66 prefix (R134). -/
inductive P66Rule where
  | ignored
  | absent
  | mandatory
  | perOpsize
  deriving DecidableEq, Repr

/-- What a row of the table says of an instruction's prefixes and sizes. -/
structure RowRule where
  rex         : RexRule
  p66         : P66Rule
  opsize      : Nat
  opcodeBytes : Nat
  immBytes    : Nat
  deriving DecidableEq, Repr

/-- The row of spec/opcode_table.json each constructor stands for. -/
def Instr.rowRule : Instr → RowRule
  | .aeskeygenassist .. => ⟨.w0, .mandatory, 128, 3, 1⟩
  | .andAlImm8 ..       => ⟨.any, .ignored, 8, 1, 1⟩
  | .andAxImm16 ..      => ⟨.w0, .perOpsize, 16, 1, 2⟩
  | .andEaxImm32 ..     => ⟨.w0, .perOpsize, 32, 1, 4⟩
  | .andRaxImm32 ..     => ⟨.w1, .ignored, 64, 1, 4⟩
  | .andRm8Imm8 ..      => ⟨.absent, .ignored, 8, 1, 1⟩
  | .andRm8Imm8Rex ..   => ⟨.present, .ignored, 8, 1, 1⟩
  | .andRm16Imm16 ..    => ⟨.w0, .perOpsize, 16, 1, 2⟩
  | .andRm32Imm32 ..    => ⟨.w0, .perOpsize, 32, 1, 4⟩
  | .andRm64Imm32 ..    => ⟨.w1, .ignored, 64, 1, 4⟩
  | .andRm16Imm8 ..     => ⟨.w0, .perOpsize, 16, 1, 1⟩
  | .andRm32Imm8 ..     => ⟨.w0, .perOpsize, 32, 1, 1⟩
  | .andRm64Imm8 ..     => ⟨.w1, .ignored, 64, 1, 1⟩
  | .andRm8R8 ..        => ⟨.absent, .ignored, 8, 1, 0⟩
  | .andRm8R8Rex ..     => ⟨.present, .ignored, 8, 1, 0⟩
  | .andRm16R16 ..      => ⟨.w0, .perOpsize, 16, 1, 0⟩
  | .andRm32R32 ..      => ⟨.w0, .perOpsize, 32, 1, 0⟩
  | .andRm64R64 ..      => ⟨.w1, .ignored, 64, 1, 0⟩
  | .andR8Rm8 ..        => ⟨.absent, .ignored, 8, 1, 0⟩
  | .andR8Rm8Rex ..     => ⟨.present, .ignored, 8, 1, 0⟩
  | .andR16Rm16 ..      => ⟨.w0, .perOpsize, 16, 1, 0⟩
  | .andR32Rm32 ..      => ⟨.w0, .perOpsize, 32, 1, 0⟩
  | .andR64Rm64 ..      => ⟨.w1, .ignored, 64, 1, 0⟩
  | .andpd ..           => ⟨.w0, .mandatory, 128, 2, 0⟩
  | .andps ..           => ⟨.w0, .absent, 128, 2, 0⟩

/-- The prefixes an instruction carries. -/
def Instr.prefixes : Instr → Prefixes
  | .aeskeygenassist p _ _ _ => p
  | .andAlImm8 p _           => p
  | .andAxImm16 p _          => p
  | .andEaxImm32 p _         => p
  | .andRaxImm32 p _         => p
  | .andRm8Imm8 p _ _        => p
  | .andRm8Imm8Rex p _ _     => p
  | .andRm16Imm16 p _ _      => p
  | .andRm32Imm32 p _ _      => p
  | .andRm64Imm32 p _ _      => p
  | .andRm16Imm8 p _ _       => p
  | .andRm32Imm8 p _ _       => p
  | .andRm64Imm8 p _ _       => p
  | .andRm8R8 p _ _          => p
  | .andRm8R8Rex p _ _       => p
  | .andRm16R16 p _ _        => p
  | .andRm32R32 p _ _        => p
  | .andRm64R64 p _ _        => p
  | .andR8Rm8 p _ _          => p
  | .andR8Rm8Rex p _ _       => p
  | .andR16Rm16 p _ _        => p
  | .andR32Rm32 p _ _        => p
  | .andR64Rm64 p _ _        => p
  | .andpd p _ _             => p
  | .andps p _ _             => p

/-- The ModRM r/m operand, where the row has a ModRM byte. -/
def Instr.rm? : Instr → Option Rm
  | .aeskeygenassist _ _ rm _ => some rm
  | .andAlImm8 ..             => none
  | .andAxImm16 ..            => none
  | .andEaxImm32 ..           => none
  | .andRaxImm32 ..           => none
  | .andRm8Imm8 _ rm _        => some rm
  | .andRm8Imm8Rex _ rm _     => some rm
  | .andRm16Imm16 _ rm _      => some rm
  | .andRm32Imm32 _ rm _      => some rm
  | .andRm64Imm32 _ rm _      => some rm
  | .andRm16Imm8 _ rm _       => some rm
  | .andRm32Imm8 _ rm _       => some rm
  | .andRm64Imm8 _ rm _       => some rm
  | .andRm8R8 _ rm _          => some rm
  | .andRm8R8Rex _ rm _       => some rm
  | .andRm16R16 _ rm _        => some rm
  | .andRm32R32 _ rm _        => some rm
  | .andRm64R64 _ rm _        => some rm
  | .andR8Rm8 _ _ rm          => some rm
  | .andR8Rm8Rex _ _ rm       => some rm
  | .andR16Rm16 _ _ rm        => some rm
  | .andR32Rm32 _ _ rm        => some rm
  | .andR64Rm64 _ _ rm        => some rm
  | .andpd _ _ rm             => some rm
  | .andps _ _ rm             => some rm

/-! ## Sizes -/

/-- One byte for each prefix present (R90). -/
def Prefixes.size (p : Prefixes) : Nat :=
  p.lock.toNat + p.p66.toNat + p.p67.toNat + (if p.seg.isSome then 1 else 0) +
    (if p.rex.isSome then 1 else 0)

/-- Bytes of a displacement whose full width is `full` bytes. -/
def Disp.size {w : Nat} (full : Nat) : Disp w → Nat
  | .none => 0
  | .d8 _ => 1
  | .full _ => full

/-- ModRM, SIB and displacement bytes of an r/m operand (R106, R107, R109). -/
def Rm.size : Rm → Nat
  | .reg _ => 1
  | .mem (.mem16 _ d) => 1 + d.size 2
  | .mem (.direct16 _) => 3
  | .mem (.base _ d) => 1 + d.size 4
  | .mem (.disp32 _) => 5
  | .mem (.sib _ _ _ d) => 2 + d.size 4
  | .mem (.sibNoBase ..) => 6

/-- The number of bytes of an instruction, part by part (R90). -/
def Instr.size (i : Instr) : Nat :=
  i.prefixes.size + i.rowRule.opcodeBytes + (i.rm?.elim 0 Rm.size) + i.rowRule.immBytes

/-! ## The conditions -/

/-- The address size is 16 (R98). -/
def CodeCtx.addr16 (cx : CodeCtx) (p67 : Bool) : Bool :=
  match cx.mode, cx.csD with
  | .long64, _ => false
  | _, .d16 => !p67
  | _, .d32 => p67

/-- The default operand size: 32 in 64-bit mode, `CS_D` elsewhere (R96, R97). -/
def CodeCtx.defaultOpsize (cx : CodeCtx) : Nat :=
  match cx.mode, cx.csD with
  | .long64, _ => 32
  | _, .d16 => 16
  | _, .d32 => 32

/-- REX only in 64-bit mode (R95); in 64-bit mode no segment override but FS and GS (R99). -/
def Prefixes.wf (cx : CodeCtx) (p : Prefixes) : Bool :=
  (p.rex.isNone || cx.mode == .long64) &&
    (cx.mode != .long64 || p.seg == none || p.seg == some .fs || p.seg == some .gs)

def RexRule.holds : RexRule → Option Rex → Bool
  | .absent, r => r.isNone
  | .present, r => r.isSome
  | .any, _ => true
  | .w0, r => r.all (fun r => !r.w)
  | .w1, r => r.any (fun r => r.w)

def P66Rule.holds (cx : CodeCtx) (opsize : Nat) : P66Rule → Bool → Bool
  | .ignored, _ => true
  | .absent, b => !b
  | .mandatory, b => b
  | .perOpsize, b => b == (opsize != cx.defaultOpsize)

def Disp.isNone {w : Nat} : Disp w → Bool
  | .none => true
  | _ => false

/-- The forms `mod` and `r/m` can spell at the address size (R106, R107, R109). -/
def MemOp.wf (addr16 : Bool) : MemOp → Bool
  | .mem16 rm d => addr16 && (!d.isNone || rm != 6)
  | .direct16 _ => addr16
  | .base rm d => !addr16 && rm != 4 && (!d.isNone || rm != 5)
  | .disp32 _ => !addr16
  | .sib _ _ b d => !addr16 && (!d.isNone || b != 5)
  | .sibNoBase .. => !addr16

def Rm.wf (addr16 : Bool) : Rm → Bool
  | .reg _ => true
  | .mem m => m.wf addr16

/-- `i` is an instruction of the spec under `cx`. -/
def Instr.wf (cx : CodeCtx) (i : Instr) : Bool :=
  i.prefixes.wf cx &&
    i.rowRule.rex.holds i.prefixes.rex &&
    i.rowRule.p66.holds cx i.rowRule.opsize i.prefixes.p66 &&
    i.rm?.all (fun rm => rm.wf (cx.addr16 i.prefixes.p67)) &&
    decide (i.size ≤ 15)

end Sys2Proof
end

