-- ==== Sys2Proof/Decode.lean ====
section
/-! DEFINITION. The decoder, total on any bytes, which refuses by name (30_encoding.md R90 to R131),
and the encoder of a well-formed instruction, written from the same tables. -/

namespace Sys2Proof

/-- Why bytes are none of the 25 rows (R130). Raised by `decode`; every one is a refusal and safe: the
spec gives such bytes no meaning and says that this is no claim of #UD. -/
inductive DecodeError where
  /-- the bytes end inside the instruction (70_reset_and_hazards.md R253) -/
  | truncated
  /-- a legacy prefix byte stands twice (R100) -/
  | repeatedPrefix
  /-- two segment overrides (R100) -/
  | twoSegmentOverrides
  /-- an ES, CS, SS or DS override in 64-bit mode (R99) -/
  | segmentOverrideIn64Bit
  /-- F2 or F3 (R100) -/
  | repPrefix
  /-- a REX byte that another prefix follows (R95, R100) -/
  | rexNotLast
  /-- `REX.W` = 1 on an XMM instruction (R95) -/
  | rexWOnXmm
  /-- `0F 3A DF` without the mandatory 66 (R131) -/
  | mandatory66Missing
  /-- an opcode of no row, or a ModRM reg field other than 4 on `80`, `81`, `83` (R131) -/
  | notARow
  /-- longer than 15 bytes (R114) -/
  | tooLong
  deriving DecidableEq, Repr

/-! ## Prefixes -/

/-- The legacy prefix bytes (R91). -/
inductive PrefixByte where
  | lock
  | p66
  | p67
  | seg (s : Seg)
  | rep
  deriving DecidableEq, Repr

def prefixByte? (b : Byte) : Option PrefixByte :=
  if b = 0xF0 then some .lock
  else if b = 0x66 then some .p66
  else if b = 0x67 then some .p67
  else if b = 0x26 then some (.seg .es)
  else if b = 0x2E then some (.seg .cs)
  else if b = 0x36 then some (.seg .ss)
  else if b = 0x3E then some (.seg .ds)
  else if b = 0x64 then some (.seg .fs)
  else if b = 0x65 then some (.seg .gs)
  else if b = 0xF2 ∨ b = 0xF3 then some .rep
  else none

/-- In 64-bit mode only the FS and GS overrides are admitted (R99). -/
def overrideAdmitted (cx : CodeCtx) (g : Seg) : Bool :=
  cx.mode != .long64 || g == .fs || g == .gs

/-- One legacy prefix added to those seen, or why it may not stand there (R99, R100). -/
def addPrefix (cx : CodeCtx) (p : Prefixes) : PrefixByte → Except DecodeError Prefixes
  | .lock => if p.lock then .error .repeatedPrefix else .ok { p with lock := true }
  | .p66 => if p.p66 then .error .repeatedPrefix else .ok { p with p66 := true }
  | .p67 => if p.p67 then .error .repeatedPrefix else .ok { p with p67 := true }
  | .rep => .error .repPrefix
  | .seg g =>
    if p.seg = some g then .error .repeatedPrefix
    else if p.seg.isSome then .error .twoSegmentOverrides
    else if !overrideAdmitted cx g then .error .segmentOverrideIn64Bit
    else .ok { p with seg := some g }

/-- Step (1) of R105: consume legacy prefixes. -/
def takePrefixes (cx : CodeCtx) (p : Prefixes) : List Byte → Except DecodeError (Prefixes × List Byte)
  | [] => .error .truncated
  | b :: bs =>
    match prefixByte? b with
    | none => .ok (p, b :: bs)
    | some k =>
      match addPrefix cx p k with
      | .error e => .error e
      | .ok p' => takePrefixes cx p' bs

/-- The bytes 40H to 4FH (R95). -/
def isRexByte (b : Byte) : Bool := b.extractLsb' 4 4 == 4

/-- `0100WRXB` (R95). -/
def rexOfByte (b : Byte) : Rex := ⟨b.getLsbD 3, b.getLsbD 2, b.getLsbD 1, b.getLsbD 0⟩

/-- Step (2) of R105: in 64-bit mode a byte 40H to 4FH is the REX prefix, and no other prefix may follow
it (R95). -/
def takeRex (cx : CodeCtx) (p : Prefixes) : List Byte → Except DecodeError (Prefixes × List Byte)
  | [] => .error .truncated
  | b :: bs =>
    if cx.mode = .long64 ∧ isRexByte b = true then
      match bs with
      | [] => .error .truncated
      | c :: _ =>
        if (prefixByte? c).isSome || isRexByte c then .error .rexNotLast
        else .ok ({ p with rex := some (rexOfByte b) }, bs)
    else .ok (p, b :: bs)

/-! ## Opcodes -/

/-- The eleven opcodes of the map (R104, R115 to R118). -/
inductive Opcode where
  | o24
  | o25
  | o80
  | o81
  | o83
  | o20
  | o21
  | o22
  | o23
  | o0F54
  | o0F3ADF
  deriving DecidableEq, Repr

/-- The one-byte opcodes (R115). -/
def opcode1? (b : Byte) : Option Opcode :=
  if b = 0x24 then some .o24
  else if b = 0x25 then some .o25
  else if b = 0x80 then some .o80
  else if b = 0x81 then some .o81
  else if b = 0x83 then some .o83
  else if b = 0x20 then some .o20
  else if b = 0x21 then some .o21
  else if b = 0x22 then some .o22
  else if b = 0x23 then some .o23
  else none

/-- After the escape bytes `0F 3A` (R116). -/
def takeOpcode0F3A : List Byte → Except DecodeError (Opcode × List Byte)
  | [] => .error .truncated
  | d :: bs => if d = 0xDF then .ok (.o0F3ADF, bs) else .error .notARow

/-- After the escape byte `0F` (R116 to R118). -/
def takeOpcode0F : List Byte → Except DecodeError (Opcode × List Byte)
  | [] => .error .truncated
  | c :: bs =>
    if c = 0x54 then .ok (.o0F54, bs)
    else if c = 0x3A then takeOpcode0F3A bs
    else .error .notARow

/-- Step (3) of R105: the opcode bytes (R104). -/
def takeOpcode : List Byte → Except DecodeError (Opcode × List Byte)
  | [] => .error .truncated
  | b :: bs =>
    if b = 0x0F then takeOpcode0F bs
    else
      match opcode1? b with
      | some o => .ok (o, bs)
      | none => .error .notARow

/-! ## Little-endian fields -/

def take8 : List Byte → Except DecodeError (BitVec 8 × List Byte)
  | a :: bs => .ok (a, bs)
  | _ => .error .truncated

/-- The first byte is the least significant (R112, R113). -/
def take16 : List Byte → Except DecodeError (BitVec 16 × List Byte)
  | a :: b :: bs => .ok (b ++ a, bs)
  | _ => .error .truncated

def take32 : List Byte → Except DecodeError (BitVec 32 × List Byte)
  | a :: b :: c :: d :: bs => .ok (d ++ c ++ b ++ a, bs)
  | _ => .error .truncated

/-! ## ModRM, SIB, displacement -/

/-- The displacement that `mod` = 00, 01, 10 selects at 16-bit addressing (R109). -/
def takeDisp16 (mod : BitVec 2) (bs : List Byte) : Except DecodeError (Disp 16 × List Byte) :=
  if mod = 0 then .ok (.none, bs)
  else if mod = 1 then do let (d, bs) ← take8 bs; .ok (.d8 d, bs)
  else do let (d, bs) ← take16 bs; .ok (.full d, bs)

/-- The same at 32- and 64-bit addressing (R106). -/
def takeDisp32 (mod : BitVec 2) (bs : List Byte) : Except DecodeError (Disp 32 × List Byte) :=
  if mod = 0 then .ok (.none, bs)
  else if mod = 1 then do let (d, bs) ← take8 bs; .ok (.d8 d, bs)
  else do let (d, bs) ← take32 bs; .ok (.full d, bs)

/-- 16-bit addressing, `mod` not 11 (R109). -/
def takeMem16 (mod : BitVec 2) (rm : BitVec 3) (bs : List Byte) : Except DecodeError (MemOp × List Byte) :=
  if mod = 0 ∧ rm = 6 then do let (d, bs) ← take16 bs; .ok (.direct16 d, bs)
  else do let (d, bs) ← takeDisp16 mod bs; .ok (.mem16 rm d, bs)

/-- The SIB byte and what follows it (R107). -/
def takeSib (mod : BitVec 2) : List Byte → Except DecodeError (MemOp × List Byte)
  | [] => .error .truncated
  | sib :: bs =>
    if mod = 0 ∧ sib.extractLsb' 0 3 = 5 then do
      let (d, bs) ← take32 bs
      .ok (.sibNoBase (sib.extractLsb' 6 2) (sib.extractLsb' 3 3) d, bs)
    else do
      let (d, bs) ← takeDisp32 mod bs
      .ok (.sib (sib.extractLsb' 6 2) (sib.extractLsb' 3 3) (sib.extractLsb' 0 3) d, bs)

/-- 32- and 64-bit addressing, `mod` not 11 (R106). The tests look at the three-bit field alone. -/
def takeMem32 (mod : BitVec 2) (rm : BitVec 3) (bs : List Byte) : Except DecodeError (MemOp × List Byte) :=
  if rm = 4 then takeSib mod bs
  else if mod = 0 ∧ rm = 5 then do let (d, bs) ← take32 bs; .ok (.disp32 d, bs)
  else do let (d, bs) ← takeDisp32 mod bs; .ok (.base rm d, bs)

/-- Address-size 16 is selected (R98): never in 64-bit mode, else `CS_D` turned over by 67. -/
def addressSize16 (cx : CodeCtx) (p67 : Bool) : Bool :=
  match cx.mode with
  | .long64 => false
  | _ => (cx.csD == .d16) != p67

/-- Step (4) of R105: ModRM and what it selects; the reg field and the r/m operand (R101). -/
def takeModRM (a16 : Bool) : List Byte → Except DecodeError ((BitVec 3 × Rm) × List Byte)
  | [] => .error .truncated
  | m :: bs =>
    if m.extractLsb' 6 2 = 3 then .ok ((m.extractLsb' 3 3, .reg (m.extractLsb' 0 3)), bs)
    else do
      let (o, bs) ←
        if a16 then takeMem16 (m.extractLsb' 6 2) (m.extractLsb' 0 3) bs
        else takeMem32 (m.extractLsb' 6 2) (m.extractLsb' 0 3) bs
      .ok ((m.extractLsb' 3 3, .mem o), bs)

/-! ## Rows -/

/-- Operand size 16, 32 or 64 of opcodes `25`, `81`, `83`, `21`, `23`. -/
inductive WideSize where
  | w16
  | w32
  | w64
  deriving DecidableEq, Repr

def Prefixes.rexW (p : Prefixes) : Bool := p.rex.any (·.w)

/-- R96 and R97: `REX.W` gives 64 and overrides 66; else 66 turns the default over. -/
def wideSize (cx : CodeCtx) (p : Prefixes) : WideSize :=
  if p.rexW then .w64
  else
    match cx.mode, cx.csD with
    | .long64, _ => if p.p66 then .w16 else .w32
    | _, .d32 => if p.p66 then .w16 else .w32
    | _, .d16 => if p.p66 then .w32 else .w16

/-- Opcode `25`: AX, EAX or RAX by operand size (R156 to R158). -/
def takeAccWide (sz : WideSize) (p : Prefixes) (bs : List Byte) : Except DecodeError (Instr × List Byte) :=
  match sz with
  | .w16 => do let (v, bs) ← take16 bs; .ok (.andAxImm16 p v, bs)
  | .w32 => do let (v, bs) ← take32 bs; .ok (.andEaxImm32 p v, bs)
  | .w64 => do let (v, bs) ← take32 bs; .ok (.andRaxImm32 p v, bs)

/-- Opcode `81 /4` (R161 to R163). -/
def takeImmWide (sz : WideSize) (p : Prefixes) (rm : Rm) (bs : List Byte) : Except DecodeError (Instr × List Byte) :=
  match sz with
  | .w16 => do let (v, bs) ← take16 bs; .ok (.andRm16Imm16 p rm v, bs)
  | .w32 => do let (v, bs) ← take32 bs; .ok (.andRm32Imm32 p rm v, bs)
  | .w64 => do let (v, bs) ← take32 bs; .ok (.andRm64Imm32 p rm v, bs)

/-- Opcode `83 /4` (R164 to R166). -/
def immByteWide (sz : WideSize) (p : Prefixes) (rm : Rm) (v : BitVec 8) : Instr :=
  match sz with
  | .w16 => .andRm16Imm8 p rm v
  | .w32 => .andRm32Imm8 p rm v
  | .w64 => .andRm64Imm8 p rm v

/-- Opcode `21 /r` (R169 to R171). -/
def regToRmWide (sz : WideSize) (p : Prefixes) (reg : BitVec 3) (rm : Rm) : Instr :=
  match sz with
  | .w16 => .andRm16R16 p rm reg
  | .w32 => .andRm32R32 p rm reg
  | .w64 => .andRm64R64 p rm reg

/-- Opcode `23 /r` (R174 to R176). -/
def rmToRegWide (sz : WideSize) (p : Prefixes) (reg : BitVec 3) (rm : Rm) : Instr :=
  match sz with
  | .w16 => .andR16Rm16 p reg rm
  | .w32 => .andR32Rm32 p reg rm
  | .w64 => .andR64Rm64 p reg rm

/-- ModRM with reg = 4, an opcode extension (R101, R104). -/
def takeGroup4 (a16 : Bool) (bs : List Byte) : Except DecodeError (Rm × List Byte) := do
  let ((reg, rm), bs) ← takeModRM a16 bs
  if reg = 4 then .ok (rm, bs) else .error .notARow

/-- Steps (4) and (5) of R105: the operands of an opcode, and the row they make (R119). -/
def takeOperands (cx : CodeCtx) (p : Prefixes) (o : Opcode) (bs : List Byte) :
    Except DecodeError (Instr × List Byte) :=
  let a16 := addressSize16 cx p.p67
  match o with
  | .o24 => do
    let (v, bs) ← take8 bs
    .ok (.andAlImm8 p v, bs)
  | .o25 => takeAccWide (wideSize cx p) p bs
  | .o80 => do
    let (rm, bs) ← takeGroup4 a16 bs
    let (v, bs) ← take8 bs
    .ok (if p.rex.isSome then .andRm8Imm8Rex p rm v else .andRm8Imm8 p rm v, bs)
  | .o81 => do
    let (rm, bs) ← takeGroup4 a16 bs
    takeImmWide (wideSize cx p) p rm bs
  | .o83 => do
    let (rm, bs) ← takeGroup4 a16 bs
    let (v, bs) ← take8 bs
    .ok (immByteWide (wideSize cx p) p rm v, bs)
  | .o20 => do
    let ((reg, rm), bs) ← takeModRM a16 bs
    .ok (if p.rex.isSome then .andRm8R8Rex p rm reg else .andRm8R8 p rm reg, bs)
  | .o21 => do
    let ((reg, rm), bs) ← takeModRM a16 bs
    .ok (regToRmWide (wideSize cx p) p reg rm, bs)
  | .o22 => do
    let ((reg, rm), bs) ← takeModRM a16 bs
    .ok (if p.rex.isSome then .andR8Rm8Rex p reg rm else .andR8Rm8 p reg rm, bs)
  | .o23 => do
    let ((reg, rm), bs) ← takeModRM a16 bs
    .ok (rmToRegWide (wideSize cx p) p reg rm, bs)
  | .o0F54 =>
    if p.rexW then .error .rexWOnXmm
    else do
      let ((reg, rm), bs) ← takeModRM a16 bs
      .ok (if p.p66 then .andpd p reg rm else .andps p reg rm, bs)
  | .o0F3ADF =>
    if !p.p66 then .error .mandatory66Missing
    else if p.rexW then .error .rexWOnXmm
    else do
      let ((reg, rm), bs) ← takeModRM a16 bs
      let (v, bs) ← take8 bs
      .ok (.aeskeygenassist p reg rm v, bs)

def noPrefixes : Prefixes := ⟨false, false, false, none, none⟩

/-- The decoding procedure of R105, without the length check. -/
def decodeAnyLength (cx : CodeCtx) (bs : List Byte) : Except DecodeError (Instr × List Byte) := do
  let (p, bs) ← takePrefixes cx noPrefixes bs
  let (p, bs) ← takeRex cx p bs
  let (o, bs) ← takeOpcode bs
  takeOperands cx p o bs

/-- The instruction that begins the bytes, and the bytes after it (R105, R114). -/
def decode (cx : CodeCtx) (bs : List Byte) : Except DecodeError (Instr × List Byte) :=
  match decodeAnyLength cx bs with
  | .error e => .error e
  | .ok (i, rest) => if bs.length - rest.length > 15 then .error .tooLong else .ok (i, rest)

/-! ## The encoder -/

def bytes16 (v : BitVec 16) : List Byte := [v.extractLsb' 0 8, v.extractLsb' 8 8]

def bytes32 (v : BitVec 32) : List Byte :=
  [v.extractLsb' 0 8, v.extractLsb' 8 8, v.extractLsb' 16 8, v.extractLsb' 24 8]

def segByte : Seg → Byte
  | .es => 0x26
  | .cs => 0x2E
  | .ss => 0x36
  | .ds => 0x3E
  | .fs => 0x64
  | .gs => 0x65

def rexByte (r : Rex) : Byte :=
  (4 : BitVec 4) ++ BitVec.ofBool r.w ++ BitVec.ofBool r.r ++ BitVec.ofBool r.x ++ BitVec.ofBool r.b

/-- The prefixes in one fixed order: segment, F0, 66, 67, REX (R90). -/
def encodePrefixes (p : Prefixes) : List Byte :=
  p.seg.toList.map segByte ++ (if p.lock then [0xF0] else []) ++ (if p.p66 then [0x66] else []) ++
    (if p.p67 then [0x67] else []) ++ p.rex.toList.map rexByte

/-- ModRM as `mod`, `reg`, `rm` (R101). -/
def modRM (mod : BitVec 2) (reg rm : BitVec 3) : Byte := mod ++ reg ++ rm

/-- SIB as `scale`, `index`, `base` (R107). -/
def sibByte (scale : BitVec 2) (index base : BitVec 3) : Byte := scale ++ index ++ base

def dispMod {w : Nat} : Disp w → BitVec 2
  | .none => 0
  | .d8 _ => 1
  | .full _ => 2

def encodeDisp16 : Disp 16 → List Byte
  | .none => []
  | .d8 d => [d]
  | .full d => bytes16 d

def encodeDisp32 : Disp 32 → List Byte
  | .none => []
  | .d8 d => [d]
  | .full d => bytes32 d

/-- ModRM, SIB and displacement (R106, R107, R109). -/
def encodeRm (reg : BitVec 3) : Rm → List Byte
  | .reg rm => [modRM 3 reg rm]
  | .mem (.mem16 rm d) => modRM (dispMod d) reg rm :: encodeDisp16 d
  | .mem (.direct16 d) => modRM 0 reg 6 :: bytes16 d
  | .mem (.base rm d) => modRM (dispMod d) reg rm :: encodeDisp32 d
  | .mem (.disp32 d) => modRM 0 reg 5 :: bytes32 d
  | .mem (.sib sc ix b d) => modRM (dispMod d) reg 4 :: sibByte sc ix b :: encodeDisp32 d
  | .mem (.sibNoBase sc ix d) => modRM 0 reg 4 :: sibByte sc ix 5 :: bytes32 d

/-- Opcode, ModRM part and immediate of each row (R119). -/
def encodeBody : Instr → List Byte
  | .aeskeygenassist _ reg rm v => [0x0F, 0x3A, 0xDF] ++ encodeRm reg rm ++ [v]
  | .andAlImm8 _ v => [0x24, v]
  | .andAxImm16 _ v => [0x25] ++ bytes16 v
  | .andEaxImm32 _ v => [0x25] ++ bytes32 v
  | .andRaxImm32 _ v => [0x25] ++ bytes32 v
  | .andRm8Imm8 _ rm v => [0x80] ++ encodeRm 4 rm ++ [v]
  | .andRm8Imm8Rex _ rm v => [0x80] ++ encodeRm 4 rm ++ [v]
  | .andRm16Imm16 _ rm v => [0x81] ++ encodeRm 4 rm ++ bytes16 v
  | .andRm32Imm32 _ rm v => [0x81] ++ encodeRm 4 rm ++ bytes32 v
  | .andRm64Imm32 _ rm v => [0x81] ++ encodeRm 4 rm ++ bytes32 v
  | .andRm16Imm8 _ rm v => [0x83] ++ encodeRm 4 rm ++ [v]
  | .andRm32Imm8 _ rm v => [0x83] ++ encodeRm 4 rm ++ [v]
  | .andRm64Imm8 _ rm v => [0x83] ++ encodeRm 4 rm ++ [v]
  | .andRm8R8 _ rm reg => [0x20] ++ encodeRm reg rm
  | .andRm8R8Rex _ rm reg => [0x20] ++ encodeRm reg rm
  | .andRm16R16 _ rm reg => [0x21] ++ encodeRm reg rm
  | .andRm32R32 _ rm reg => [0x21] ++ encodeRm reg rm
  | .andRm64R64 _ rm reg => [0x21] ++ encodeRm reg rm
  | .andR8Rm8 _ reg rm => [0x22] ++ encodeRm reg rm
  | .andR8Rm8Rex _ reg rm => [0x22] ++ encodeRm reg rm
  | .andR16Rm16 _ reg rm => [0x23] ++ encodeRm reg rm
  | .andR32Rm32 _ reg rm => [0x23] ++ encodeRm reg rm
  | .andR64Rm64 _ reg rm => [0x23] ++ encodeRm reg rm
  | .andpd _ reg rm => [0x0F, 0x54] ++ encodeRm reg rm
  | .andps _ reg rm => [0x0F, 0x54] ++ encodeRm reg rm

/-- The bytes of an instruction, lowest address first. -/
def encode (i : Instr) : List Byte := encodePrefixes i.prefixes ++ encodeBody i

/-- The length `L` of R105 and R26: how many bytes the instruction's encoding has. -/
def instrLength (i : Instr) : Nat := (encode i).length

/-! ## The opcode table's words -/

/-- The last `n` bytes of `w`, most significant first. -/
def beBytes : Nat → Nat → List Byte
  | 0, _ => []
  | n + 1, w => BitVec.ofNat 8 (w / 256 ^ n) :: beBytes n w

/-- The bytes of a word of spec/opcode_table.json, then zeros up to 15 bytes. The table's words are
opcode windows: one big-endian number, the first opcode byte most significant, without the prefixes
(R134). No opcode begins with a zero byte, so zero bytes above the number are no part of it. The window
`0F 3A DF` belongs to one row only, whose mandatory prefix 66 is put before it (log entry 9). -/
def tableBytes (nbits w : Nat) : List Byte :=
  let bs := (beBytes (nbits / 8) w).dropWhile (fun b => b == 0)
  let bs := if bs.take 3 = [0x0F, 0x3A, 0xDF] then 0x66 :: bs else bs
  (bs ++ List.replicate 15 0).take 15

/-- The machine's decoding context right after reset: real-address mode, default size 16 (log entry 2). -/
def resetCtx : CodeCtx := ⟨.real, .d16⟩

/-- The instruction the decoder reads from a word of the opcode table, in the context of reset. -/
def decodeTableWord (nbits w : Nat) : Option Instr :=
  match decode resetCtx (tableBytes nbits w) with
  | .ok (i, _) => some i
  | .error _ => none

end Sys2Proof
end

