-- ==== Sys2Proof/Machine/State.lean ====
section
/-! DEFINITION. The state of the machine, as plain data, its reasons to stop, and reset
(10_state.md; 60_exceptions.md R200, R210; 70_reset_and_hazards.md R240, R241, R253). -/

namespace Sys2Proof.Machine

/-- Memory: (physical address, byte) pairs, addresses strictly rising, no entry equal to what an
unlisted address reads as (10_state.md R36, 20_memory.md R60). -/
abbrev Memory := List Host.Cell

/-- What an address reads as that memory does not list. The spec gives memory no contents at launch
(R40, R241): DESIGN CHOICE 00H, log entry 4. -/
def unlistedByte : Byte := 0

/-- The canonical form of a memory; its addresses are the physical addresses 0 .. 2^64 - 1. -/
abbrev Memory.wf (m : Memory) : Prop :=
  m.Pairwise (fun c d => c.1 < d.1) ∧ ∀ c ∈ m, c.2 ≠ unlistedByte ∧ c.1 < 2 ^ 64

/-- RFLAGS (10_state.md R27): the six status flags by name, and `other`, the register's bits at the other
positions. `RFlags.word` (Machine/Flags.lean) puts them at their places. Bit 18 (AC) is one of `other`'s bits, which
no instruction reads, and is not tied to `acEnabled` (R30, D16): DESIGN CHOICE, log entry 21. -/
structure RFlags where
  cf    : Bool
  pf    : Bool
  af    : Bool
  zf    : Bool
  sf    : Bool
  of    : Bool
  other : Word64
  deriving DecidableEq, Repr

/-- The program text of a run: `length` bytes from offset `start` of the code segment on (R241, R253). Its
bytes are in memory (20_memory.md R61). -/
structure Text where
  start  : Word64
  length : Nat
  deriving DecidableEq, Repr

/-- The state of the one logical processor and its memory. -/
structure State where
  /-- the general registers `x[0]` .. `x[15]` (R20) -/
  x     : Vector Word64 16
  /-- the XMM registers (R31) -/
  xmm   : Vector XWord 16
  /-- bits 255:128 above each XMM register; `none` is `HAS_UPPER = false` (R33) -/
  upper : Option (Vector XWord 16)
  /-- the instruction pointer, an offset in CS (R26) -/
  pc    : Word64
  /-- RFLAGS (R27) -/
  flags : RFlags
  /-- memory by physical address (R36) -/
  mem   : Memory
  /-- where the program text of this run lies (R241) -/
  text  : Text
  /-- the configuration of this run (00_scope.md R6) -/
  sys   : SysConfig
  /-- the model's own: how many AF flags have been drawn (log entry 1) -/
  draws : Nat
  deriving DecidableEq, Repr

/-- The six exceptions. Each ends the run with the state as it was before the instruction; `pc` is the
raising instruction's first byte (60_exceptions.md R200, R210). A code of `none` is an exception the
source writes without an error code. That a code has 32 bits is DESIGN CHOICE (R200 and R206 give no width:
log entry 18). -/
inductive Fault where
  /-- #UD, invalid opcode: raised by the LOCK check of every instruction and by the EM, OSFXSR and CPUID
  checks of the XMM instructions (R201). Safe: the spec names the exception, and delivery is not
  in it. -/
  | ud (pc : Word64)
  /-- #NM, device not available: raised by the XMM instructions when CR0.TS = 1 (R202). Safe, as #UD. -/
  | nm (pc : Word64)
  /-- #SS, stack-segment fault: raised by the segment and canonical checks for SS (R203). Safe, as #UD. -/
  | ss (code : Option (BitVec 32)) (pc : Word64)
  /-- #GP, general protection: raised by the segment, canonical and 16-byte alignment checks (R204). Safe,
  as #UD. -/
  | gp (code : Option (BitVec 32)) (pc : Word64)
  /-- #PF, page fault, with the code and the recorded address that `TRANSLATE` gives: raised by the page
  check (R206). Safe, as #UD. -/
  | pf (code : BitVec 32) (recorded : Word64) (pc : Word64)
  /-- #AC, alignment check: raised by AND's memory access (R205). Safe, as #UD. -/
  | ac (code : Option (BitVec 32)) (pc : Word64)
  deriving DecidableEq, Repr

/-- Where the spec gives the machine no step. Every one is safe: the run stops, and nothing is claimed of
what hardware does there. -/
inductive Refusal where
  /-- an instruction without a meaning; raised by no arm of `exec` in this model -/
  | notModelled (mnemonic : String)
  /-- the bytes at `pc` are none of the 25 rows (30_encoding.md R130); raised by `step` -/
  | undecodable (e : DecodeError)
  /-- `pc` is one past the last byte of the text: the run has ended normally (R253); raised by `step` -/
  | endOfText
  /-- `pc` lies outside the text, where the model never fetches (R253); raised by `step` -/
  | pcOutsideText
  /-- the text crosses the top of the offsets of `pc` (10_state.md R26), or fills all of them (DESIGN CHOICE,
  log entry 19); raised by `step` -/
  | textCrossesTop
  /-- a byte of the text that the fetch needs lies outside admitted memory (30_encoding.md R105); raised
  by `step` -/
  | textNotAdmitted
  /-- a store overlaps the program text (20_memory.md R82); raised by AND's memory destination -/
  | storeIntoText
  /-- an expand-down segment in the configuration (20_memory.md R66, D11); raised by `step` whatever the
  instruction, and by the limit test of the segment checks (log entry 14) -/
  | expandDownSegment
  /-- an operand past the top of the linear addresses (20_memory.md R69, D25); raised by the access -/
  | operandPastTop
  /-- a physical address that holds no memory (70 R254, D10); raised by the access -/
  | noMemory (address : Nat)
  deriving DecidableEq, Repr

/-- A segment at power-up: base `b`, limit FFFFH (R40); the Booleans are DESIGN CHOICE (log entry 3). -/
def resetSegment (b : Word64) : SegDesc :=
  { base := b, limit := 0xFFFF, null := false, writable := true, readable := true, expandDown := false }

/-- The configuration at power-up: R40's family values PRESUMED (log entry 2), the rest log entries 3, 5
and 6. -/
def SysConfig.reset : SysConfig where
  mode       := resetCtx.mode
  csD        := resetCtx.csD
  cpl        := 0
  cr0EM      := false
  cr0TS      := false
  cr4OSFXSR  := false
  cpuidAESNI := true
  cpuidSSE2  := true
  cpuidSSE   := true
  acEnabled  := false
  laBits     := .la48
  segs       :=
    { es := resetSegment 0, cs := resetSegment 0xFFFF0000, ss := resetSegment 0
      ds := resetSegment 0, fs := resetSegment 0, gs := resetSegment 0 }
  pages      := []
  holes      := []

/-- The machine right after reset. The spec states no value; these are the family's power-up values as
R40 lists them (PRESUMED, log entry 2), and log entries 3 to 6 and 8 for the rest. -/
def State.reset : State where
  x     := Vector.replicate 16 0
  xmm   := Vector.replicate 16 0
  upper := some (Vector.replicate 16 0)
  pc    := 0xFFF0
  flags := { cf := false, pf := false, af := false, zf := false, sf := false, of := false, other := 0 }
  mem   := []
  text  := { start := 0xFFF0, length := 0 }
  sys   := SysConfig.reset
  draws := 0

end Sys2Proof.Machine
end

