-- ==== Sys2Proof/Machine/Ops.lean ====
section
/-! DEFINITION. The named operations: outcomes in sequence, raising an exception, bytes of memory, the
path from an effective address to checked physical addresses (20_memory.md R60 to R77), the program
text, and the advance of `pc` (10_state.md R26). -/

namespace Sys2Proof.Machine

/-- The outcome of an operation that can stop the run. -/
abbrev Result (α : Type) := Host.Outcome α Fault Refusal

/-- Go on with `f` unless `r` stopped. -/
def andThen {α β : Type} (r : Result α) (f : α → Result β) : Result β :=
  match r with
  | .next a => f a
  | .fault x => .fault x
  | .refused q => .refused q

/-! ## Exceptions -/

/-- `raise #XX(code)` of R9: the run ends in `Fault(#XX, code, pc)`, nothing written, `pc` at the raising
instruction (60_exceptions.md R210). The spec has no delivery, no handler and no return (R212, R213). -/
def raise {α : Type} (f : Word64 → Fault) (s : State) : Result α := .fault (f s.pc)

/-- The error code written "(0)". -/
def code0 : Option (BitVec 32) := some 0

/-! ## Bit fields -/

/-- The low `n` bits of `v`, zero above. -/
def lowBits (n : Nat) (v : Word64) : Word64 := BitVec.ofNat 64 (v.toNat % 2 ^ n)

/-- The `n` bytes of `v`, least significant first (R60). -/
def leBytes {w : Nat} (n : Nat) (v : BitVec w) : List Byte :=
  (List.range n).map (fun k => v.extractLsb' (8 * k) 8)

/-- The number whose bits 8k+7:8k are byte `k` of the list (R60). -/
def leNat : List Byte → Nat
  | [] => 0
  | b :: bs => b.toNat + 256 * leNat bs

/-- The value of `n` bytes, the first the least significant (R60). -/
def leValue (n : Nat) (bs : List Byte) : BitVec (8 * n) := BitVec.ofNat (8 * n) (leNat bs)

/-! ## Memory -/

/-- The byte at a physical address. -/
def Memory.read (m : Memory) (a : Nat) : Byte :=
  match m with
  | [] => unlistedByte
  | (k, v) :: m => if k = a then v else Memory.read m a

/-- Store one byte; the canonical form is kept (a byte equal to what an unlisted address reads as is not
listed). -/
def Memory.write (m : Memory) (a : Nat) (b : Byte) : Memory :=
  match m with
  | [] => if b = unlistedByte then [] else [(a, b)]
  | (k, v) :: m =>
    if k < a then (k, v) :: Memory.write m a b
    else if k = a then (if b = unlistedByte then m else (a, b) :: m)
    else if b = unlistedByte then (k, v) :: m
    else (a, b) :: (k, v) :: m

/-- Store bytes at a list of physical addresses, first to last. -/
def Memory.writeAll (m : Memory) : List Nat → List Byte → Memory
  | a :: as, b :: bs => Memory.writeAll (m.write a b) as bs
  | _, _ => m

/-- `MemRead` once the addresses are known (R75). -/
def loadLE (n : Nat) (m : Memory) (as : List Nat) : BitVec (8 * n) := leValue n (as.map m.read)

/-- `MemWrite` once the addresses are known (R76). -/
def storeLE {w : Nat} (n : Nat) (as : List Nat) (v : BitVec w) (s : State) : State :=
  { s with mem := s.mem.writeAll as (leBytes n v) }

/-! ## From an effective address to a linear address: R65 to R71 -/

/-- The two classes of instruction whose checks differ: AND, and the three XMM instructions (C9). -/
inductive AccessClass where
  | and
  | xmm
  deriving DecidableEq, Repr

/-- The kinds of data access (R62). -/
inductive AccessKind where
  | read
  | rmw
  deriving DecidableEq, Repr

def segDesc (f : SegFile) : Seg → SegDesc
  | .es => f.es
  | .cs => f.cs
  | .ss => f.ss
  | .ds => f.ds
  | .fs => f.fs
  | .gs => f.gs

/-- #SS for the stack segment, #GP for the others. -/
def segFault (seg : Seg) (code : Option (BitVec 32)) : Word64 → Fault :=
  if seg = .ss then .ss code else .gp code

/-- The segments whose NULL selector is an exception: DS, ES, FS, GS (R66). -/
def nullChecked : Seg → Bool
  | .ds => true
  | .es => true
  | .fs => true
  | .gs => true
  | .cs => false
  | .ss => false

/-- `InLimit` of R66, the sum in the integers. -/
def inLimit (d : SegDesc) (ea : Word64) (n : Nat) : Bool :=
  decide (ea.toNat + n - 1 ≤ d.limit.toNat)

/-- The linear address outside 64-bit mode: modulo 2^32 (R66, R67). -/
def linear32 (d : SegDesc) (ea : Word64) : Word64 := lowBits 32 (d.base + ea)

/-- The limit test of R66 to R68: expand-down segments are refused (D11; a step refuses such a configuration
before it comes here: log entry 14), an operand outside the limit raises #SS or #GP with `code`. -/
def limitLinear (seg : Seg) (code : Option (BitVec 32)) (ea : Word64) (n : Nat) (s : State) : Result Word64 :=
  let d := segDesc s.sys.segs seg
  if d.expandDown then .refused .expandDownSegment
  else if inLimit d ea n then .next (linear32 d ea)
  else raise (segFault seg code) s

/-- Protected and compatibility mode: R66 for AND, R70 for the XMM instructions. They differ for a
segment SS that is not readable. -/
def protectedLinear (cls : AccessClass) (seg : Seg) (ea : Word64) (n : Nat) (kind : AccessKind) (s : State) :
    Result Word64 :=
  let d := segDesc s.sys.segs seg
  if nullChecked seg && d.null then raise (.gp code0) s
  else if kind = .rmw ∧ d.writable = false then raise (.gp code0) s
  else if d.readable = false then
    match cls with
    | .and => raise (.gp code0) s
    | .xmm => raise (segFault seg code0) s
  else limitLinear seg code0 ea n s

/-- Real-address and virtual-8086 mode: R67 and R68. For AND the limit test with `code`; for the XMM
instructions #GP without a code when the operand leaves the offsets 0 to FFFFH, whatever the segment. -/
def realLinear (cls : AccessClass) (code : Option (BitVec 32)) (seg : Seg) (ea : Word64) (n : Nat) (s : State) :
    Result Word64 :=
  match cls with
  | .and => limitLinear seg code ea n s
  | .xmm =>
    if ea.toNat + n - 1 > 0xFFFF then raise (.gp none) s
    else .next (linear32 (segDesc s.sys.segs seg) ea)

/-- The base in 64-bit mode: FS and GS keep theirs, the others are 0 (R69). -/
def base64 (f : SegFile) (seg : Seg) : Word64 :=
  match seg with
  | .fs => f.fs.base
  | .gs => f.gs.base
  | _ => 0

/-- `LA_BITS` as a number. -/
def laWidth : LaBits → Nat
  | .la48 => 48
  | .la57 => 57

/-- Bits 63 down to `LA_BITS - 1` of the address are all equal (R69). -/
def canonical (la : LaBits) (a : Word64) : Bool :=
  let top := a.toNat / 2 ^ (laWidth la - 1)
  top == 0 || top == 2 ^ (65 - laWidth la) - 1

/-- The width of a linear address: 64 in 64-bit mode, 32 elsewhere (R61). -/
def linWidth : Mode → Nat
  | .long64 => 64
  | _ => 32

/-- The operand runs past the top of the linear address space (D25). -/
def pastTop (mode : Mode) (lin : Word64) (n : Nat) : Bool := decide (lin.toNat + n > 2 ^ linWidth mode)

/-- 64-bit mode: R69. -/
def long64Linear (seg : Seg) (ea : Word64) (n : Nat) (s : State) : Result Word64 :=
  let lin := base64 s.sys.segs seg + ea
  if pastTop .long64 lin n then .refused .operandPastTop
  else if (List.range n).all (fun k => canonical s.sys.laBits (lin + BitVec.ofNat 64 k)) then .next lin
  else raise (segFault seg code0) s

/-- Stage (1) of R65: the segment-level or canonical checks of the mode. -/
def segLinear (cls : AccessClass) (seg : Seg) (ea : Word64) (n : Nat) (kind : AccessKind) (s : State) :
    Result Word64 :=
  match s.sys.mode with
  | .prot => protectedLinear cls seg ea n kind s
  | .compat => protectedLinear cls seg ea n kind s
  | .real => realLinear cls none seg ea n s
  | .v86 => realLinear cls code0 seg ea n s
  | .long64 => long64Linear seg ea n s

/-- The code of the alignment #GP as the source writes it (R71). -/
def alignCode : Mode → Option (BitVec 32)
  | .real => none
  | .v86 => none
  | .prot => code0
  | .compat => code0
  | .long64 => code0

/-- `Lin` of R65: stage (1), then for the XMM instructions the 16-byte alignment of the linear address
(R71). -/
def linear (cls : AccessClass) (seg : Seg) (ea : Word64) (n : Nat) (kind : AccessKind) (s : State) :
    Result Word64 :=
  andThen (segLinear cls seg ea n kind s) fun lin =>
    if cls = .xmm ∧ lin.toNat % 16 ≠ 0 then raise (.gp (alignCode s.sys.mode)) s else .next lin

/-! ## From a linear address to physical addresses: R72 to R76 -/

/-- What `TRANSLATE` answers for one byte. -/
inductive Translation where
  | phys (a : Nat)
  | pageFault (code : BitVec 32) (recorded : Word64)
  deriving DecidableEq, Repr

/-- The answer of one region to a byte at offset `i` of it. -/
def pageAnswer (e : PageEffect) (i : Nat) : Translation :=
  match e with
  | .map b => .phys (b + BitVec.ofNat 64 i).toNat
  | .fault c r => .pageFault c (r + BitVec.ofNat 64 i)

def pageEffect (r : PageRegion) : AccessKind → PageEffect
  | .read => r.onRead
  | .rmw => r.onWrite

/-- `TRANSLATE` of R72: a read-modify-write is translated as a write. Real-address mode has no paging. -/
def translate (c : SysConfig) (lin : Word64) (kind : AccessKind) : Translation :=
  match c.mode, c.pages.find? (fun r => decide (r.lo ≤ lin.toNat ∧ lin.toNat < r.lo + r.size)) with
  | .real, _ => .phys lin.toNat
  | _, none => .phys lin.toNat
  | _, some r => pageAnswer (pageEffect r kind) (lin.toNat - r.lo)

/-- The physical addresses of `n` bytes from `lin` on, lowest first; the first byte that does not
translate raises #PF (R72, R208). -/
def translateAll (kind : AccessKind) (s : State) : Word64 → Nat → Result (List Nat)
  | _, 0 => .next []
  | lin, n + 1 =>
    match translate s.sys lin kind with
    | .pageFault c r => raise (.pf c r) s
    | .phys a => andThen (translateAll kind s (lin + 1#64) n) fun as => .next (a :: as)

/-- The condition of #AC (R73): AND only, never in real-address mode; privilege level 3, or virtual-8086
mode; an operand of 2, 4 or 8 bytes at an address that is no multiple of its size. -/
def alignmentCheck (cls : AccessClass) (lin : Word64) (n : Nat) (c : SysConfig) : Bool :=
  cls == .and && c.acEnabled && c.mode != .real && (c.cpl == 3 || c.mode == .v86) &&
    (n == 2 || n == 4 || n == 8) && lin.toNat % n != 0

/-- A physical address that holds no memory (D10). -/
def inHole (c : SysConfig) (a : Nat) : Bool := c.holes.any fun h => decide (h.lo ≤ a ∧ a < h.lo + h.size)

/-- The physical addresses of an `n`-byte data access, lowest byte first, after every check of R65 in the
order of R208; nothing is read or written before (R76). -/
def access (cls : AccessClass) (seg : Seg) (ea : Word64) (n : Nat) (kind : AccessKind) (s : State) :
    Result (List Nat) :=
  andThen (linear cls seg ea n kind s) fun lin =>
    if pastTop s.sys.mode lin n then .refused .operandPastTop
    else andThen (translateAll kind s lin n) fun as =>
      if alignmentCheck cls lin n s.sys then raise (.ac code0) s
      else match as.find? (inHole s.sys) with
        | some a => .refused (.noMemory a)
        | none => .next as

/-! ## The instruction pointer and the program text -/

/-- The significant bits of `pc` (R26). -/
def pcWidth (c : SysConfig) : Nat :=
  match c.mode, c.csD with
  | .long64, _ => 64
  | _, .d16 => 16
  | _, .d32 => 32

/-- `pc <- pc + L`, modulo 2^width (R26). -/
def advance (len : Nat) (s : State) : State :=
  { s with pc := lowBits (pcWidth s.sys) (s.pc + BitVec.ofNat 64 len) }

/-- The physical address of the byte at offset `off` of the code segment, where instruction bytes are
reached like data reads with `seg` = CS and kind `read` (30_encoding.md R105); none where that
would raise. -/
def codeAddr (s : State) (off : Word64) : Option Nat :=
  match access .and .cs off 1 .read s with
  | .next [a] => some a
  | _ => none

/-- The physical addresses of the text's bytes that are in admitted memory. -/
def textAddrs (s : State) : List Nat :=
  (List.range s.text.length).filterMap fun k => codeAddr s (s.text.start + BitVec.ofNat 64 k)

/-- A store to these physical addresses overlaps the program text (R82). -/
def overlapsText (s : State) (as : List Nat) : Bool := as.any fun a => (textAddrs s).contains a

/-- The bytes of `n` offsets of the code segment from `off` on, none where one is not admitted. -/
def codeBytes (s : State) (off : Word64) : Nat → Option (List Byte)
  | 0 => some []
  | n + 1 =>
    match codeAddr s off, codeBytes s (off + 1#64) n with
    | some a, some bs => some (s.mem.read a :: bs)
    | _, _ => none

/-- The most bytes a fetch looks at: one more than an instruction may have (R114). -/
def fetchWindow : Nat := 16

/-- Some segment of the configuration is expand-down (20_memory.md R66, D11). -/
def hasExpandDown (f : SegFile) : Bool :=
  [f.es, f.cs, f.ss, f.ds, f.fs, f.gs].any (·.expandDown)

/-- The bytes from `pc` to the end of the text, at most 16 of them. A configuration with an expand-down segment
is refused (R66, D11). Outside the text the model never fetches (R253); a text that crosses the top of `pc`'s
offsets is refused (R26), and so is, by DESIGN CHOICE, one that fills them all, whose end would be its own
first byte (log entry 19). -/
def fetch (s : State) : Result (List Byte) :=
  let top := 2 ^ pcWidth s.sys
  let lo := s.text.start.toNat
  let hi := lo + s.text.length
  if hasExpandDown s.sys.segs then .refused .expandDownSegment
  else if hi > top ∨ s.text.length ≥ top then .refused .textCrossesTop
  else if lo ≤ s.pc.toNat ∧ s.pc.toNat < hi then
    match codeBytes s s.pc (min fetchWindow (hi - s.pc.toNat)) with
    | some bs => .next bs
    | none => .refused .textNotAdmitted
  else if s.pc.toNat = hi % top then .refused .endOfText
  else .refused .pcOutsideText

/-- The instruction at `pc` (R105), or the refusal of R130. -/
def fetchInstr (s : State) : Result Instr :=
  andThen (fetch s) fun bs =>
    match decode s.sys.ctx bs with
    | .ok (i, _) => .next i
    | .error e => .refused (.undecodable e)

/-- The state with `bs` as its program text, in memory at `pc` in the code segment (R241). -/
def placeText (s : State) (bs : List Byte) : State :=
  let put := fun (m : Memory) (kb : Nat × Byte) =>
    match codeAddr s (s.pc + BitVec.ofNat 64 kb.1) with
    | some a => m.write a kb.2
    | none => m
  { s with
    mem := ((List.range bs.length).zip bs).foldl put s.mem
    text := { start := s.pc, length := bs.length } }

end Sys2Proof.Machine
end

