-- ==== Sys2Proof/Machine/Operands.lean ====
section
/-! DEFINITION. Operands: register codes and views (30_encoding.md R102, 10_state.md R22 to R25), XMM
registers (R31), effective addresses and segments of memory operands (30_encoding.md R106 to R112). -/

namespace Sys2Proof.Machine

/-! ## Register codes -/

/-- `hi ++ lo`: a three-bit field extended by a REX bit (R102). -/
def regCode (hi : Bool) (lo : BitVec 3) : RegCode :=
  ⟨8 * hi.toNat + lo.toNat, by have := lo.isLt; cases hi <;> simp <;> omega⟩

def Prefixes.rexR (p : Prefixes) : Bool := p.rex.any (·.r)
def Prefixes.rexX (p : Prefixes) : Bool := p.rex.any (·.x)
def Prefixes.rexB (p : Prefixes) : Bool := p.rex.any (·.b)

/-- The register that ModRM:reg names (R102). -/
def regField (p : Prefixes) (reg : BitVec 3) : RegCode := regCode (Prefixes.rexR p) reg

/-- The register that ModRM:r/m, or a base field, names (R102). -/
def baseField (p : Prefixes) (rm : BitVec 3) : RegCode := regCode (Prefixes.rexB p) rm

/-- The register that SIB index names (R107). -/
def indexField (p : Prefixes) (index : BitVec 3) : RegCode := regCode (Prefixes.rexX p) index

/-- The accumulator is register 0 (R21). -/
def accumulator : RegCode := 0

/-! ## General-register views -/

/-- Operand sizes of AND (R96, R97). -/
inductive OpSize where
  | b8
  | b16
  | b32
  | b64
  deriving DecidableEq, Repr

abbrev OpSize.bytes : OpSize → Nat
  | .b8 => 1
  | .b16 => 2
  | .b32 => 4
  | .b64 => 8

/-- `w` of R150. -/
abbrev OpSize.bits (z : OpSize) : Nat := 8 * z.bytes

/-- A register code 4..7 without REX names AH, CH, DH or BH (R25). -/
def isHighByte (rex : Bool) (c : RegCode) : Bool := !rex && decide (4 ≤ c.val ∧ c.val ≤ 7)

/-- The register that holds the byte register of code `c`. -/
def byteHome (rex : Bool) (c : RegCode) : RegCode := if isHighByte rex c then c - 4 else c

/-- `Reg8(c, rex)` (R25). -/
def reg8 (rex : Bool) (c : RegCode) (s : State) : BitVec 8 :=
  let v := s.x[(byteHome rex c).val]
  if isHighByte rex c then v.extractLsb' 8 8 else v.extractLsb' 0 8

/-- A 64-bit word with one byte replaced (R25). -/
def withByte (high : Bool) (v : Word64) (b : BitVec 8) : Word64 :=
  if high then v.extractLsb' 16 48 ++ b ++ v.extractLsb' 0 8 else v.extractLsb' 8 56 ++ b

/-- A 32-bit write: in 64-bit mode bits 63:32 become 0 (R23); elsewhere they are never read and are left
(log entry 7). -/
def withLow32 (mode : Mode) (v : Word64) (r : BitVec 32) : Word64 :=
  if mode = .long64 then r.zeroExtend 64 else v.extractLsb' 32 32 ++ r

def setX (c : RegCode) (v : Word64) (s : State) : State := { s with x := s.x.set c.val v }

/-- `Rw(code)` of R150: the register at the operand size (R22 to R25). -/
def readReg (z : OpSize) (rex : Bool) (c : RegCode) (s : State) : BitVec z.bits :=
  match z with
  | .b8 => reg8 rex c s
  | .b16 => s.x[c.val].extractLsb' 0 16
  | .b32 => s.x[c.val].extractLsb' 0 32
  | .b64 => s.x[c.val]

/-- `Rw(code) <- v` of R150 (R22 to R25). -/
def writeReg (z : OpSize) (rex : Bool) (c : RegCode) (v : BitVec z.bits) (s : State) : State :=
  match z with
  | .b8 => setX (byteHome rex c) (withByte (isHighByte rex c) s.x[(byteHome rex c).val] v) s
  | .b16 => setX c (s.x[c.val].extractLsb' 16 48 ++ (show BitVec 16 from v)) s
  | .b32 => setX c (withLow32 s.sys.mode s.x[c.val] v) s
  | .b64 => setX c v s

/-! ## XMM registers -/

def readXmm (c : RegCode) (s : State) : XWord := s.xmm[c.val]

/-- Bits 255:128 above the register are not touched (R33). -/
def writeXmm (c : RegCode) (v : XWord) (s : State) : State := { s with xmm := s.xmm.set c.val v }

/-! ## Effective addresses -/

/-- The address size of a memory form, in bits (R98): 16 for the 16-bit forms, else 64 in 64-bit mode
without 67 and 32. -/
def addrWidth (mode : Mode) (p67 : Bool) : MemOp → Nat
  | .mem16 .. => 16
  | .direct16 .. => 16
  | .base .. => if mode = .long64 ∧ p67 = false then 64 else 32
  | .disp32 .. => if mode = .long64 ∧ p67 = false then 64 else 32
  | .sib .. => if mode = .long64 ∧ p67 = false then 64 else 32
  | .sibNoBase .. => if mode = .long64 ∧ p67 = false then 64 else 32

/-- A general register read at the address size (R106). -/
def addrReg (a : Nat) (c : RegCode) (s : State) : Word64 := lowBits a s.x[c.val]

/-- A displacement, sign-extended (R112; the sum is reduced to the address size afterwards). -/
def dispValue {w : Nat} : Disp w → Word64
  | .none => 0
  | .d8 d => d.signExtend 64
  | .full d => d.signExtend 64

/-- The registers of 16-bit addressing by `rm`: BX 3, BP 5, SI 6, DI 7 (R109). -/
def regs16 (rm : BitVec 3) : List RegCode :=
  match rm.toNat with
  | 0 => [3, 6]
  | 1 => [3, 7]
  | 2 => [5, 6]
  | 3 => [5, 7]
  | 4 => [6]
  | 5 => [7]
  | 6 => [5]
  | _ => [3]

/-- `I` of R107: the scaled index, 0 when the index code is 0100B. -/
def scaledIndex (a : Nat) (p : Prefixes) (scale : BitVec 2) (index : BitVec 3) (s : State) : Word64 :=
  if indexField p index = 4 then 0 else addrReg a (indexField p index) s <<< scale.toNat

/-- The sum of R106, R107 and R109 before it is reduced. `len` is the instruction's length `L` (R108). -/
def addrSum (a : Nat) (p : Prefixes) (len : Nat) (s : State) : MemOp → Word64
  | .mem16 rm d => ((regs16 rm).map fun c => addrReg a c s).sum + dispValue d
  | .direct16 d => d.signExtend 64
  | .base rm d => addrReg a (baseField p rm) s + dispValue d
  | .disp32 d =>
    if s.sys.mode = .long64 then s.pc + BitVec.ofNat 64 len + d.signExtend 64 else d.signExtend 64
  | .sib sc ix b d => addrReg a (baseField p b) s + scaledIndex a p sc ix s + dispValue d
  | .sibNoBase sc ix d => scaledIndex a p sc ix s + d.signExtend 64

/-- The effective address: the sum modulo 2^A, zero-extended (R110). -/
def effectiveAddr (p : Prefixes) (len : Nat) (m : MemOp) (s : State) : Word64 :=
  let a := addrWidth s.sys.mode p.p67 m
  lowBits a (addrSum a p len s m)

/-- R111: SS when the base is register 4 or 5 at 32/64-bit addressing, or BP at 16-bit addressing. -/
def defaultSeg (p : Prefixes) : MemOp → Seg
  | .mem16 rm _ => if rm = 2 ∨ rm = 3 ∨ rm = 6 then .ss else .ds
  | .direct16 _ => .ds
  | .base rm _ => if baseField p rm = 4 ∨ baseField p rm = 5 then .ss else .ds
  | .disp32 _ => .ds
  | .sib _ _ b _ => if baseField p b = 4 ∨ baseField p b = 5 then .ss else .ds
  | .sibNoBase .. => .ds

/-- The segment of a memory operand: the override, else the default (R99). -/
def operandSeg (p : Prefixes) (m : MemOp) : Seg := p.seg.getD (defaultSeg p m)

/-- The checked physical addresses of a memory operand of `n` bytes (R65). -/
def operandAccess (cls : AccessClass) (p : Prefixes) (len : Nat) (m : MemOp) (n : Nat) (kind : AccessKind)
    (s : State) : Result (List Nat) :=
  access cls (operandSeg p m) (effectiveAddr p len m s) n kind s

/-- The source operand of AND's register-destination rows: a register, or memory read (R172 to R176). -/
def readRm (z : OpSize) (p : Prefixes) (len : Nat) (rm : Rm) (s : State) : Result (BitVec z.bits) :=
  match rm with
  | .reg r => .next (readReg z p.rex.isSome (baseField p r) s)
  | .mem m => andThen (operandAccess .and p len m z.bytes .read s) fun as => .next (loadLE z.bytes s.mem as)

/-- The source operand of the XMM instructions: a register, or 16 bytes of memory (R141, R190, R195). -/
def readXmmRm (p : Prefixes) (len : Nat) (rm : Rm) (s : State) : Result XWord :=
  match rm with
  | .reg r => .next (readXmm (baseField p r) s)
  | .mem m => andThen (operandAccess .xmm p len m 16 .read s) fun as => .next (loadLE 16 s.mem as)

end Sys2Proof.Machine
end

