-- ==== Sys2Proof/Machine/Packed.lean ====
section
/-! DEFINITION. What the three XMM instructions share, and ANDPD and ANDPS (42_andpd.md R190 to R194,
43_andps.md R195 to R199). -/

namespace Sys2Proof.Machine

/-- The checks made first by every XMM instruction (R145, R192, R197; order R208): #UD with LOCK, with
CR0.EM = 1, with CR4.OSFXSR = 0 or without the feature bit, then #NM with CR0.TS = 1. -/
def xmmChecks (feature : Bool) (p : Prefixes) (s : State) : Result Unit :=
  if p.lock || s.sys.cr0EM || !s.sys.cr4OSFXSR || !feature then raise .ud s
  else if s.sys.cr0TS then raise .nm s
  else .next ()

/-- The shape of the XMM instructions: checks, source, then `xmm[regcode] <- f xmm[regcode] SRC`. No flag
and no bit 255:128 is written (R28, R33). -/
def xmmInto (feature : Bool) (f : XWord → XWord → XWord) (p : Prefixes) (len : Nat) (reg : BitVec 3) (rm : Rm)
    (s : State) : Result State :=
  andThen (xmmChecks feature p s) fun _ =>
    andThen (readXmmRm p len rm s) fun src =>
      .next (advance len (writeXmm (regField p reg) (f (readXmm (regField p reg) s) src) s))

/-- ANDPD xmm1, xmm2/m128 (R190): all 128 bits, gated by SSE2 (R192). -/
def execAndpd (p : Prefixes) (reg : BitVec 3) (rm : Rm) (s : State) : Result State :=
  xmmInto s.sys.cpuidSSE2 (fun dest src => dest &&& src) p (instrLength (.andpd p reg rm)) reg rm s

/-- ANDPS xmm1, xmm2/m128 (R195): the same function, gated by SSE (R197). -/
def execAndps (p : Prefixes) (reg : BitVec 3) (rm : Rm) (s : State) : Result State :=
  xmmInto s.sys.cpuidSSE (fun dest src => dest &&& src) p (instrLength (.andps p reg rm)) reg rm s

end Sys2Proof.Machine
end

