-- ==== Sys2Proof/Machine/Flags.lean ====
section
/-! DEFINITION. RFLAGS as a register, and the flag rule of AND (10_state.md R27, 41_and.md R151). -/

namespace Sys2Proof.Machine

/-- The positions of the six status flags and of reserved bit 1: 0, 1, 2, 4, 6, 7, 11 (R27). -/
def namedFlagBits : Word64 := 0x8D7

/-- Bit `i` holding `b`. -/
def flagBit (i : Nat) (b : Bool) : Word64 := if b then 1#64 <<< i else 0

/-- RFLAGS as one 64-bit word: the flags at R27's positions, bit 1 reading as 1. -/
def RFlags.word (f : RFlags) : Word64 :=
  (f.other &&& ~~~namedFlagBits) ||| 2#64 ||| flagBit 0 f.cf ||| flagBit 2 f.pf ||| flagBit 4 f.af |||
    flagBit 6 f.zf ||| flagBit 7 f.sf ||| flagBit 11 f.of

/-- How many of the eight bits are 1. -/
def ones (b : Byte) : Nat := (List.range 8).countP fun i => b.getLsbD i

/-- PF: an even number of 1 bits in `res[7:0]`, whatever the width (R151). -/
def parityFlag {w : Nat} (res : BitVec w) : Bool := ones (res.extractLsb' 0 8) % 2 == 0

/-- `SetFlags(w, res)` of R151 with `af` the drawn AF. -/
def andFlags {w : Nat} (res : BitVec w) (af : Bool) (f : RFlags) : RFlags :=
  { f with cf := false, of := false, sf := res.msb, zf := res == 0, pf := parityFlag res, af := af }

/-- The flags written, AF drawn afresh (D12, U1). -/
def setAndFlags {w : Nat} (res : BitVec w) (s : State) : State :=
  { s with flags := andFlags res (Config.freeAF s.draws == 1) s.flags, draws := s.draws + 1 }

end Sys2Proof.Machine
end

