-- ==== Sys2Proof/Machine/And.lean ====
section
/-! DEFINITION. AND: the two destination shapes of 41_and.md R150, and the 22 rows R155 to R176. -/

namespace Sys2Proof.Machine

/-- `AND_to_rm(w, src)` of R150: the destination is the ModRM r/m operand. LOCK is legal with a memory
destination only (R152); there the read and the write are one event (20_memory.md R78), which one agent
cannot tell from two (log entry 12). A store into the program text is refused (R82). -/
def andToRm (z : OpSize) (p : Prefixes) (len : Nat) (rm : Rm) (src : BitVec z.bits) (s : State) : Result State :=
  match rm with
  | .reg r =>
    if p.lock then raise .ud s
    else
      let rex := p.rex.isSome
      let c := baseField p r
      let res := readReg z rex c s &&& src
      .next (advance len (setAndFlags res (writeReg z rex c res s)))
  | .mem m =>
    andThen (operandAccess .and p len m z.bytes .rmw s) fun as =>
      if overlapsText s as then .refused .storeIntoText
      else
        let res : BitVec z.bits := loadLE z.bytes s.mem as &&& src
        .next (advance len (setAndFlags res (storeLE z.bytes as res s)))

/-- `AND_to_reg(w, code, src)` of R150, the LOCK test and the source left to the caller. -/
def andIntoReg (z : OpSize) (rex : Bool) (len : Nat) (c : RegCode) (src : BitVec z.bits) (s : State) : State :=
  let res := readReg z rex c s &&& src
  advance len (setAndFlags res (writeReg z rex c res s))

/-- The accumulator rows (R155 to R158): register 0 and an immediate. LOCK raises #UD (R152). -/
def andAccImm (z : OpSize) (p : Prefixes) (len : Nat) (src : BitVec z.bits) (s : State) : Result State :=
  if p.lock then raise .ud s else .next (andIntoReg z p.rex.isSome len accumulator src s)

/-- The rows `20`, `21` (R167 to R171): the source is ModRM:reg. -/
def andRmReg (z : OpSize) (p : Prefixes) (len : Nat) (rm : Rm) (reg : BitVec 3) (s : State) : Result State :=
  andToRm z p len rm (readReg z p.rex.isSome (regField p reg) s) s

/-- The rows `22`, `23` (R172 to R176): the destination is ModRM:reg. LOCK raises #UD before the source is
read, even when the source is memory (R152). -/
def andRegRm (z : OpSize) (p : Prefixes) (len : Nat) (reg : BitVec 3) (rm : Rm) (s : State) : Result State :=
  if p.lock then raise .ud s
  else
    andThen (readRm z p len rm s) fun src =>
      .next (andIntoReg z p.rex.isSome len (regField p reg) src s)

/-! ## Immediate to accumulator -/

/-- AND AL, imm8 (R155). -/
def execAndAlImm8 (p : Prefixes) (imm : BitVec 8) (s : State) : Result State :=
  andAccImm .b8 p (instrLength (.andAlImm8 p imm)) imm s

/-- AND AX, imm16 (R156). -/
def execAndAxImm16 (p : Prefixes) (imm : BitVec 16) (s : State) : Result State :=
  andAccImm .b16 p (instrLength (.andAxImm16 p imm)) imm s

/-- AND EAX, imm32 (R157). -/
def execAndEaxImm32 (p : Prefixes) (imm : BitVec 32) (s : State) : Result State :=
  andAccImm .b32 p (instrLength (.andEaxImm32 p imm)) imm s

/-- AND RAX, imm32 sign-extended to 64 bits (R158). -/
def execAndRaxImm32 (p : Prefixes) (imm : BitVec 32) (s : State) : Result State :=
  andAccImm .b64 p (instrLength (.andRaxImm32 p imm)) (imm.signExtend 64) s

/-! ## Immediate to r/m -/

/-- AND r/m8, imm8 without REX (R159). -/
def execAndRm8Imm8 (p : Prefixes) (rm : Rm) (imm : BitVec 8) (s : State) : Result State :=
  andToRm .b8 p (instrLength (.andRm8Imm8 p rm imm)) rm imm s

/-- AND r/m8, imm8 with REX (R160). -/
def execAndRm8Imm8Rex (p : Prefixes) (rm : Rm) (imm : BitVec 8) (s : State) : Result State :=
  andToRm .b8 p (instrLength (.andRm8Imm8Rex p rm imm)) rm imm s

/-- AND r/m16, imm16 (R161). -/
def execAndRm16Imm16 (p : Prefixes) (rm : Rm) (imm : BitVec 16) (s : State) : Result State :=
  andToRm .b16 p (instrLength (.andRm16Imm16 p rm imm)) rm imm s

/-- AND r/m32, imm32 (R162). -/
def execAndRm32Imm32 (p : Prefixes) (rm : Rm) (imm : BitVec 32) (s : State) : Result State :=
  andToRm .b32 p (instrLength (.andRm32Imm32 p rm imm)) rm imm s

/-- AND r/m64, imm32 sign-extended to 64 bits (R163). -/
def execAndRm64Imm32 (p : Prefixes) (rm : Rm) (imm : BitVec 32) (s : State) : Result State :=
  andToRm .b64 p (instrLength (.andRm64Imm32 p rm imm)) rm (imm.signExtend 64) s

/-- AND r/m16, imm8 sign-extended (R164). -/
def execAndRm16Imm8 (p : Prefixes) (rm : Rm) (imm : BitVec 8) (s : State) : Result State :=
  andToRm .b16 p (instrLength (.andRm16Imm8 p rm imm)) rm (imm.signExtend 16) s

/-- AND r/m32, imm8 sign-extended (R165). -/
def execAndRm32Imm8 (p : Prefixes) (rm : Rm) (imm : BitVec 8) (s : State) : Result State :=
  andToRm .b32 p (instrLength (.andRm32Imm8 p rm imm)) rm (imm.signExtend 32) s

/-- AND r/m64, imm8 sign-extended (R166). -/
def execAndRm64Imm8 (p : Prefixes) (rm : Rm) (imm : BitVec 8) (s : State) : Result State :=
  andToRm .b64 p (instrLength (.andRm64Imm8 p rm imm)) rm (imm.signExtend 64) s

/-! ## Register to r/m -/

/-- AND r/m8, r8 without REX (R167). -/
def execAndRm8R8 (p : Prefixes) (rm : Rm) (reg : BitVec 3) (s : State) : Result State :=
  andRmReg .b8 p (instrLength (.andRm8R8 p rm reg)) rm reg s

/-- AND r/m8, r8 with REX (R168). -/
def execAndRm8R8Rex (p : Prefixes) (rm : Rm) (reg : BitVec 3) (s : State) : Result State :=
  andRmReg .b8 p (instrLength (.andRm8R8Rex p rm reg)) rm reg s

/-- AND r/m16, r16 (R169). -/
def execAndRm16R16 (p : Prefixes) (rm : Rm) (reg : BitVec 3) (s : State) : Result State :=
  andRmReg .b16 p (instrLength (.andRm16R16 p rm reg)) rm reg s

/-- AND r/m32, r32 (R170). -/
def execAndRm32R32 (p : Prefixes) (rm : Rm) (reg : BitVec 3) (s : State) : Result State :=
  andRmReg .b32 p (instrLength (.andRm32R32 p rm reg)) rm reg s

/-- AND r/m64, r64 (R171). -/
def execAndRm64R64 (p : Prefixes) (rm : Rm) (reg : BitVec 3) (s : State) : Result State :=
  andRmReg .b64 p (instrLength (.andRm64R64 p rm reg)) rm reg s

/-! ## r/m to register -/

/-- AND r8, r/m8 without REX (R172). -/
def execAndR8Rm8 (p : Prefixes) (reg : BitVec 3) (rm : Rm) (s : State) : Result State :=
  andRegRm .b8 p (instrLength (.andR8Rm8 p reg rm)) reg rm s

/-- AND r8, r/m8 with REX (R173). -/
def execAndR8Rm8Rex (p : Prefixes) (reg : BitVec 3) (rm : Rm) (s : State) : Result State :=
  andRegRm .b8 p (instrLength (.andR8Rm8Rex p reg rm)) reg rm s

/-- AND r16, r/m16 (R174). -/
def execAndR16Rm16 (p : Prefixes) (reg : BitVec 3) (rm : Rm) (s : State) : Result State :=
  andRegRm .b16 p (instrLength (.andR16Rm16 p reg rm)) reg rm s

/-- AND r32, r/m32 (R175). -/
def execAndR32Rm32 (p : Prefixes) (reg : BitVec 3) (rm : Rm) (s : State) : Result State :=
  andRegRm .b32 p (instrLength (.andR32Rm32 p reg rm)) reg rm s

/-- AND r64, r/m64 (R176). -/
def execAndR64Rm64 (p : Prefixes) (reg : BitVec 3) (rm : Rm) (s : State) : Result State :=
  andRegRm .b64 p (instrLength (.andR64Rm64 p reg rm)) reg rm s

end Sys2Proof.Machine
end

