-- ==== Sys2Proof/Machine/Dispatch.lean ====
section
/-! DEFINITION. One arm per row of the opcode table (30_encoding.md R119). -/

namespace Sys2Proof.Machine

def exec (i : Instr) (s : State) : Host.Outcome State Fault Refusal :=
  match i with
  | .aeskeygenassist p reg rm imm => Sys2Proof.Machine.execAeskeygenassist p reg rm imm s
  -- AND, immediate to accumulator
  | .andAlImm8 p imm => Sys2Proof.Machine.execAndAlImm8 p imm s
  | .andAxImm16 p imm => Sys2Proof.Machine.execAndAxImm16 p imm s
  | .andEaxImm32 p imm => Sys2Proof.Machine.execAndEaxImm32 p imm s
  | .andRaxImm32 p imm => Sys2Proof.Machine.execAndRaxImm32 p imm s
  -- AND, immediate to r/m
  | .andRm8Imm8 p rm imm => Sys2Proof.Machine.execAndRm8Imm8 p rm imm s
  | .andRm8Imm8Rex p rm imm => Sys2Proof.Machine.execAndRm8Imm8Rex p rm imm s
  | .andRm16Imm16 p rm imm => Sys2Proof.Machine.execAndRm16Imm16 p rm imm s
  | .andRm32Imm32 p rm imm => Sys2Proof.Machine.execAndRm32Imm32 p rm imm s
  | .andRm64Imm32 p rm imm => Sys2Proof.Machine.execAndRm64Imm32 p rm imm s
  | .andRm16Imm8 p rm imm => Sys2Proof.Machine.execAndRm16Imm8 p rm imm s
  | .andRm32Imm8 p rm imm => Sys2Proof.Machine.execAndRm32Imm8 p rm imm s
  | .andRm64Imm8 p rm imm => Sys2Proof.Machine.execAndRm64Imm8 p rm imm s
  -- AND, register to r/m
  | .andRm8R8 p rm reg => Sys2Proof.Machine.execAndRm8R8 p rm reg s
  | .andRm8R8Rex p rm reg => Sys2Proof.Machine.execAndRm8R8Rex p rm reg s
  | .andRm16R16 p rm reg => Sys2Proof.Machine.execAndRm16R16 p rm reg s
  | .andRm32R32 p rm reg => Sys2Proof.Machine.execAndRm32R32 p rm reg s
  | .andRm64R64 p rm reg => Sys2Proof.Machine.execAndRm64R64 p rm reg s
  -- AND, r/m to register
  | .andR8Rm8 p reg rm => Sys2Proof.Machine.execAndR8Rm8 p reg rm s
  | .andR8Rm8Rex p reg rm => Sys2Proof.Machine.execAndR8Rm8Rex p reg rm s
  | .andR16Rm16 p reg rm => Sys2Proof.Machine.execAndR16Rm16 p reg rm s
  | .andR32Rm32 p reg rm => Sys2Proof.Machine.execAndR32Rm32 p reg rm s
  | .andR64Rm64 p reg rm => Sys2Proof.Machine.execAndR64Rm64 p reg rm s
  -- the packed forms
  | .andpd p reg rm => Sys2Proof.Machine.execAndpd p reg rm s
  | .andps p reg rm => Sys2Proof.Machine.execAndps p reg rm s

end Sys2Proof.Machine
end

