-- ==== Sys2Proof/Machine/Step.lean ====
section
/-! DEFINITION. One step is one instruction (00_scope.md R13): fetch and decode at `pc`, then `exec`. -/

namespace Sys2Proof.Machine

/-- One step. `exec` advances `pc` by the instruction's length itself; the step adds nothing around it. -/
def step (s : State) : Host.Outcome State Fault Refusal :=
  andThen (fetchInstr s) fun i => exec i s

/-- `s` with an opcode-table word's bytes as its program text at `pc` (log entry 8): the launch of
70_reset_and_hazards.md R241 with that one instruction. -/
def State.withFetchWord (s : State) (nbits w : Nat) : State := placeText s (tableBytes nbits w)

end Sys2Proof.Machine
end

