-- ==== Sys2Proof/Safety.lean ====
section
/-! DEFINITION. The terms the statements use: the invariant of every step, the conditions under which a
memory access raises nothing (20_memory.md R65 to R73), and what an AND or an XMM instruction leaves
behind (41_and.md R150, R151; 42 R190), said bit by bit and byte by byte. -/

namespace Sys2Proof.Machine

/-- What every step keeps: memory in canonical form, `pc` within its width (R26), and the RFLAGS bits other
than the named ones held with zeros at the named places (R27). -/
abbrev State.Inv (s : State) : Prop :=
  Memory.wf s.mem ∧ s.pc.toNat < 2 ^ pcWidth s.sys ∧ s.flags.other &&& namedFlagBits = 0

/-! ## When an access raises nothing -/

/-- The linear address of an effective address: `SEG[s].base + ea` modulo 2^32 outside 64-bit mode (R66,
R67), modulo 2^64 in it (R69). -/
def linearOf (seg : Seg) (ea : Word64) (s : State) : Word64 :=
  if s.sys.mode = .long64 then base64 s.sys.segs seg + ea
  else BitVec.ofNat 64 (((segDesc s.sys.segs seg).base.toNat + ea.toNat) % 2 ^ 32)

/-- Bits 63 down to `LA_BITS - 1` are all 0 or all 1 (R69). -/
abbrev CanonicalAddr (la : LaBits) (a : Word64) : Prop :=
  (∀ j < 64, laWidth la - 1 ≤ j → a.getLsbD j = false) ∨ (∀ j < 64, laWidth la - 1 ≤ j → a.getLsbD j = true)

/-- No segment-level or canonical condition of R66 to R70 holds. -/
abbrev SegmentOk (cls : AccessClass) (seg : Seg) (ea : Word64) (n : Nat) (kind : AccessKind) (s : State) : Prop :=
  (s.sys.mode = .prot ∨ s.sys.mode = .compat →
    ¬(nullChecked seg = true ∧ (segDesc s.sys.segs seg).null = true) ∧
    (kind = .rmw → (segDesc s.sys.segs seg).writable = true) ∧
    (segDesc s.sys.segs seg).readable = true ∧ (segDesc s.sys.segs seg).expandDown = false ∧
    ea.toNat + n - 1 ≤ (segDesc s.sys.segs seg).limit.toNat) ∧
  (s.sys.mode = .real ∨ s.sys.mode = .v86 →
    (cls = .and → (segDesc s.sys.segs seg).expandDown = false ∧
      ea.toNat + n - 1 ≤ (segDesc s.sys.segs seg).limit.toNat) ∧
    (cls = .xmm → ea.toNat + n - 1 ≤ 0xFFFF)) ∧
  (s.sys.mode = .long64 → ∀ k < n, CanonicalAddr s.sys.laBits (linearOf seg ea s + BitVec.ofNat 64 k))

/-- An alignment-check exception is due (R73). -/
abbrev AlignmentFault (cls : AccessClass) (lin : Word64) (n : Nat) (s : State) : Prop :=
  cls = .and ∧ s.sys.acEnabled = true ∧ s.sys.mode ≠ .real ∧ (s.sys.cpl = 3 ∨ s.sys.mode = .v86) ∧
    (n = 2 ∨ n = 4 ∨ n = 8) ∧ lin.toNat % n ≠ 0

/-- The access of `n` bytes raises nothing and is not refused, and `as` are the physical addresses of its
bytes, lowest first (R65 to R73, D10, D25). -/
abbrev AccessOk (cls : AccessClass) (seg : Seg) (ea : Word64) (n : Nat) (kind : AccessKind) (s : State)
    (as : List Nat) : Prop :=
  SegmentOk cls seg ea n kind s ∧
  (linearOf seg ea s).toNat + n ≤ 2 ^ linWidth s.sys.mode ∧
  (cls = .xmm → (linearOf seg ea s).toNat % 16 = 0) ∧
  as.length = n ∧
  (∀ k < n, translate s.sys (linearOf seg ea s + BitVec.ofNat 64 k) kind = .phys (as.getD k 0)) ∧
  ¬AlignmentFault cls (linearOf seg ea s) n s ∧
  (∀ a ∈ as, ¬∃ h ∈ s.sys.holes, h.lo ≤ a ∧ a < h.lo + h.size)

/-- A memory operand of instruction `i` that may be accessed, its bytes at `as`. -/
abbrev OperandOk (cls : AccessClass) (p : Prefixes) (i : Instr) (m : MemOp) (n : Nat) (kind : AccessKind)
    (s : State) (as : List Nat) : Prop :=
  AccessOk cls (operandSeg p m) (effectiveAddr p (instrLength i) m s) n kind s as

/-! ## What instructions leave behind -/

/-- `pc <- pc + L` modulo the width of `pc` (R26). -/
def PcAdvanced (i : Instr) (s t : State) : Prop :=
  t.pc.toNat = (s.pc.toNat + instrLength i) % 2 ^ pcWidth s.sys

/-- What no instruction writes (R5, R33, R82). -/
def FixedKept (s t : State) : Prop := t.sys = s.sys ∧ t.text = s.text ∧ t.upper = s.upper

/-- The flags after an AND with the `w`-bit result `res` (R151): AF is the free draw. -/
def AndFlagsFor {w : Nat} (res : BitVec w) (s t : State) : Prop :=
  t.flags.cf = false ∧ t.flags.of = false ∧ t.flags.sf = res.getLsbD (w - 1) ∧
  (t.flags.zf = true ↔ ∀ j < w, res.getLsbD j = false) ∧
  (t.flags.pf = true ↔ ((List.range 8).filter fun j => res.getLsbD j).length % 2 = 0) ∧
  (t.flags.af = true ↔ Config.freeAF s.draws = 1) ∧ t.draws = s.draws + 1 ∧ t.flags.other = s.flags.other

/-- The general register `c` holds `res` in bits `lo .. lo + w - 1`; its other bits are as before, but bits
63:32 are 0 when `clear` (R22 to R25). -/
def RegisterHolds {w : Nat} (c : RegCode) (lo : Nat) (clear : Bool) (res : BitVec w) (s t : State) : Prop :=
  ∀ j : Fin 64, t.x[c.val].getLsbD j.val =
    if lo ≤ j.val ∧ j.val < lo + w then res.getLsbD (j.val - lo)
    else if clear = true ∧ 32 ≤ j.val then false else s.x[c.val].getLsbD j.val

/-- An AND of instruction `i` whose destination is bits `lo .. lo + w - 1` of general register `c`, with
source `src`: the new value, the flags, `pc`, and everything else as before. -/
def AndedRegister {w : Nat} (i : Instr) (c : RegCode) (lo : Nat) (clear : Bool) (src : BitVec w) (s t : State) :
    Prop :=
  let res := s.x[c.val].extractLsb' lo w &&& src
  RegisterHolds c lo clear res s t ∧ AndFlagsFor res s t ∧ PcAdvanced i s t ∧
  (∀ d : RegCode, d ≠ c → t.x[d.val] = s.x[d.val]) ∧ t.xmm = s.xmm ∧
  (∀ a, t.mem.read a = s.mem.read a) ∧ FixedKept s t

/-- The value of the bytes at `as`, byte `k` in bits 8k+7:8k (R60). -/
def BytesAt {n : Nat} (m : Memory) (as : List Nat) (v : BitVec (8 * n)) : Prop :=
  ∀ k < n, v.extractLsb' (8 * k) 8 = m.read (as.getD k 0)

/-- An AND of instruction `i` whose destination is the `n` bytes at `as`, with source `src`: byte `k` holds
the old byte AND byte `k` of `src` (where two bytes of the operand share an address the higher one
counts: log entry 5), every other byte of memory and everything else is as before. -/
def AndedMemory {n : Nat} (i : Instr) (as : List Nat) (src : BitVec (8 * n)) (s t : State) : Prop :=
  (∀ k < n, (∀ k' < n, k < k' → as.getD k' 0 ≠ as.getD k 0) →
    t.mem.read (as.getD k 0) = s.mem.read (as.getD k 0) &&& src.extractLsb' (8 * k) 8) ∧
  (∀ a, a ∉ as → t.mem.read a = s.mem.read a) ∧
  (∀ old : BitVec (8 * n), BytesAt s.mem as old → AndFlagsFor (old &&& src) s t) ∧
  PcAdvanced i s t ∧ t.x = s.x ∧ t.xmm = s.xmm ∧ FixedKept s t

/-- The byte register of code `c`: its register and its lowest bit (R25). -/
def byteLoc (rex : Bool) (c : RegCode) : RegCode × Nat :=
  if rex = false ∧ 4 ≤ c.val ∧ c.val ≤ 7 then (c - 4, 8) else (c, 0)

/-- The byte register's value. -/
def byteReg (rex : Bool) (c : RegCode) (s : State) : BitVec 8 :=
  s.x[(byteLoc rex c).1.val].extractLsb' (byteLoc rex c).2 8

/-- In 64-bit mode a 32-bit write clears bits 63:32 (R23). -/
def clears32 (s : State) : Bool := s.sys.mode == .long64

/-- The XMM instructions may run: R245. -/
abbrev XmmEnabled (feature : Bool) (p : Prefixes) (s : State) : Prop :=
  p.lock = false ∧ s.sys.cr0EM = false ∧ s.sys.cr4OSFXSR = true ∧ feature = true ∧ s.sys.cr0TS = false

/-- Instruction `i` wrote `v` to XMM register `c`: everything else as before, the flags among it (R28). -/
def WroteXmm (i : Instr) (c : RegCode) (v : XWord) (s t : State) : Prop :=
  t.xmm[c.val] = v ∧ (∀ d : RegCode, d ≠ c → t.xmm[d.val] = s.xmm[d.val]) ∧ PcAdvanced i s t ∧
  t.x = s.x ∧ t.flags = s.flags ∧ t.draws = s.draws ∧ (∀ a, t.mem.read a = s.mem.read a) ∧ FixedKept s t

/-- Which exceptions instruction class, mode and fault admit together: the matrix of 60_exceptions.md
R207, with the codes as written. -/
def listedFault (cls : AccessClass) (mode : Mode) : Fault → Bool
  | .ud _ => true
  | .nm _ => cls == .xmm
  | .ss code _ =>
    match cls, mode with
    | .and, .real => code == none
    | .and, _ => code == some 0
    | .xmm, .real => false
    | .xmm, .v86 => false
    | .xmm, _ => code == some 0
  | .gp code _ =>
    match cls, mode with
    | _, .real => code == none
    | .xmm, .v86 => code == none
    | _, _ => code == some 0
  | .pf .. => mode != .real
  | .ac code _ => cls == .and && mode != .real && code == some 0

/-- The `pc` a fault records (R210). -/
def Fault.at : Fault → Word64
  | .ud a => a
  | .nm a => a
  | .ss _ a => a
  | .gp _ a => a
  | .pf _ _ a => a
  | .ac _ a => a

/-- The class of an instruction (C9): the three XMM instructions, or AND. -/
def instrClass : Instr → AccessClass
  | .aeskeygenassist .. => .xmm
  | .andpd .. => .xmm
  | .andps .. => .xmm
  | .andAlImm8 .. => .and
  | .andAxImm16 .. => .and
  | .andEaxImm32 .. => .and
  | .andRaxImm32 .. => .and
  | .andRm8Imm8 .. => .and
  | .andRm8Imm8Rex .. => .and
  | .andRm16Imm16 .. => .and
  | .andRm32Imm32 .. => .and
  | .andRm64Imm32 .. => .and
  | .andRm16Imm8 .. => .and
  | .andRm32Imm8 .. => .and
  | .andRm64Imm8 .. => .and
  | .andRm8R8 .. => .and
  | .andRm8R8Rex .. => .and
  | .andRm16R16 .. => .and
  | .andRm32R32 .. => .and
  | .andRm64R64 .. => .and
  | .andR8Rm8 .. => .and
  | .andR8Rm8Rex .. => .and
  | .andR16Rm16 .. => .and
  | .andR32Rm32 .. => .and
  | .andR64Rm64 .. => .and

/-- The feature bit of an XMM instruction (R2, R29); AND needs none. -/
def featureOf (c : SysConfig) : Instr → Bool
  | .aeskeygenassist .. => c.cpuidAESNI
  | .andpd .. => c.cpuidSSE2
  | .andps .. => c.cpuidSSE
  | _ => true

/-- The r/m operand is a memory destination (R62): the rows where LOCK is legal (R94). -/
def memDest : Instr → Bool
  | .andRm8Imm8 _ (.mem _) _ => true
  | .andRm8Imm8Rex _ (.mem _) _ => true
  | .andRm16Imm16 _ (.mem _) _ => true
  | .andRm32Imm32 _ (.mem _) _ => true
  | .andRm64Imm32 _ (.mem _) _ => true
  | .andRm16Imm8 _ (.mem _) _ => true
  | .andRm32Imm8 _ (.mem _) _ => true
  | .andRm64Imm8 _ (.mem _) _ => true
  | .andRm8R8 _ (.mem _) _ => true
  | .andRm8R8Rex _ (.mem _) _ => true
  | .andRm16R16 _ (.mem _) _ => true
  | .andRm32R32 _ (.mem _) _ => true
  | .andRm64R64 _ (.mem _) _ => true
  | _ => false

/-- The kind of access an instruction makes to a memory operand (R62). -/
def accessKind (i : Instr) : AccessKind := if memDest i then .rmw else .read

/-- How many bytes an instruction's memory operand has (R62). -/
def operandBytes (i : Instr) : Nat := i.rowRule.opsize / 8

/-- The address size of the 32- and 64-bit forms (R98). -/
def wideAddr (p67 : Bool) (s : State) : Nat := if s.sys.mode = .long64 ∧ p67 = false then 64 else 32

/-- A displacement as a number at address size `a` (R112). -/
def dispNat {w : Nat} (a : Nat) : Disp w → Nat
  | .none => 0
  | .d8 d => (d.signExtend a).toNat
  | .full d => (d.signExtend a).toNat

/-- The state at another privilege level. -/
def State.withCpl (c : Fin 4) (s : State) : State := { s with sys := { s.sys with cpl := c } }

/-- The state with other flags. -/
def State.withFlags (f : RFlags) (s : State) : State := { s with flags := f }

/-! ## The field of the S-box (R144) -/

/-- Multiplication by x modulo x^8 + x^4 + x^3 + x + 1. -/
def gfDouble (b : Byte) : Byte := if b.msb then (b <<< 1) ^^^ 0x1B else b <<< 1

/-- Multiplication in GF(2^8), by the bits of `b` from the highest down. -/
def gfMul (a b : Byte) : Byte :=
  (List.range 8).foldr (fun k acc => gfDouble acc ^^^ (if b.getLsbD k then a else 0)) 0

/-- The affine map of R144. -/
def sboxAffine (b : Byte) : Byte :=
  b ^^^ b.rotateLeft 1 ^^^ b.rotateLeft 2 ^^^ b.rotateLeft 3 ^^^ b.rotateLeft 4 ^^^ 0x63

end Sys2Proof.Machine
end

