-- ==== Sys2Proof/Certificates/Slice0/Obligations.lean ====
section
/-! DEFINITION. The statements for the provers, each from the rules of spec/ it names. -/

open Sys2Proof Sys2Proof.Machine

/-! ## Encoding -/

/-- 30_encoding.md R90 to R119: the bytes of a well-formed instruction decode to it, whatever follows. -/
def Obligations.DecodeEncodeAgree : Prop :=
  ∀ (cx : CodeCtx) (i : Instr) (rest : List Byte),
    i.wf cx = true → decode cx (encode i ++ rest) = .ok (i, rest)

/-- R119, R134: what decodes meets its row's conditions. -/
def Obligations.DecodedIsWellFormed : Prop :=
  ∀ (cx : CodeCtx) (bs : List Byte) (i : Instr) (rest : List Byte),
    decode cx bs = .ok (i, rest) → i.wf cx = true

/-- R105 step (6) and R114: the length is the number of bytes consumed, at most 15. -/
def Obligations.DecodedLengthIsConsumed : Prop :=
  ∀ (cx : CodeCtx) (bs : List Byte) (i : Instr) (rest : List Byte),
    decode cx bs = .ok (i, rest) →
      instrLength i ≤ 15 ∧ instrLength i ≤ bs.length ∧ rest = bs.drop (instrLength i)

/-- Some of 95_test_vectors.md's decode vectors: E3, E7, E18, E20, E29, E33 and R115 to R118. -/
def Obligations.SpecimenBytesDecode : Prop :=
  decode ⟨.real, .d16⟩ [0x25, 0x34, 0x12] = .ok (.andAxImm16 noPrefixes 0x1234, []) ∧
  decode ⟨.prot, .d32⟩ [0x80, 0xE4, 0x0F] = .ok (.andRm8Imm8 noPrefixes (.reg 4) 0x0F, []) ∧
  decode ⟨.long64, .d32⟩ [0x4D, 0x21, 0xC8] =
    .ok (.andRm64R64 { noPrefixes with rex := some ⟨true, true, false, true⟩ } (.reg 0) 1, []) ∧
  decode ⟨.long64, .d32⟩ [0x23, 0x04, 0x25, 0x00, 0x10, 0x00, 0x00] =
    .ok (.andR32Rm32 noPrefixes 0 (.mem (.sibNoBase 0 4 0x1000)), []) ∧
  decode ⟨.long64, .d32⟩ [0x66, 0x45, 0x0F, 0x3A, 0xDF, 0x3C, 0x24, 0xFF] =
    .ok (.aeskeygenassist { noPrefixes with p66 := true, rex := some ⟨false, true, false, true⟩ } 7
      (.mem (.sib 0 4 4 .none)) 0xFF, []) ∧
  decode ⟨.long64, .d32⟩ [0x48, 0x23, 0x44, 0x8B, 0xF8] =
    .ok (.andR64Rm64 { noPrefixes with rex := some ⟨true, false, false, false⟩ } 0
      (.mem (.sib 2 1 3 (.d8 0xF8))), []) ∧
  decode ⟨.long64, .d32⟩ [0x66, 0x0F, 0x54, 0x17] =
    .ok (.andpd { noPrefixes with p66 := true } 2 (.mem (.base 7 .none)), []) ∧
  decode ⟨.compat, .d32⟩ [0x0F, 0x54, 0xC1] = .ok (.andps noPrefixes 0 (.reg 1), [])

/-- R126: the "N.E." rows (those whose row demands a REX prefix) decode in 64-bit mode only; outside it a byte
40H..4FH where the opcode is due, after any legacy prefixes, is no prefix, and the bytes are refused. -/
def Obligations.RexRowsOnlyIn64BitMode : Prop :=
  ∀ cx : CodeCtx, cx.mode ≠ .long64 →
    (∀ (bs : List Byte) (i : Instr) (rest : List Byte), decode cx bs = .ok (i, rest) →
      i.prefixes.rex = none ∧ i.rowRule.rex ≠ .present ∧ i.rowRule.rex ≠ .w1) ∧
    ∀ (ps : List Byte) (b : Byte) (bs : List Byte) (r : Instr × List Byte),
      (∀ q ∈ ps, (prefixByte? q).isSome = true) → 0x40 ≤ b.toNat → b.toNat ≤ 0x4F → decode cx (ps ++ b :: bs) ≠ .ok r

/-- R131: the neighbouring encodings are refused, never executed, behind whatever prefix bytes `ps`: opcodes
`82`, `A8`, `A9`, `84`, `85`, the VEX and EVEX bytes `C4`, `C5`, `62`, `0F 54` after F2 or F3, `0F 3A DF`
without 66, and reg fields other than 4 on `80`, `81`, `83`. -/
def Obligations.NeighbouringEncodingsRefused : Prop :=
  ∀ (cx : CodeCtx) (ps bs : List Byte) (r : Instr × List Byte),
    (∀ q ∈ ps, (prefixByte? q).isSome = true ∨ isRexByte q = true) →
    (∀ b ∈ ([0x82, 0xA8, 0xA9, 0x84, 0x85, 0xC4, 0xC5, 0x62] : List Byte), decode cx (ps ++ b :: bs) ≠ .ok r) ∧
    (0xF2 ∈ ps ∨ 0xF3 ∈ ps → decode cx (ps ++ 0x0F :: 0x54 :: bs) ≠ .ok r) ∧
    (0x66 ∉ ps → decode cx (ps ++ 0x0F :: 0x3A :: 0xDF :: bs) ≠ .ok r) ∧
    ∀ b ∈ ([0x80, 0x81, 0x83] : List Byte), ∀ m : Byte, m.extractLsb' 3 3 ≠ 4 →
      decode cx (ps ++ b :: m :: bs) ≠ .ok r

/-- R100: legacy prefixes may stand in any order. -/
def Obligations.LegacyPrefixOrderIrrelevant : Prop :=
  ∀ (cx : CodeCtx) (ps qs bs : List Byte) (r : Instr × List Byte),
    ps.Perm qs → (∀ b ∈ ps, (prefixByte? b).isSome = true) →
      decode cx (ps ++ bs) = .ok r → decode cx (qs ++ bs) = .ok r

/-! ## The step -/

/-- 00_scope.md R13: a step is `exec` of the instruction the fetched bytes decode to; nothing is added. -/
def Obligations.StepRunsTheDecodedInstruction : Prop :=
  ∀ (s : State) (bs : List Byte) (i : Instr) (rest : List Byte),
    fetch s = .next bs → decode s.sys.ctx bs = .ok (i, rest) → step s = exec i s

/-- R13, R105, R241: with the bytes of a well-formed instruction in the text at `pc`, each in admitted
memory, and no segment expand-down (such a configuration is refused: D11, ExpandDownConfigurationRefused), the
step is `exec` of that instruction. Admitted text: D8, log entry 11; a text that fills every offset: log entry 19. -/
def Obligations.StepRunsTheBytesInTheText : Prop :=
  ∀ (s : State) (i : Instr), i.wf s.sys.ctx = true → (∀ g, (segDesc s.sys.segs g).expandDown = false) →
    s.text.start.toNat + s.text.length ≤ 2 ^ pcWidth s.sys → s.text.length < 2 ^ pcWidth s.sys →
    s.text.start.toNat ≤ s.pc.toNat → s.pc.toNat + instrLength i ≤ s.text.start.toNat + s.text.length →
    (∀ k < min 16 (s.text.start.toNat + s.text.length - s.pc.toNat),
      ∃ a, codeAddr s (s.pc + BitVec.ofNat 64 k) = some a ∧
        (k < instrLength i → s.mem.read a = (encode i).getD k 0)) →
    step s = exec i s

/-- 70 R253(a): one past the text's last byte the run has ended. That this is a refusal is the model's
form of it (log entry 8); an expand-down segment or a text that fills every offset is refused under its own name
(D11, log entries 14 and 19). -/
def Obligations.EndOfTextStops : Prop :=
  ∀ s : State, (∀ g, (segDesc s.sys.segs g).expandDown = false) →
    s.text.start.toNat + s.text.length ≤ 2 ^ pcWidth s.sys → s.text.length < 2 ^ pcWidth s.sys →
    s.pc.toNat = (s.text.start.toNat + s.text.length) % 2 ^ pcWidth s.sys → step s = .refused .endOfText

/-- R130: bytes at `pc` that decode to no row are refused, and not #UD. -/
def Obligations.UndecodableBytesRefused : Prop :=
  ∀ (s : State) (bs : List Byte) (e : DecodeError),
    fetch s = .next bs → decode s.sys.ctx bs = .error e → step s = .refused (.undecodable e)

/-! ## The whole machine -/

/-- R26, R27, R36: every step keeps the invariant. -/
def Obligations.StepKeepsTheInvariant : Prop :=
  ∀ s t : State, s.Inv → step s = .next t → t.Inv

/-- The invariant holds at reset (reset values: log entries 2, 4). -/
def Obligations.ResetMeetsTheInvariant : Prop := State.reset.Inv

/-- R5, R33: no step writes the configuration, the text's place, a bit 255:128, or an RFLAGS bit other than
the six. -/
def Obligations.NoStepChangesTheConfiguration : Prop :=
  ∀ s t : State, step s = .next t →
    t.sys = s.sys ∧ t.text = s.text ∧ t.upper = s.upper ∧ t.flags.other = s.flags.other

/-- 20_memory.md R82: no step changes a byte of the program text, or where it lies. -/
def Obligations.ProgramTextIsConstant : Prop :=
  ∀ s t : State, step s = .next t →
    (∀ off, codeAddr t off = codeAddr s off) ∧
    ∀ k < s.text.length, ∀ a, codeAddr s (s.text.start + BitVec.ofNat 64 k) = some a →
      t.mem.read a = s.mem.read a

/-- 60 R207, R210: every instruction raises only what its list has for the mode, with the code as written,
and records the raising instruction's `pc`. -/
def Obligations.EveryFaultIsListed : Prop :=
  ∀ (i : Instr) (s : State) (x : Fault), exec i s = .fault x →
    listedFault (instrClass i) s.sys.mode x = true ∧ x.at = s.pc

/-- 60 R215: apart from #AC an instruction does the same at every privilege level. -/
def Obligations.PrivilegeMattersToAlignmentOnly : Prop :=
  ∀ (i : Instr) (s : State) (c : Fin 4),
    (∃ code a, exec i s = .fault (.ac code a)) ∨ (∃ code a, exec i (s.withCpl c) = .fault (.ac code a)) ∨
    (∃ t, exec i s = .next t ∧ exec i (s.withCpl c) = .next (t.withCpl c)) ∨
    (∃ x, exec i s = .fault x ∧ exec i (s.withCpl c) = .fault x) ∨
    (∃ q, exec i s = .refused q ∧ exec i (s.withCpl c) = .refused q)

/-- 10_state.md R28: no instruction reads a flag. With RFLAGS replaced by `f` the outcome is the same but for
RFLAGS: an XMM instruction keeps `f`, an AND leaves the six flags it leaves anyhow and keeps `f`'s other bits. -/
def Obligations.StatusFlagsAreNeverRead : Prop :=
  ∀ (i : Instr) (s : State) (f : RFlags),
    (∃ t, exec i s = .next t ∧ exec i (s.withFlags f) = .next (t.withFlags
      (match instrClass i with
        | .and => { t.flags with other := f.other }
        | .xmm => f))) ∨
    (∃ x, exec i s = .fault x ∧ exec i (s.withFlags f) = .fault x) ∨
    (∃ q, exec i s = .refused q ∧ exec i (s.withFlags f) = .refused q)

/-- R26: an instruction that completes advances `pc` by its length, modulo the width of `pc`. -/
def Obligations.CompletedInstructionAdvancesPc : Prop :=
  ∀ (i : Instr) (s t : State), exec i s = .next t →
    t.pc.toNat = (s.pc.toNat + instrLength i) % 2 ^ pcWidth s.sys

/-! ## Memory accesses -/

/-- R65 to R73, D10, D25: an access answers exactly when no condition holds against it, and with the
addresses that `TRANSLATE` gives. The model's choices in it: an access to a hole is refused (log entry 6,
DESIGN CHOICE), and outside 64-bit mode the top is 2^32 (log entry 13, DEDUCED). -/
def Obligations.AccessAnswersExactlyWhenOk : Prop :=
  ∀ (cls : AccessClass) (seg : Seg) (ea : Word64) (n : Nat) (kind : AccessKind) (s : State) (as : List Nat),
    0 < n → (access cls seg ea n kind s = .next as ↔ AccessOk cls seg ea n kind s as)

/-- R69: linear address, canonical test and the refusal at the top of the space in 64-bit mode. -/
def Obligations.LinearAddressIn64BitMode : Prop :=
  ∀ (cls : AccessClass) (seg : Seg) (ea : Word64) (n : Nat) (kind : AccessKind) (s : State),
    s.sys.mode = .long64 → 0 < n →
    ∀ lin : Word64,
      lin = (if seg = .fs then s.sys.segs.fs.base else if seg = .gs then s.sys.segs.gs.base else 0) + ea →
      segLinear cls seg ea n kind s =
        if lin.toNat + n - 1 > 2 ^ 64 - 1 then .refused .operandPastTop
        else if ∀ k < n, CanonicalAddr s.sys.laBits (lin + BitVec.ofNat 64 k) then .next lin
        else if seg = .ss then .fault (.ss (some 0) s.pc) else .fault (.gp (some 0) s.pc)

/-- R66 and R70: the segment checks of protected and compatibility mode, in R66's order. That the refusal of an
expand-down segment stands after the NULL, writable and readable checks of the access is the model's choice (log
entry 14); a step refuses such a configuration before it comes here (ExpandDownConfigurationRefused). -/
def Obligations.ProtectedModeSegmentChecks : Prop :=
  ∀ (cls : AccessClass) (seg : Seg) (ea : Word64) (n : Nat) (kind : AccessKind) (s : State) (d : SegDesc),
    s.sys.mode = .prot ∨ s.sys.mode = .compat → 0 < n → d = segDesc s.sys.segs seg →
    segLinear cls seg ea n kind s =
      if (seg = .ds ∨ seg = .es ∨ seg = .fs ∨ seg = .gs) ∧ d.null = true then .fault (.gp (some 0) s.pc)
      else if kind = .rmw ∧ d.writable = false then .fault (.gp (some 0) s.pc)
      else if d.readable = false then
        (if seg = .ss ∧ cls = .xmm then .fault (.ss (some 0) s.pc) else .fault (.gp (some 0) s.pc))
      else if d.expandDown = true then .refused .expandDownSegment
      else if ea.toNat + n - 1 ≤ d.limit.toNat then .next (BitVec.ofNat 64 ((d.base.toNat + ea.toNat) % 2 ^ 32))
      else if seg = .ss then .fault (.ss (some 0) s.pc) else .fault (.gp (some 0) s.pc)

/-- R67 and R68: real-address and virtual-8086 mode. AND tests the limit (#SS or #GP, code 0 in virtual-8086
mode, none in real-address mode); the XMM instructions test the offsets 0 to FFFFH (#GP without a code). That an
expand-down segment is refused at AND's limit test, and makes no difference to the XMM instructions, is the model's
choice for the access (log entry 14); a step refuses such a configuration before (ExpandDownConfigurationRefused). -/
def Obligations.RealModeSegmentChecks : Prop :=
  ∀ (cls : AccessClass) (seg : Seg) (ea : Word64) (n : Nat) (kind : AccessKind) (s : State) (d : SegDesc)
    (code : Option (BitVec 32)),
    (s.sys.mode = .real ∧ code = none) ∨ (s.sys.mode = .v86 ∧ code = some 0) → 0 < n →
    d = segDesc s.sys.segs seg →
    segLinear cls seg ea n kind s =
      if cls = .xmm ∧ ea.toNat + n - 1 > 0xFFFF then .fault (.gp none s.pc)
      else if cls = .and ∧ d.expandDown = true then .refused .expandDownSegment
      else if cls = .and ∧ ea.toNat + n - 1 > d.limit.toNat then
        (if seg = .ss then .fault (.ss code s.pc) else .fault (.gp code s.pc))
      else .next (BitVec.ofNat 64 ((d.base.toNat + ea.toNat) % 2 ^ 32))

/-- R71: a 128-bit operand not on a 16-byte boundary raises #GP, whatever the segment; AND has no such
requirement. -/
def Obligations.XmmOperandAlignment : Prop :=
  ∀ (seg : Seg) (ea : Word64) (n : Nat) (kind : AccessKind) (s : State) (lin : Word64),
    (segLinear .xmm seg ea n kind s = .next lin →
      linear .xmm seg ea n kind s =
        if lin.toNat % 16 = 0 then .next lin
        else if s.sys.mode = .real ∨ s.sys.mode = .v86 then .fault (.gp none s.pc)
        else .fault (.gp (some 0) s.pc)) ∧
    linear .and seg ea n kind s = segLinear .and seg ea n kind s

/-- R72, R208: the lowest byte that does not translate raises #PF with what `TRANSLATE` gives. -/
def Obligations.LowestFaultingByteRaisesPageFault : Prop :=
  ∀ (cls : AccessClass) (seg : Seg) (ea : Word64) (n : Nat) (kind : AccessKind) (s : State) (lin : Word64)
    (k : Nat) (c : BitVec 32) (r : Word64),
    linear cls seg ea n kind s = .next lin → lin.toNat + n ≤ 2 ^ linWidth s.sys.mode → k < n →
    (∀ j < k, ∃ a, translate s.sys (lin + BitVec.ofNat 64 j) kind = .phys a) →
    translate s.sys (lin + BitVec.ofNat 64 k) kind = .pageFault c r →
    access cls seg ea n kind s = .fault (.pf c r s.pc)

/-- R73: #AC(0) for AND exactly on an unaligned operand, with alignment checking enabled, at level 3 or in
virtual-8086 mode, never in real-address mode; never for the XMM instructions. -/
def Obligations.AlignmentCheckOfAnd : Prop :=
  ∀ (cls : AccessClass) (seg : Seg) (ea : Word64) (n : Nat) (kind : AccessKind) (s : State) (lin : Word64)
    (as : List Nat),
    linear cls seg ea n kind s = .next lin → lin.toNat + n ≤ 2 ^ linWidth s.sys.mode →
    translateAll kind s lin n = .next as →
    (access cls seg ea n kind s = .fault (.ac (some 0) s.pc) ↔ AlignmentFault cls lin n s)

/-- R60, R75, R76: byte `k` of a value is bits 8k+7:8k, on a read and on a write to distinct addresses. -/
def Obligations.BytesAreLittleEndian : Prop :=
  ∀ (n : Nat) (as : List Nat) (s : State), as.length = n →
    BytesAt s.mem as (loadLE n s.mem as) ∧
    (as.Nodup → Memory.wf s.mem → ∀ v : BitVec (8 * n), BytesAt (storeLE n as v s).mem as v)

/-! ## Registers and addresses -/

/-- R22 to R25: what each register view reads, and what a write of it leaves. -/
def Obligations.RegisterViews : Prop :=
  ∀ (rex : Bool) (c : RegCode) (s : State),
    readReg .b8 rex c s = byteReg rex c s ∧
    readReg .b16 rex c s = s.x[c.val].extractLsb' 0 16 ∧
    readReg .b32 rex c s = s.x[c.val].extractLsb' 0 32 ∧
    readReg .b64 rex c s = s.x[c.val] ∧
    (∀ v : BitVec 8, RegisterHolds (byteLoc rex c).1 (byteLoc rex c).2 false v s (writeReg .b8 rex c v s)) ∧
    (∀ v : BitVec 16, RegisterHolds c 0 false v s (writeReg .b16 rex c v s)) ∧
    (∀ v : BitVec 32, RegisterHolds c 0 (clears32 s) v s (writeReg .b32 rex c v s)) ∧
    (∀ v : BitVec 64, (writeReg .b64 rex c v s).x[c.val] = v)

/-- R108 and the disp32 line of R106: RIP-relative in 64-bit mode, truncated to 32 bits with 67; the
displacement alone elsewhere. -/
def Obligations.RipRelativeAddress : Prop :=
  ∀ (p : Prefixes) (len : Nat) (d : BitVec 32) (s : State),
    (s.sys.mode = .long64 → (effectiveAddr p len (.disp32 d) s).toNat =
      (s.pc.toNat + len + (d.signExtend 64).toNat) % 2 ^ (if p.p67 then 32 else 64)) ∧
    (s.sys.mode ≠ .long64 → (effectiveAddr p len (.disp32 d) s).toNat = d.toNat)

/-- R106, R107, R110: the base and SIB forms at address size 32 or 64. -/
def Obligations.BaseAndSibAddresses : Prop :=
  ∀ (p : Prefixes) (len : Nat) (s : State) (a : Nat), a = wideAddr p.p67 s →
    (∀ rm d, (effectiveAddr p len (.base rm d) s).toNat =
      (s.x[(baseField p rm).val].toNat % 2 ^ a + dispNat a d) % 2 ^ a) ∧
    (∀ sc ix b d, (effectiveAddr p len (.sib sc ix b d) s).toNat =
      (s.x[(baseField p b).val].toNat % 2 ^ a +
        (if indexField p ix = 4 then 0 else s.x[(indexField p ix).val].toNat % 2 ^ a * 2 ^ sc.toNat) +
        dispNat a d) % 2 ^ a) ∧
    (∀ sc ix (d : BitVec 32), (effectiveAddr p len (.sibNoBase sc ix d) s).toNat =
      ((if indexField p ix = 4 then 0 else s.x[(indexField p ix).val].toNat % 2 ^ a * 2 ^ sc.toNat) +
        (d.signExtend a).toNat) % 2 ^ a)

/-- R109: the table of 16-bit addressing (BX is register 3, BP 5, SI 6, DI 7). -/
def Obligations.SixteenBitAddresses : Prop :=
  ∀ (p : Prefixes) (len : Nat) (s : State) (d : Disp 16) (bx bp si di : Nat),
    bx = s.x[3].toNat % 2 ^ 16 → bp = s.x[5].toNat % 2 ^ 16 →
    si = s.x[6].toNat % 2 ^ 16 → di = s.x[7].toNat % 2 ^ 16 →
    (effectiveAddr p len (.mem16 0 d) s).toNat = (bx + si + dispNat 16 d) % 2 ^ 16 ∧
    (effectiveAddr p len (.mem16 1 d) s).toNat = (bx + di + dispNat 16 d) % 2 ^ 16 ∧
    (effectiveAddr p len (.mem16 2 d) s).toNat = (bp + si + dispNat 16 d) % 2 ^ 16 ∧
    (effectiveAddr p len (.mem16 3 d) s).toNat = (bp + di + dispNat 16 d) % 2 ^ 16 ∧
    (effectiveAddr p len (.mem16 4 d) s).toNat = (si + dispNat 16 d) % 2 ^ 16 ∧
    (effectiveAddr p len (.mem16 5 d) s).toNat = (di + dispNat 16 d) % 2 ^ 16 ∧
    (effectiveAddr p len (.mem16 6 d) s).toNat = (bp + dispNat 16 d) % 2 ^ 16 ∧
    (effectiveAddr p len (.mem16 7 d) s).toNat = (bx + dispNat 16 d) % 2 ^ 16 ∧
    ∀ v : BitVec 16, (effectiveAddr p len (.direct16 v) s).toNat = v.toNat

/-- R111, R99: the segment of a memory operand without and with an override. -/
def Obligations.OperandSegments : Prop :=
  ∀ p : Prefixes,
    (∀ g m, p.seg = some g → operandSeg p m = g) ∧
    (p.seg = none →
      (∀ rm d, operandSeg p (.base rm d) = .ss ↔ (baseField p rm).val = 4 ∨ (baseField p rm).val = 5) ∧
      (∀ sc ix b d, operandSeg p (.sib sc ix b d) = .ss ↔ (baseField p b).val = 4 ∨ (baseField p b).val = 5) ∧
      (∀ rm d, operandSeg p (.mem16 rm d) = .ss ↔ rm = 2 ∨ rm = 3 ∨ rm = 6) ∧
      (∀ m, operandSeg p m = .ss ∨ operandSeg p m = .ds) ∧
      (∀ d, operandSeg p (.disp32 d) = .ds) ∧ (∀ d, operandSeg p (.direct16 d) = .ds) ∧
      (∀ sc ix d, operandSeg p (.sibNoBase sc ix d) = .ds))

/-- R27: RFLAGS as one word. -/
def Obligations.RflagsWordLayout : Prop :=
  ∀ (f : RFlags) (j : Nat), j < 64 → f.word.getLsbD j =
    if j = 0 then f.cf else if j = 1 then true else if j = 2 then f.pf else if j = 4 then f.af
    else if j = 6 then f.zf else if j = 7 then f.sf else if j = 11 then f.of else f.other.getLsbD j

/-! ## AND -/

/-- R155 to R158: the accumulator rows complete without LOCK, whatever the state. Outside 64-bit mode the
32-bit rows keep bits 63:32: the model's choice (log entry 7). -/
def Obligations.AndImmediateToAccumulator : Prop :=
  ∀ (p : Prefixes) (s : State), p.lock = false →
    (∀ imm : BitVec 8, ∃ t, exec (.andAlImm8 p imm) s = .next t ∧
      AndedRegister (.andAlImm8 p imm) 0 0 false imm s t) ∧
    (∀ imm : BitVec 16, ∃ t, exec (.andAxImm16 p imm) s = .next t ∧
      AndedRegister (.andAxImm16 p imm) 0 0 false imm s t) ∧
    (∀ imm : BitVec 32, ∃ t, exec (.andEaxImm32 p imm) s = .next t ∧
      AndedRegister (.andEaxImm32 p imm) 0 0 (clears32 s) imm s t) ∧
    (∀ imm : BitVec 32, ∃ t, exec (.andRaxImm32 p imm) s = .next t ∧
      AndedRegister (.andRaxImm32 p imm) 0 0 false (imm.signExtend 64) s t)

/-- R159 to R166 with a register r/m: complete without LOCK, whatever the state. Outside 64-bit mode the
32-bit rows keep bits 63:32: the model's choice (log entry 7). -/
def Obligations.AndImmediateToRegister : Prop :=
  ∀ (p : Prefixes) (r : BitVec 3) (s : State), p.lock = false →
    (∀ imm : BitVec 8, ∃ t, exec (.andRm8Imm8 p (.reg r) imm) s = .next t ∧
      AndedRegister (.andRm8Imm8 p (.reg r) imm) (byteLoc p.rex.isSome (baseField p r)).1 (byteLoc p.rex.isSome (baseField p r)).2 false imm s t) ∧
    (∀ imm : BitVec 8, ∃ t, exec (.andRm8Imm8Rex p (.reg r) imm) s = .next t ∧
      AndedRegister (.andRm8Imm8Rex p (.reg r) imm) (byteLoc p.rex.isSome (baseField p r)).1 (byteLoc p.rex.isSome (baseField p r)).2 false imm s t) ∧
    (∀ imm : BitVec 16, ∃ t, exec (.andRm16Imm16 p (.reg r) imm) s = .next t ∧
      AndedRegister (.andRm16Imm16 p (.reg r) imm) (baseField p r) 0 false imm s t) ∧
    (∀ imm : BitVec 32, ∃ t, exec (.andRm32Imm32 p (.reg r) imm) s = .next t ∧
      AndedRegister (.andRm32Imm32 p (.reg r) imm) (baseField p r) 0 (clears32 s) imm s t) ∧
    (∀ imm : BitVec 32, ∃ t, exec (.andRm64Imm32 p (.reg r) imm) s = .next t ∧
      AndedRegister (.andRm64Imm32 p (.reg r) imm) (baseField p r) 0 false (imm.signExtend 64) s t) ∧
    (∀ imm : BitVec 8, ∃ t, exec (.andRm16Imm8 p (.reg r) imm) s = .next t ∧
      AndedRegister (.andRm16Imm8 p (.reg r) imm) (baseField p r) 0 false (imm.signExtend 16) s t) ∧
    (∀ imm : BitVec 8, ∃ t, exec (.andRm32Imm8 p (.reg r) imm) s = .next t ∧
      AndedRegister (.andRm32Imm8 p (.reg r) imm) (baseField p r) 0 (clears32 s) (imm.signExtend 32) s t) ∧
    (∀ imm : BitVec 8, ∃ t, exec (.andRm64Imm8 p (.reg r) imm) s = .next t ∧
      AndedRegister (.andRm64Imm8 p (.reg r) imm) (baseField p r) 0 false (imm.signExtend 64) s t)

/-- R159 to R166 with a memory r/m: complete, with LOCK or without (R78), when the operand may be read and
written (R77) and is not in the program text (R82). Memory is in canonical form: StepKeepsTheInvariant. Where
two bytes of the operand share a physical address the higher one is what is left there: log entry 5. -/
def Obligations.AndImmediateToMemory : Prop :=
  ∀ (p : Prefixes) (m : MemOp) (s : State) (as : List Nat),
    Memory.wf s.mem → (∀ a ∈ as, a ∉ textAddrs s) →
    (∀ imm : BitVec 8, OperandOk .and p (.andRm8Imm8 p (.mem m) imm) m 1 .rmw s as →
      ∃ t, exec (.andRm8Imm8 p (.mem m) imm) s = .next t ∧
        AndedMemory (n := 1) (.andRm8Imm8 p (.mem m) imm) as imm s t) ∧
    (∀ imm : BitVec 8, OperandOk .and p (.andRm8Imm8Rex p (.mem m) imm) m 1 .rmw s as →
      ∃ t, exec (.andRm8Imm8Rex p (.mem m) imm) s = .next t ∧
        AndedMemory (n := 1) (.andRm8Imm8Rex p (.mem m) imm) as imm s t) ∧
    (∀ imm : BitVec 16, OperandOk .and p (.andRm16Imm16 p (.mem m) imm) m 2 .rmw s as →
      ∃ t, exec (.andRm16Imm16 p (.mem m) imm) s = .next t ∧
        AndedMemory (n := 2) (.andRm16Imm16 p (.mem m) imm) as imm s t) ∧
    (∀ imm : BitVec 32, OperandOk .and p (.andRm32Imm32 p (.mem m) imm) m 4 .rmw s as →
      ∃ t, exec (.andRm32Imm32 p (.mem m) imm) s = .next t ∧
        AndedMemory (n := 4) (.andRm32Imm32 p (.mem m) imm) as imm s t) ∧
    (∀ imm : BitVec 32, OperandOk .and p (.andRm64Imm32 p (.mem m) imm) m 8 .rmw s as →
      ∃ t, exec (.andRm64Imm32 p (.mem m) imm) s = .next t ∧
        AndedMemory (n := 8) (.andRm64Imm32 p (.mem m) imm) as (imm.signExtend 64) s t) ∧
    (∀ imm : BitVec 8, OperandOk .and p (.andRm16Imm8 p (.mem m) imm) m 2 .rmw s as →
      ∃ t, exec (.andRm16Imm8 p (.mem m) imm) s = .next t ∧
        AndedMemory (n := 2) (.andRm16Imm8 p (.mem m) imm) as (imm.signExtend 16) s t) ∧
    (∀ imm : BitVec 8, OperandOk .and p (.andRm32Imm8 p (.mem m) imm) m 4 .rmw s as →
      ∃ t, exec (.andRm32Imm8 p (.mem m) imm) s = .next t ∧
        AndedMemory (n := 4) (.andRm32Imm8 p (.mem m) imm) as (imm.signExtend 32) s t) ∧
    (∀ imm : BitVec 8, OperandOk .and p (.andRm64Imm8 p (.mem m) imm) m 8 .rmw s as →
      ∃ t, exec (.andRm64Imm8 p (.mem m) imm) s = .next t ∧
        AndedMemory (n := 8) (.andRm64Imm8 p (.mem m) imm) as (imm.signExtend 64) s t)

/-- R167 to R171 with a register r/m: destination r/m, source reg; complete without LOCK. Outside 64-bit mode the
32-bit rows keep bits 63:32: the model's choice (log entry 7). -/
def Obligations.AndRegisterToRegister : Prop :=
  ∀ (p : Prefixes) (r reg : BitVec 3) (s : State), p.lock = false →
    (∃ t, exec (.andRm8R8 p (.reg r) reg) s = .next t ∧
      AndedRegister (.andRm8R8 p (.reg r) reg) (byteLoc p.rex.isSome (baseField p r)).1 (byteLoc p.rex.isSome (baseField p r)).2 false
        (byteReg p.rex.isSome (regField p reg) s) s t) ∧
    (∃ t, exec (.andRm8R8Rex p (.reg r) reg) s = .next t ∧
      AndedRegister (.andRm8R8Rex p (.reg r) reg) (byteLoc p.rex.isSome (baseField p r)).1 (byteLoc p.rex.isSome (baseField p r)).2 false
        (byteReg p.rex.isSome (regField p reg) s) s t) ∧
    (∃ t, exec (.andRm16R16 p (.reg r) reg) s = .next t ∧
      AndedRegister (.andRm16R16 p (.reg r) reg) (baseField p r) 0 false
        (s.x[(regField p reg).val].extractLsb' 0 16) s t) ∧
    (∃ t, exec (.andRm32R32 p (.reg r) reg) s = .next t ∧
      AndedRegister (.andRm32R32 p (.reg r) reg) (baseField p r) 0 (clears32 s)
        (s.x[(regField p reg).val].extractLsb' 0 32) s t) ∧
    (∃ t, exec (.andRm64R64 p (.reg r) reg) s = .next t ∧
      AndedRegister (.andRm64R64 p (.reg r) reg) (baseField p r) 0 false
        s.x[(regField p reg).val] s t)

/-- R167 to R171 with a memory r/m: complete, with LOCK or without, when the operand may be read and written
and is not in the program text. Memory is in canonical form: StepKeepsTheInvariant. Where
two bytes of the operand share a physical address the higher one is what is left there: log entry 5. -/
def Obligations.AndRegisterToMemory : Prop :=
  ∀ (p : Prefixes) (m : MemOp) (reg : BitVec 3) (s : State) (as : List Nat),
    Memory.wf s.mem → (∀ a ∈ as, a ∉ textAddrs s) →
    (OperandOk .and p (.andRm8R8 p (.mem m) reg) m 1 .rmw s as →
      ∃ t, exec (.andRm8R8 p (.mem m) reg) s = .next t ∧
        AndedMemory (n := 1) (.andRm8R8 p (.mem m) reg) as (byteReg p.rex.isSome (regField p reg) s) s t) ∧
    (OperandOk .and p (.andRm8R8Rex p (.mem m) reg) m 1 .rmw s as →
      ∃ t, exec (.andRm8R8Rex p (.mem m) reg) s = .next t ∧
        AndedMemory (n := 1) (.andRm8R8Rex p (.mem m) reg) as (byteReg p.rex.isSome (regField p reg) s) s t) ∧
    (OperandOk .and p (.andRm16R16 p (.mem m) reg) m 2 .rmw s as →
      ∃ t, exec (.andRm16R16 p (.mem m) reg) s = .next t ∧
        AndedMemory (n := 2) (.andRm16R16 p (.mem m) reg) as (s.x[(regField p reg).val].extractLsb' 0 16) s t) ∧
    (OperandOk .and p (.andRm32R32 p (.mem m) reg) m 4 .rmw s as →
      ∃ t, exec (.andRm32R32 p (.mem m) reg) s = .next t ∧
        AndedMemory (n := 4) (.andRm32R32 p (.mem m) reg) as (s.x[(regField p reg).val].extractLsb' 0 32) s t) ∧
    (OperandOk .and p (.andRm64R64 p (.mem m) reg) m 8 .rmw s as →
      ∃ t, exec (.andRm64R64 p (.mem m) reg) s = .next t ∧
        AndedMemory (n := 8) (.andRm64R64 p (.mem m) reg) as s.x[(regField p reg).val] s t)

/-- R172 to R176 with a register r/m: destination reg, source r/m; complete without LOCK. Outside 64-bit mode the
32-bit rows keep bits 63:32: the model's choice (log entry 7). -/
def Obligations.AndRegisterFromRegister : Prop :=
  ∀ (p : Prefixes) (reg r : BitVec 3) (s : State), p.lock = false →
    (∃ t, exec (.andR8Rm8 p reg (.reg r)) s = .next t ∧
      AndedRegister (.andR8Rm8 p reg (.reg r)) (byteLoc p.rex.isSome (regField p reg)).1 (byteLoc p.rex.isSome (regField p reg)).2 false
        (byteReg p.rex.isSome (baseField p r) s) s t) ∧
    (∃ t, exec (.andR8Rm8Rex p reg (.reg r)) s = .next t ∧
      AndedRegister (.andR8Rm8Rex p reg (.reg r)) (byteLoc p.rex.isSome (regField p reg)).1 (byteLoc p.rex.isSome (regField p reg)).2 false
        (byteReg p.rex.isSome (baseField p r) s) s t) ∧
    (∃ t, exec (.andR16Rm16 p reg (.reg r)) s = .next t ∧
      AndedRegister (.andR16Rm16 p reg (.reg r)) (regField p reg) 0 false
        (s.x[(baseField p r).val].extractLsb' 0 16) s t) ∧
    (∃ t, exec (.andR32Rm32 p reg (.reg r)) s = .next t ∧
      AndedRegister (.andR32Rm32 p reg (.reg r)) (regField p reg) 0 (clears32 s)
        (s.x[(baseField p r).val].extractLsb' 0 32) s t) ∧
    (∃ t, exec (.andR64Rm64 p reg (.reg r)) s = .next t ∧
      AndedRegister (.andR64Rm64 p reg (.reg r)) (regField p reg) 0 false
        s.x[(baseField p r).val] s t)

/-- R172 to R176 with a memory r/m: complete without LOCK when the operand may be read; the address uses the
registers' old values (R110). Outside 64-bit mode the
32-bit rows keep bits 63:32: the model's choice (log entry 7). -/
def Obligations.AndRegisterFromMemory : Prop :=
  ∀ (p : Prefixes) (reg : BitVec 3) (m : MemOp) (s : State) (as : List Nat), p.lock = false →
    (∀ v : BitVec 8, OperandOk .and p (.andR8Rm8 p reg (.mem m)) m 1 .read s as →
      BytesAt (n := 1) s.mem as v → ∃ t, exec (.andR8Rm8 p reg (.mem m)) s = .next t ∧
        AndedRegister (.andR8Rm8 p reg (.mem m)) (byteLoc p.rex.isSome (regField p reg)).1 (byteLoc p.rex.isSome (regField p reg)).2 false v s t) ∧
    (∀ v : BitVec 8, OperandOk .and p (.andR8Rm8Rex p reg (.mem m)) m 1 .read s as →
      BytesAt (n := 1) s.mem as v → ∃ t, exec (.andR8Rm8Rex p reg (.mem m)) s = .next t ∧
        AndedRegister (.andR8Rm8Rex p reg (.mem m)) (byteLoc p.rex.isSome (regField p reg)).1 (byteLoc p.rex.isSome (regField p reg)).2 false v s t) ∧
    (∀ v : BitVec 16, OperandOk .and p (.andR16Rm16 p reg (.mem m)) m 2 .read s as →
      BytesAt (n := 2) s.mem as v → ∃ t, exec (.andR16Rm16 p reg (.mem m)) s = .next t ∧
        AndedRegister (.andR16Rm16 p reg (.mem m)) (regField p reg) 0 false v s t) ∧
    (∀ v : BitVec 32, OperandOk .and p (.andR32Rm32 p reg (.mem m)) m 4 .read s as →
      BytesAt (n := 4) s.mem as v → ∃ t, exec (.andR32Rm32 p reg (.mem m)) s = .next t ∧
        AndedRegister (.andR32Rm32 p reg (.mem m)) (regField p reg) 0 (clears32 s) v s t) ∧
    (∀ v : BitVec 64, OperandOk .and p (.andR64Rm64 p reg (.mem m)) m 8 .read s as →
      BytesAt (n := 8) s.mem as v → ∃ t, exec (.andR64Rm64 p reg (.mem m)) s = .next t ∧
        AndedRegister (.andR64Rm64 p reg (.mem m)) (regField p reg) 0 false v s t)

/-- R152: an AND with LOCK raises #UD in every form whose destination is no memory operand, even when its
source is memory; with a memory destination it executes when the operand may be read and written and is not in
the program text. What it leaves is in AndImmediateToMemory and AndRegisterToMemory; that the one step is R78's
atomic event is log entry 12 (DEDUCED). -/
def Obligations.LockNeedsMemoryDestination : Prop :=
  ∀ (i : Instr) (s : State), instrClass i = .and → i.prefixes.lock = true →
    (memDest i = false → exec i s = .fault (.ud s.pc)) ∧
    (memDest i = true → exec i s ≠ .fault (.ud s.pc) ∧
      ∀ (m : MemOp) (as : List Nat), i.rm? = some (.mem m) →
        OperandOk .and i.prefixes i m (operandBytes i) .rmw s as → (∀ a ∈ as, a ∉ textAddrs s) →
        ∃ t, exec i s = .next t)

/-! ## The XMM instructions -/

/-- R190, R195 with a register source: all 128 bits; no flag is written. -/
def Obligations.PackedAndOfRegister : Prop :=
  ∀ (p : Prefixes) (reg r : BitVec 3) (s : State),
    (XmmEnabled s.sys.cpuidSSE2 p s → ∃ t, exec (.andpd p reg (.reg r)) s = .next t ∧
      WroteXmm (.andpd p reg (.reg r)) (regField p reg)
        (s.xmm[(regField p reg).val] &&& s.xmm[(baseField p r).val]) s t) ∧
    (XmmEnabled s.sys.cpuidSSE p s → ∃ t, exec (.andps p reg (.reg r)) s = .next t ∧
      WroteXmm (.andps p reg (.reg r)) (regField p reg)
        (s.xmm[(regField p reg).val] &&& s.xmm[(baseField p r).val]) s t)

/-- R190, R195 with a memory source of 16 bytes. -/
def Obligations.PackedAndOfMemory : Prop :=
  ∀ (p : Prefixes) (reg : BitVec 3) (m : MemOp) (s : State) (as : List Nat) (v : XWord),
    BytesAt (n := 16) s.mem as v →
    (XmmEnabled s.sys.cpuidSSE2 p s → OperandOk .xmm p (.andpd p reg (.mem m)) m 16 .read s as →
      ∃ t, exec (.andpd p reg (.mem m)) s = .next t ∧
        WroteXmm (.andpd p reg (.mem m)) (regField p reg) (s.xmm[(regField p reg).val] &&& v) s t) ∧
    (XmmEnabled s.sys.cpuidSSE p s → OperandOk .xmm p (.andps p reg (.mem m)) m 16 .read s as →
      ∃ t, exec (.andps p reg (.mem m)) s = .next t ∧
        WroteXmm (.andps p reg (.mem m)) (regField p reg) (s.xmm[(regField p reg).val] &&& v) s t)

/-- R141: once R145's checks are past, with SRC a register or 16 bytes of memory: the four doublewords of the
result, computed from SRC[63:32] and SRC[127:96]; bits 255:128, flags and everything else as before. -/
def Obligations.KeygenAssistOperation : Prop :=
  ∀ (p : Prefixes) (reg : BitVec 3) (rm : Rm) (imm : BitVec 8) (s : State) (src : XWord),
    XmmEnabled s.sys.cpuidAESNI p s →
    (∀ r, rm = .reg r → src = s.xmm[(baseField p r).val]) →
    (∀ m, rm = .mem m → ∃ as, OperandOk .xmm p (.aeskeygenassist p reg rm imm) m 16 .read s as ∧
      BytesAt (n := 16) s.mem as src) →
    ∃ t w, exec (.aeskeygenassist p reg rm imm) s = .next t ∧
      WroteXmm (.aeskeygenassist p reg rm imm) (regField p reg) w s t ∧
      w.extractLsb' 0 32 = subWord (src.extractLsb' 32 32) ∧
      w.extractLsb' 32 32 = rotWord (subWord (src.extractLsb' 32 32)) ^^^ imm.zeroExtend 32 ∧
      w.extractLsb' 64 32 = subWord (src.extractLsb' 96 32) ∧
      w.extractLsb' 96 32 = rotWord (subWord (src.extractLsb' 96 32)) ^^^ imm.zeroExtend 32

/-- R142, R143: SubWord replaces each byte in place; RotWord maps bytes [a0, a1, a2, a3] to
[a1, a2, a3, a0]. -/
def Obligations.SubWordAndRotWord : Prop :=
  ∀ v : BitVec 32,
    (∀ k < 4, (subWord v).extractLsb' (8 * k) 8 = sbox (v.extractLsb' (8 * k) 8)) ∧
    ∀ k < 4, (rotWord v).extractLsb' (8 * k) 8 = v.extractLsb' (8 * ((k + 1) % 4)) 8

/-- R144: the table is the multiplicative inverse in GF(2^8), 0 mapped to 0, then the affine map. -/
def Obligations.SubstitutionBoxFormula : Prop :=
  ∀ b : Byte, ∃ inv : Byte, (b = 0 → inv = 0) ∧ (b ≠ 0 → gfMul b inv = 1) ∧ sbox b = sboxAffine inv

/-- R146: the immediate changes bits 39:32 and 103:96 only, and SRC[31:0] and SRC[95:64] nothing. -/
def Obligations.KeygenAssistDependencies : Prop :=
  ∀ (src src' : XWord) (imm : BitVec 8),
    (src.extractLsb' 32 32 = src'.extractLsb' 32 32 → src.extractLsb' 96 32 = src'.extractLsb' 96 32 →
      keygenAssist src imm = keygenAssist src' imm) ∧
    ∀ j < 128, (keygenAssist src imm).getLsbD j =
      ((keygenAssist src 0).getLsbD j ^^
        (if 32 ≤ j ∧ j < 40 then imm.getLsbD (j - 32) else if 96 ≤ j ∧ j < 104 then imm.getLsbD (j - 96) else false))

/-- R201, R202: exactly when #UD and #NM are raised. #UD: an AND with LOCK and no memory destination; an XMM
instruction with LOCK, CR0.EM = 1, CR4.OSFXSR = 0 or its feature bit clear. #NM: an XMM instruction with
CR0.TS = 1 for which no #UD condition holds; never AND. -/
def Obligations.InvalidOpcodeAndDeviceNotAvailable : Prop :=
  ∀ (i : Instr) (s : State) (xmmUd : Prop),
    (xmmUd ↔ i.prefixes.lock = true ∨ s.sys.cr0EM = true ∨ s.sys.cr4OSFXSR = false ∨ featureOf s.sys i = false) →
    (exec i s = .fault (.ud s.pc) ↔
      instrClass i = .and ∧ i.prefixes.lock = true ∧ memDest i = false ∨ instrClass i = .xmm ∧ xmmUd) ∧
    (exec i s = .fault (.nm s.pc) ↔ instrClass i = .xmm ∧ ¬xmmUd ∧ s.sys.cr0TS = true)

/-! ## Memory conditions at the instruction -/

/-- R153, R208, R210: once #UD and #NM are past, a condition that stops the operand's access stops the
instruction, with the same fault or refusal, before anything is read or written. -/
def Obligations.AccessStopsTheInstruction : Prop :=
  ∀ (i : Instr) (m : MemOp) (s : State), i.rm? = some (.mem m) →
    (instrClass i = .xmm → XmmEnabled (featureOf s.sys i) i.prefixes s) →
    (instrClass i = .and → memDest i = true ∨ i.prefixes.lock = false) →
    (∀ x, access (instrClass i) (operandSeg i.prefixes m) (effectiveAddr i.prefixes (instrLength i) m s)
        (operandBytes i) (accessKind i) s = .fault x → exec i s = .fault x) ∧
    (∀ q, access (instrClass i) (operandSeg i.prefixes m) (effectiveAddr i.prefixes (instrLength i) m s)
        (operandBytes i) (accessKind i) s = .refused q → exec i s = .refused q)

/-- R82: an AND whose store would overlap the program text is refused. -/
def Obligations.StoreIntoTextRefused : Prop :=
  ∀ (i : Instr) (m : MemOp) (s : State) (as : List Nat), memDest i = true → i.rm? = some (.mem m) →
    OperandOk .and i.prefixes i m (operandBytes i) .rmw s as → (∃ a ∈ as, a ∈ textAddrs s) →
    exec i s = .refused .storeIntoText

/-! ## Reset -/

/-- The model's reset values: the family's power-up values of 10_state.md R40's right-hand column (PRESUMED,
log entry 2); x[2], the presence of the upper halves, the segments' Booleans and the CPUID bits (log entry 3) and
the empty memory (log entry 4) are DESIGN CHOICE. -/
def Obligations.ResetValues : Prop :=
  (∀ c : RegCode, State.reset.x[c.val] = 0) ∧ (∀ c : RegCode, State.reset.xmm[c.val] = 0) ∧
  State.reset.upper = some (Vector.replicate 16 0) ∧ State.reset.flags.other = 0 ∧ State.reset.mem = [] ∧
  State.reset.pc = 0xFFF0 ∧ State.reset.flags.word = 2 ∧ (∀ a, State.reset.mem.read a = 0) ∧
  State.reset.sys.mode = .real ∧ State.reset.sys.csD = .d16 ∧ State.reset.sys.cpl = 0 ∧
  State.reset.sys.cr0EM = false ∧ State.reset.sys.cr0TS = false ∧ State.reset.sys.cr4OSFXSR = false ∧
  State.reset.sys.acEnabled = false ∧ State.reset.sys.laBits = .la48 ∧
  State.reset.sys.segs.cs.base = 0xFFFF0000 ∧
  (∀ g, (segDesc State.reset.sys.segs g).limit = 0xFFFF) ∧
  (∀ g, g ≠ .cs → (segDesc State.reset.sys.segs g).base = 0) ∧
  (∀ g, (segDesc State.reset.sys.segs g).null = false ∧ (segDesc State.reset.sys.segs g).writable = true ∧
    (segDesc State.reset.sys.segs g).readable = true ∧ (segDesc State.reset.sys.segs g).expandDown = false) ∧
  State.reset.sys.cpuidAESNI = true ∧ State.reset.sys.cpuidSSE2 = true ∧ State.reset.sys.cpuidSSE = true

/-! ## The configuration -/

/-- D11, 20_memory.md R66: while any segment is expand-down, no step is taken. That this holds for all six segments
and in every mode is read from D11 (log entry 14). -/
def Obligations.ExpandDownConfigurationRefused : Prop :=
  ∀ (s : State) (g : Seg), (segDesc s.sys.segs g).expandDown = true → step s = .refused .expandDownSegment
end

