-- ==== Sys2Proof/Laws/Memory.lean ====
section
/-! SUPPORT. The laws of memory: read after write, other addresses left alone, and the canonical form kept
by every operation. -/

namespace Sys2Proof.Machine

theorem Memory.read_nil (a : Nat) : Memory.read [] a = unlistedByte := rfl

/-- Below every listed address a memory reads as unlisted. -/
theorem Memory.read_below (m : Memory) (a : Nat) (h : ∀ c ∈ m, a < c.1) : m.read a = unlistedByte := by
  induction m with
  | nil => rfl
  | cons c m ih =>
    have hc := h c (by simp)
    simp only [Memory.read]
    rw [if_neg (by omega)]
    exact ih fun d hd => h d (by simp [hd])

theorem Memory.read_write_same (m : Memory) (a : Nat) (b : Byte) (h : m.Pairwise (fun c d => c.1 < d.1)) :
    (m.write a b).read a = b := by
  induction m with
  | nil => by_cases hb : b = unlistedByte <;> simp [Memory.write, hb, Memory.read]
  | cons c m ih =>
    obtain ⟨k, v⟩ := c
    have hp := List.pairwise_cons.mp h
    simp only [Memory.write]
    split_ifs with h1 h2 hb hb
    · simp only [Memory.read, if_neg (Nat.ne_of_lt h1), ih hp.2]
    · subst h2
      rw [hb]
      exact Memory.read_below m k fun d hd => hp.1 d hd
    · simp [Memory.read]
    · rw [hb]
      refine Memory.read_below _ a fun d hd => ?_
      rcases List.mem_cons.mp hd with rfl | hd
      · show a < k
        omega
      · have : k < d.1 := hp.1 d hd
        omega
    · simp [Memory.read]

theorem Memory.read_write_other (m : Memory) (a a' : Nat) (b : Byte) (hne : a' ≠ a) :
    (m.write a b).read a' = m.read a' := by
  induction m with
  | nil => by_cases hb : b = unlistedByte <;> simp [Memory.write, hb, Memory.read, Ne.symm hne]
  | cons c m ih =>
    obtain ⟨k, v⟩ := c
    simp only [Memory.write]
    split_ifs with h1 h2 hb hb
    · simp only [Memory.read, ih]
    · simp [Memory.read, h2, Ne.symm hne]
    · simp [Memory.read, h2, Ne.symm hne]
    · rfl
    · simp [Memory.read, Ne.symm hne]

/-- Where a written memory can list an address: the written one, or one listed before. -/
theorem Memory.mem_write (m : Memory) (a : Nat) (b : Byte) (c : Host.Cell) (h : c ∈ m.write a b) :
    c ∈ m ∨ (c = (a, b) ∧ b ≠ unlistedByte) := by
  induction m with
  | nil => by_cases hb : b = unlistedByte <;> simp_all [Memory.write]
  | cons d m ih =>
    obtain ⟨k, v⟩ := d
    simp only [Memory.write] at h
    split_ifs at h with h1 h2 hb hb <;> simp only [List.mem_cons] at h ⊢ <;> tauto

/-- A store keeps the order of the addresses. -/
theorem Memory.write_sorted (m : Memory) (a : Nat) (b : Byte) (hp : m.Pairwise (fun c d => c.1 < d.1)) :
    (m.write a b).Pairwise (fun c d => c.1 < d.1) := by
  induction m with
  | nil => by_cases hb : b = unlistedByte <;> simp [Memory.write, hb]
  | cons d m ih =>
    obtain ⟨k, v⟩ := d
    obtain ⟨hk, hm⟩ := List.pairwise_cons.mp hp
    simp only [Memory.write]
    split_ifs with h1 h2 hb hb
    · refine List.pairwise_cons.mpr ⟨fun c hc => ?_, ih hm⟩
      rcases Memory.mem_write m a b c hc with hc | ⟨rfl, -⟩
      · exact hk c hc
      · exact h1
    · exact hm
    · exact List.pairwise_cons.mpr ⟨fun c hc => h2 ▸ hk c hc, hm⟩
    · exact hp
    · refine List.pairwise_cons.mpr ⟨fun c hc => ?_, hp⟩
      rcases List.mem_cons.mp hc with rfl | hc
      · show a < k
        omega
      · have : k < c.1 := hk c hc
        show a < c.1
        omega

/-- A store keeps the canonical form. -/
theorem Memory.write_wf (m : Memory) (a : Nat) (b : Byte) (ha : a < 2 ^ 64) (h : m.wf) : (m.write a b).wf := by
  refine ⟨Memory.write_sorted m a b h.1, fun c hc => ?_⟩
  rcases Memory.mem_write m a b c hc with hc | ⟨rfl, hb⟩
  · exact h.2 c hc
  · exact ⟨hb, ha⟩

theorem Memory.writeAll_wf (m : Memory) (as : List Nat) (bs : List Byte) (ha : ∀ a ∈ as, a < 2 ^ 64) (h : m.wf) :
    (m.writeAll as bs).wf := by
  induction as generalizing m bs with
  | nil => exact h
  | cons a as ih =>
    cases bs with
    | nil => exact h
    | cons b bs =>
      exact ih _ _ (fun c hc => ha c (by simp [hc])) (Memory.write_wf m a b (ha a (by simp)) h)

theorem Memory.writeAll_sorted (m : Memory) (as : List Nat) (bs : List Byte)
    (h : m.Pairwise (fun c d => c.1 < d.1)) : (m.writeAll as bs).Pairwise (fun c d => c.1 < d.1) := by
  induction as generalizing m bs with
  | nil => exact h
  | cons a as ih =>
    cases bs with
    | nil => exact h
    | cons b bs => exact ih _ _ (Memory.write_sorted m a b h)

theorem Memory.read_writeAll_other (m : Memory) (as : List Nat) (bs : List Byte) (a : Nat) (h : a ∉ as) :
    (m.writeAll as bs).read a = m.read a := by
  induction as generalizing m bs with
  | nil => rfl
  | cons c as ih =>
    cases bs with
    | nil => rfl
    | cons b bs =>
      simp only [List.mem_cons, not_or] at h
      exact (ih _ _ h.2).trans (Memory.read_write_other m c a b h.1)

/-- After a store of bytes an address reads as the last byte stored there. -/
theorem Memory.read_writeAll_at (m : Memory) (as : List Nat) (bs : List Byte) (k : Nat)
    (h : m.Pairwise (fun c d => c.1 < d.1)) (hl : as.length = bs.length) (hk : k < as.length)
    (hlast : ∀ k' < as.length, k < k' → as.getD k' 0 ≠ as.getD k 0) :
    (m.writeAll as bs).read (as.getD k 0) = bs.getD k 0 := by
  induction as generalizing m bs k with
  | nil => simp at hk
  | cons a as ih =>
    cases bs with
    | nil => simp at hl
    | cons b bs =>
      have hs := Memory.write_sorted m a b h
      cases k with
      | zero =>
        have hn : a ∉ as := by
          intro ha
          obtain ⟨j, hj, he⟩ := List.getElem_of_mem ha
          exact hlast (j + 1) (by simpa using hj) (by omega) (by simp [hj, he])
        simpa [Memory.writeAll] using
          (Memory.read_writeAll_other _ as bs a hn).trans (Memory.read_write_same m a b h)
      | succ k =>
        refine ih (m.write a b) bs k hs (by simpa using hl) (by simpa using hk) fun k' hk' hlt => ?_
        simpa using hlast (k' + 1) (by simpa using hk') (by omega)

theorem State.reset_memory_wf : State.reset.mem.wf := by decide

end Sys2Proof.Machine
end

