-- ==== Sys2Proof/Laws/State.lean ====
section
/-! SUPPORT. One lemma per field of State for each update, so that no proof unfolds a record update. -/

namespace Sys2Proof.Machine

section setX

variable (c : RegCode) (v : Word64) (s : State)

@[simp] theorem setX_x : (setX c v s).x = s.x.set c.val v := rfl
@[simp] theorem setX_xmm : (setX c v s).xmm = s.xmm := rfl
@[simp] theorem setX_upper : (setX c v s).upper = s.upper := rfl
@[simp] theorem setX_pc : (setX c v s).pc = s.pc := rfl
@[simp] theorem setX_flags : (setX c v s).flags = s.flags := rfl
@[simp] theorem setX_mem : (setX c v s).mem = s.mem := rfl
@[simp] theorem setX_text : (setX c v s).text = s.text := rfl
@[simp] theorem setX_sys : (setX c v s).sys = s.sys := rfl
@[simp] theorem setX_draws : (setX c v s).draws = s.draws := rfl

end setX

section writeXmm

variable (c : RegCode) (v : XWord) (s : State)

@[simp] theorem writeXmm_x : (writeXmm c v s).x = s.x := rfl
@[simp] theorem writeXmm_xmm : (writeXmm c v s).xmm = s.xmm.set c.val v := rfl
@[simp] theorem writeXmm_upper : (writeXmm c v s).upper = s.upper := rfl
@[simp] theorem writeXmm_pc : (writeXmm c v s).pc = s.pc := rfl
@[simp] theorem writeXmm_flags : (writeXmm c v s).flags = s.flags := rfl
@[simp] theorem writeXmm_mem : (writeXmm c v s).mem = s.mem := rfl
@[simp] theorem writeXmm_text : (writeXmm c v s).text = s.text := rfl
@[simp] theorem writeXmm_sys : (writeXmm c v s).sys = s.sys := rfl
@[simp] theorem writeXmm_draws : (writeXmm c v s).draws = s.draws := rfl

end writeXmm

section storeLE

variable {w : Nat} (n : Nat) (as : List Nat) (v : BitVec w) (s : State)

@[simp] theorem storeLE_x : (storeLE n as v s).x = s.x := rfl
@[simp] theorem storeLE_xmm : (storeLE n as v s).xmm = s.xmm := rfl
@[simp] theorem storeLE_upper : (storeLE n as v s).upper = s.upper := rfl
@[simp] theorem storeLE_pc : (storeLE n as v s).pc = s.pc := rfl
@[simp] theorem storeLE_flags : (storeLE n as v s).flags = s.flags := rfl
@[simp] theorem storeLE_mem : (storeLE n as v s).mem = s.mem.writeAll as (leBytes n v) := rfl
@[simp] theorem storeLE_text : (storeLE n as v s).text = s.text := rfl
@[simp] theorem storeLE_sys : (storeLE n as v s).sys = s.sys := rfl
@[simp] theorem storeLE_draws : (storeLE n as v s).draws = s.draws := rfl

end storeLE

section setAndFlags

variable {w : Nat} (res : BitVec w) (s : State)

@[simp] theorem setAndFlags_x : (setAndFlags res s).x = s.x := rfl
@[simp] theorem setAndFlags_xmm : (setAndFlags res s).xmm = s.xmm := rfl
@[simp] theorem setAndFlags_upper : (setAndFlags res s).upper = s.upper := rfl
@[simp] theorem setAndFlags_pc : (setAndFlags res s).pc = s.pc := rfl
@[simp] theorem setAndFlags_flags : (setAndFlags res s).flags = andFlags res (Config.freeAF s.draws == 1) s.flags := rfl
@[simp] theorem setAndFlags_mem : (setAndFlags res s).mem = s.mem := rfl
@[simp] theorem setAndFlags_text : (setAndFlags res s).text = s.text := rfl
@[simp] theorem setAndFlags_sys : (setAndFlags res s).sys = s.sys := rfl
@[simp] theorem setAndFlags_draws : (setAndFlags res s).draws = s.draws + 1 := rfl

end setAndFlags

section advance

variable (len : Nat) (s : State)

@[simp] theorem advance_x : (advance len s).x = s.x := rfl
@[simp] theorem advance_xmm : (advance len s).xmm = s.xmm := rfl
@[simp] theorem advance_upper : (advance len s).upper = s.upper := rfl
@[simp] theorem advance_pc : (advance len s).pc = lowBits (pcWidth s.sys) (s.pc + BitVec.ofNat 64 len) := rfl
@[simp] theorem advance_flags : (advance len s).flags = s.flags := rfl
@[simp] theorem advance_mem : (advance len s).mem = s.mem := rfl
@[simp] theorem advance_text : (advance len s).text = s.text := rfl
@[simp] theorem advance_sys : (advance len s).sys = s.sys := rfl
@[simp] theorem advance_draws : (advance len s).draws = s.draws := rfl

end advance

section writeReg

variable (z : OpSize) (rex : Bool) (c : RegCode) (v : BitVec z.bits) (s : State)

@[simp] theorem writeReg_xmm : (writeReg z rex c v s).xmm = s.xmm := by cases z <;> rfl
@[simp] theorem writeReg_upper : (writeReg z rex c v s).upper = s.upper := by cases z <;> rfl
@[simp] theorem writeReg_pc : (writeReg z rex c v s).pc = s.pc := by cases z <;> rfl
@[simp] theorem writeReg_flags : (writeReg z rex c v s).flags = s.flags := by cases z <;> rfl
@[simp] theorem writeReg_mem : (writeReg z rex c v s).mem = s.mem := by cases z <;> rfl
@[simp] theorem writeReg_text : (writeReg z rex c v s).text = s.text := by cases z <;> rfl
@[simp] theorem writeReg_sys : (writeReg z rex c v s).sys = s.sys := by cases z <;> rfl
@[simp] theorem writeReg_draws : (writeReg z rex c v s).draws = s.draws := by cases z <;> rfl

end writeReg

section placeText

variable (bs : List Byte) (s : State)

@[simp] theorem placeText_x : (placeText s bs).x = s.x := rfl
@[simp] theorem placeText_xmm : (placeText s bs).xmm = s.xmm := rfl
@[simp] theorem placeText_upper : (placeText s bs).upper = s.upper := rfl
@[simp] theorem placeText_pc : (placeText s bs).pc = s.pc := rfl
@[simp] theorem placeText_flags : (placeText s bs).flags = s.flags := rfl
@[simp] theorem placeText_text : (placeText s bs).text = ⟨s.pc, bs.length⟩ := rfl
@[simp] theorem placeText_sys : (placeText s bs).sys = s.sys := rfl
@[simp] theorem placeText_draws : (placeText s bs).draws = s.draws := rfl

end placeText

/-! The flags that AND writes (R151). -/

section andFlags

variable {w : Nat} (res : BitVec w) (af : Bool) (f : RFlags)

@[simp] theorem andFlags_cf : (andFlags res af f).cf = false := rfl
@[simp] theorem andFlags_of : (andFlags res af f).of = false := rfl
@[simp] theorem andFlags_sf : (andFlags res af f).sf = res.msb := rfl
@[simp] theorem andFlags_zf : (andFlags res af f).zf = (res == 0) := rfl
@[simp] theorem andFlags_pf : (andFlags res af f).pf = parityFlag res := rfl
@[simp] theorem andFlags_af : (andFlags res af f).af = af := rfl
@[simp] theorem andFlags_other : (andFlags res af f).other = f.other := rfl

end andFlags

end Sys2Proof.Machine
end

