-- ==== Sys2Proof/Laws/Ops.lean ====
section
/-! SUPPORT. One lemma per shared operation of Machine/Ops.lean: what it can do. -/

namespace Sys2Proof.Machine

/-! ## Outcomes in sequence -/

section andThen

variable {α β : Type} (r : Result α) (f : α → Result β)

@[simp] theorem andThen_next (a : α) : andThen (.next a) f = f a := rfl
@[simp] theorem andThen_fault (x : Fault) : andThen (.fault x : Result α) f = .fault x := rfl
@[simp] theorem andThen_refused (q : Refusal) : andThen (.refused q : Result α) f = .refused q := rfl

theorem andThen_eq_next (b : β) : andThen r f = .next b ↔ ∃ a, r = .next a ∧ f a = .next b := by
  cases r <;> simp [andThen]

theorem andThen_eq_fault (x : Fault) :
    andThen r f = .fault x ↔ r = .fault x ∨ ∃ a, r = .next a ∧ f a = .fault x := by
  cases r <;> simp [andThen]

theorem andThen_eq_refused (q : Refusal) :
    andThen r f = .refused q ↔ r = .refused q ∨ ∃ a, r = .next a ∧ f a = .refused q := by
  cases r <;> simp [andThen]

end andThen

section raise

variable {α : Type} (f : Word64 → Fault) (s : State)

theorem raise_eq_fault (x : Fault) : (raise f s : Result α) = .fault x ↔ f s.pc = x := by simp [raise]

@[simp] theorem raise_ne_next (a : α) : raise f s ≠ .next a := by simp [raise]

@[simp] theorem raise_ne_refused (q : Refusal) : (raise f s : Result α) ≠ .refused q := by simp [raise]

end raise

/-! ## Bit fields -/

theorem lowBits_toNat (n : Nat) (v : Word64) (h : n ≤ 64) : (lowBits n v).toNat = v.toNat % 2 ^ n := by
  have h2 : (2 : Nat) ^ n ≤ 2 ^ 64 := Nat.pow_le_pow_right (by decide) h
  have := Nat.mod_lt v.toNat (Nat.two_pow_pos n)
  simp only [lowBits, BitVec.toNat_ofNat]
  exact Nat.mod_eq_of_lt (by omega)

theorem lowBits_64 (v : Word64) : lowBits 64 v = v := by
  apply BitVec.eq_of_toNat_eq
  rw [lowBits_toNat 64 v (by decide)]
  exact Nat.mod_eq_of_lt v.isLt

theorem pcWidth_le (c : SysConfig) : pcWidth c ≤ 64 := by
  unfold pcWidth
  split <;> decide

/-- What an advance leaves in `pc` (R26). -/
theorem advance_pc_toNat (len : Nat) (s : State) :
    (advance len s).pc.toNat = (s.pc.toNat + len) % 2 ^ pcWidth s.sys := by
  have hw := pcWidth_le s.sys
  have hdvd : (2 : Nat) ^ pcWidth s.sys ∣ 2 ^ 64 := pow_dvd_pow 2 hw
  rw [advance_pc, lowBits_toNat _ _ hw, BitVec.toNat_add, BitVec.toNat_ofNat, Nat.mod_mod_of_dvd _ hdvd,
    Nat.add_mod, Nat.mod_mod_of_dvd _ hdvd, ← Nat.add_mod]

theorem advance_pc_lt (len : Nat) (s : State) : (advance len s).pc.toNat < 2 ^ pcWidth s.sys := by
  rw [advance_pc_toNat]
  exact Nat.mod_lt _ (Nat.two_pow_pos _)

/-! ## Translation -/

theorem translate_lt (c : SysConfig) (lin : Word64) (kind : AccessKind) (a : Nat)
    (h : translate c lin kind = .phys a) : a < 2 ^ 64 := by
  unfold translate at h
  split at h
  · cases h; exact lin.isLt
  · cases h; exact lin.isLt
  · unfold pageAnswer at h
    split at h
    · cases h; exact BitVec.isLt _
    · cases h

/-- `translateAll` answers the addresses that `TRANSLATE` gives byte by byte. -/
theorem translateAll_eq_next (kind : AccessKind) (s : State) (lin : Word64) (n : Nat) (as : List Nat) :
    translateAll kind s lin n = .next as ↔
      as.length = n ∧ ∀ k < n, translate s.sys (lin + BitVec.ofNat 64 k) kind = .phys (as.getD k 0) := by
  induction n generalizing lin as with
  | zero =>
    simp only [translateAll, List.length_eq_zero_iff, Host.Outcome.next.injEq, Nat.not_lt_zero, false_implies,
      implies_true, and_true]
    exact eq_comm
  | succ n ih =>
    simp only [translateAll]
    constructor
    · intro h
      split at h
      · exact absurd h (raise_ne_next _ _ _)
      · rename_i a ha
        obtain ⟨bs, hb, h2⟩ := (andThen_eq_next _ _ _).mp h
        cases h2
        obtain ⟨hl, ht⟩ := (ih _ _).mp hb
        refine ⟨by simp [hl], fun k hk => ?_⟩
        cases k with
        | zero => simpa using ha
        | succ k =>
          have := ht k (by omega)
          rw [show lin + BitVec.ofNat 64 (k + 1) = lin + 1#64 + BitVec.ofNat 64 k by
            rw [BitVec.add_assoc, show k + 1 = 1 + k by omega, BitVec.ofNat_add]]
          simpa using this
    · rintro ⟨hl, ht⟩
      cases as with
      | nil => simp at hl
      | cons a bs =>
        have h0 := ht 0 (by omega)
        simp only [BitVec.add_zero, List.getD_cons_zero] at h0
        have hb : translateAll kind s (lin + 1#64) n = .next bs := by
          refine (ih _ _).mpr ⟨by simpa using hl, fun k hk => ?_⟩
          have := ht (k + 1) (by omega)
          rw [show lin + BitVec.ofNat 64 (k + 1) = lin + 1#64 + BitVec.ofNat 64 k by
            rw [BitVec.add_assoc, show k + 1 = 1 + k by omega, BitVec.ofNat_add]] at this
          simpa using this
        simp [h0, hb]

/-- A translation that stops raises #PF at the raising instruction. -/
theorem translateAll_stops (kind : AccessKind) (s : State) (lin : Word64) (n : Nat) :
    (∃ as, translateAll kind s lin n = .next as) ∨ ∃ c r, translateAll kind s lin n = .fault (.pf c r s.pc) := by
  induction n generalizing lin with
  | zero => exact .inl ⟨[], rfl⟩
  | succ n ih =>
    simp only [translateAll]
    split
    · exact .inr ⟨_, _, rfl⟩
    · rcases ih (lin + 1#64) with ⟨as, h⟩ | ⟨c, r, h⟩ <;> simp [h]

/-! ## The checked access -/

/-- Everything an access that answers has established. -/
theorem access_eq_next (cls : AccessClass) (seg : Seg) (ea : Word64) (n : Nat) (kind : AccessKind) (s : State)
    (as : List Nat) :
    access cls seg ea n kind s = .next as ↔
      ∃ lin, linear cls seg ea n kind s = .next lin ∧ pastTop s.sys.mode lin n = false ∧
        translateAll kind s lin n = .next as ∧ alignmentCheck cls lin n s.sys = false ∧
        as.find? (inHole s.sys) = none := by
  simp only [access, andThen_eq_next]
  refine exists_congr fun lin => and_congr_right fun _ => ?_
  by_cases ht : pastTop s.sys.mode lin n = true
  · simp [ht]
  · simp only [ht, Bool.false_eq_true, if_false, andThen_eq_next, true_and]
    constructor
    · rintro ⟨bs, hb, h⟩
      by_cases ha : alignmentCheck cls lin n s.sys = true
      · simp [ha] at h
      · simp only [ha, Bool.false_eq_true, if_false] at h
        split at h
        · cases h
        · cases h
          exact ⟨hb, by simpa using ha, by assumption⟩
    · rintro ⟨hb, ha, hf⟩
      exact ⟨as, hb, by simp [ha, hf]⟩

theorem access_length (cls : AccessClass) (seg : Seg) (ea : Word64) (n : Nat) (kind : AccessKind) (s : State)
    (as : List Nat) (h : access cls seg ea n kind s = .next as) : as.length = n := by
  obtain ⟨lin, -, -, ht, -⟩ := (access_eq_next ..).mp h
  exact ((translateAll_eq_next ..).mp ht).1

/-- The addresses an access answers are physical addresses. -/
theorem access_lt (cls : AccessClass) (seg : Seg) (ea : Word64) (n : Nat) (kind : AccessKind) (s : State)
    (as : List Nat) (h : access cls seg ea n kind s = .next as) : ∀ a ∈ as, a < 2 ^ 64 := by
  obtain ⟨lin, -, -, ht, -⟩ := (access_eq_next ..).mp h
  obtain ⟨hl, hk⟩ := (translateAll_eq_next ..).mp ht
  intro a ha
  obtain ⟨k, hk', rfl⟩ := List.getElem_of_mem ha
  have := translate_lt _ _ _ _ (hk k (by omega))
  simpa [List.getD_eq_getElem?_getD, hk'] using this

/-! ## The text -/

/-- A configuration has an expand-down segment exactly when one of its six records is (D11). -/
theorem hasExpandDown_eq_true (f : SegFile) :
    hasExpandDown f = true ↔ ∃ g, (segDesc f g).expandDown = true := by
  simp only [hasExpandDown, List.any_cons, List.any_nil, Bool.or_false, Bool.or_eq_true]
  constructor
  · rintro (h | h | h | h | h | h)
    exacts [⟨.es, h⟩, ⟨.cs, h⟩, ⟨.ss, h⟩, ⟨.ds, h⟩, ⟨.fs, h⟩, ⟨.gs, h⟩]
  · rintro ⟨g, h⟩
    cases g <;> simp only [segDesc] at h <;> simp [h]

/-- Bytes are fetched under admitted configurations only (D11). -/
theorem fetch_eq_next_expandDown (s : State) (bs : List Byte) (h : fetch s = .next bs) :
    hasExpandDown s.sys.segs = false := by
  by_contra hn
  rw [Bool.not_eq_false] at hn
  simp [fetch, hn] at h

/-- An instruction is fetched exactly where the text's bytes decode (R105, R130). -/
theorem fetchInstr_eq_next (s : State) (i : Instr) :
    fetchInstr s = .next i ↔ ∃ bs rest, fetch s = .next bs ∧ decode s.sys.ctx bs = .ok (i, rest) := by
  simp only [fetchInstr, andThen_eq_next]
  constructor
  · rintro ⟨bs, hb, h⟩
    split at h
    · rename_i j rest hd
      cases h
      exact ⟨bs, rest, hb, hd⟩
    · cases h
  · rintro ⟨bs, rest, hb, hd⟩
    exact ⟨bs, hb, by simp [hd]⟩

/-- A step that answers ran one fetched instruction. -/
theorem step_eq_next (s t : State) : step s = .next t ↔ ∃ i, fetchInstr s = .next i ∧ exec i s = .next t := by
  simp only [step, andThen_eq_next]

/-- Fetching never faults (D8). -/
theorem fetchInstr_ne_fault (s : State) (x : Fault) : fetchInstr s ≠ .fault x := by
  intro h
  simp only [fetchInstr, andThen_eq_fault] at h
  rcases h with h | ⟨bs, -, h⟩
  · simp only [fetch] at h
    split_ifs at h
    split at h <;> cases h
  · split at h <;> cases h

end Sys2Proof.Machine
end

