-- ==== Sys2Proof/Laws/Operands.lean ====
section
/-! SUPPORT. Register reads and writes: which register a write touches (10_state.md R22 to R25). -/

namespace Sys2Proof.Machine

/-- The register that holds the operand of code `c` at size `z`. -/
def operandHome (z : OpSize) (rex : Bool) (c : RegCode) : RegCode :=
  match z with
  | .b8 => byteHome rex c
  | .b16 => c
  | .b32 => c
  | .b64 => c

/-- A write of a register operand leaves every other register. -/
theorem writeReg_x_other (z : OpSize) (rex : Bool) (c d : RegCode) (v : BitVec z.bits) (s : State)
    (h : d ≠ operandHome z rex c) : (writeReg z rex c v s).x[d.val] = s.x[d.val] := by
  have hv : (operandHome z rex c).val ≠ d.val := fun e => h (Fin.ext e.symm)
  cases z <;> simp only [operandHome] at hv <;> simp [writeReg, hv]

theorem writeXmm_xmm_same (c : RegCode) (v : XWord) (s : State) : (writeXmm c v s).xmm[c.val] = v := by
  simp

theorem writeXmm_xmm_other (c d : RegCode) (v : XWord) (s : State) (h : d ≠ c) :
    (writeXmm c v s).xmm[d.val] = s.xmm[d.val] := by
  have hv : c.val ≠ d.val := fun e => h (Fin.ext e.symm)
  simp [hv]

/-- What `readRm` reads: a register, or the checked bytes of memory. -/
theorem readRm_reg (z : OpSize) (p : Prefixes) (len : Nat) (r : BitVec 3) (s : State) :
    readRm z p len (.reg r) s = .next (readReg z p.rex.isSome (baseField p r) s) := rfl

theorem readRm_mem_eq_next (z : OpSize) (p : Prefixes) (len : Nat) (m : MemOp) (s : State) (v : BitVec z.bits) :
    readRm z p len (.mem m) s = .next v ↔
      ∃ as, operandAccess .and p len m z.bytes .read s = .next as ∧ loadLE z.bytes s.mem as = v := by
  simp [readRm, andThen_eq_next]

theorem readXmmRm_mem_eq_next (p : Prefixes) (len : Nat) (m : MemOp) (s : State) (v : XWord) :
    readXmmRm p len (.mem m) s = .next v ↔
      ∃ as, operandAccess .xmm p len m 16 .read s = .next as ∧ loadLE 16 s.mem as = v := by
  simp [readXmmRm, andThen_eq_next]

end Sys2Proof.Machine
end

