-- ==== Sys2Proof/Laws/Exec.lean ====
section
/-! SUPPORT. One lemma per shared operation of the meanings: when it answers a next state, and which. -/

namespace Sys2Proof.Machine

/-! ## AND (R150) -/

section AndOps

variable (z : OpSize) (p : Prefixes) (len : Nat) (s t : State)

/-- A register destination: LOCK raises #UD, else the register, the flags and `pc` are written. -/
theorem andToRm_reg (r : BitVec 3) (src : BitVec z.bits) :
    andToRm z p len (.reg r) src s =
      if p.lock then raise .ud s else .next (andIntoReg z p.rex.isSome len (baseField p r) src s) := rfl

/-- A memory destination answers exactly when the access does and the text is not touched. -/
theorem andToRm_mem_eq_next (m : MemOp) (src : BitVec z.bits) :
    andToRm z p len (.mem m) src s = .next t ↔
      ∃ as, operandAccess .and p len m z.bytes .rmw s = .next as ∧ overlapsText s as = false ∧
        t = advance len (setAndFlags (loadLE z.bytes s.mem as &&& src)
          (storeLE z.bytes as (loadLE z.bytes s.mem as &&& src) s)) := by
  simp only [andToRm, andThen_eq_next]
  refine exists_congr fun as => and_congr_right fun _ => ?_
  by_cases ho : overlapsText s as = true
  · simp [ho]
  · simp [ho, eq_comm]

theorem andAccImm_eq_next (src : BitVec z.bits) :
    andAccImm z p len src s = .next t ↔
      p.lock = false ∧ t = andIntoReg z p.rex.isSome len accumulator src s := by
  rw [eq_comm (a := t)]
  cases hp : p.lock <;> simp [andAccImm, hp]

theorem andRegRm_eq_next (reg : BitVec 3) (rm : Rm) :
    andRegRm z p len reg rm s = .next t ↔
      p.lock = false ∧ ∃ src, readRm z p len rm s = .next src ∧
        t = andIntoReg z p.rex.isSome len (regField p reg) src s := by
  simp only [eq_comm (a := t)]
  cases hp : p.lock <;> simp [andRegRm, hp, andThen_eq_next]

end AndOps

/-! ## The state an AND into a register leaves -/

section andIntoReg

variable (z : OpSize) (rex : Bool) (len : Nat) (c : RegCode) (src : BitVec z.bits) (s : State)

@[simp] theorem andIntoReg_xmm : (andIntoReg z rex len c src s).xmm = s.xmm := by simp [andIntoReg]
@[simp] theorem andIntoReg_upper : (andIntoReg z rex len c src s).upper = s.upper := by simp [andIntoReg]
@[simp] theorem andIntoReg_mem : (andIntoReg z rex len c src s).mem = s.mem := by simp [andIntoReg]
@[simp] theorem andIntoReg_text : (andIntoReg z rex len c src s).text = s.text := by simp [andIntoReg]
@[simp] theorem andIntoReg_sys : (andIntoReg z rex len c src s).sys = s.sys := by simp [andIntoReg]
@[simp] theorem andIntoReg_draws : (andIntoReg z rex len c src s).draws = s.draws + 1 := by simp [andIntoReg]
@[simp] theorem andIntoReg_x :
    (andIntoReg z rex len c src s).x = (writeReg z rex c (readReg z rex c s &&& src) s).x := by simp [andIntoReg]
@[simp] theorem andIntoReg_flags :
    (andIntoReg z rex len c src s).flags =
      andFlags (readReg z rex c s &&& src) (Config.freeAF s.draws == 1) s.flags := by simp [andIntoReg]

end andIntoReg

/-! ## The XMM instructions -/

theorem xmmChecks_eq_next (feature : Bool) (p : Prefixes) (s : State) :
    xmmChecks feature p s = .next () ↔ XmmEnabled feature p s := by
  unfold xmmChecks XmmEnabled
  cases p.lock <;> cases s.sys.cr0EM <;> cases s.sys.cr4OSFXSR <;> cases feature <;> cases s.sys.cr0TS <;>
    simp [raise]

theorem xmmInto_eq_next (feature : Bool) (f : XWord → XWord → XWord) (p : Prefixes) (len : Nat) (reg : BitVec 3)
    (rm : Rm) (s t : State) :
    xmmInto feature f p len reg rm s = .next t ↔
      XmmEnabled feature p s ∧ ∃ src, readXmmRm p len rm s = .next src ∧
        t = advance len (writeXmm (regField p reg) (f (readXmm (regField p reg) s) src) s) := by
  simp only [xmmInto, andThen_eq_next, ← xmmChecks_eq_next]
  constructor
  · rintro ⟨⟨⟩, hc, src, hs, h⟩
    exact ⟨hc, src, hs, (Host.Outcome.next.inj h).symm⟩
  · rintro ⟨hc, src, hs, rfl⟩
    exact ⟨(), hc, src, hs, rfl⟩

end Sys2Proof.Machine
end

