-- ==== Sys2Proof/Laws/PerInstr.lean ====
section
/-! SUPPORT. The per-instruction family `EncodedLength`: an instruction's encoding has as many bytes as its
parts say (30_encoding.md R90, R105). -/

namespace Sys2Proof.Laws

theorem encodePrefixes_length (p : Prefixes) : (encodePrefixes p).length = p.size := by
  obtain ⟨lock, p66, p67, seg, rex⟩ := p
  cases lock <;> cases p66 <;> cases p67 <;> cases seg <;> cases rex <;> rfl

@[simp] theorem encodeRm_length (reg : BitVec 3) (rm : Rm) : (encodeRm reg rm).length = rm.size := by
  obtain _ | m := rm
  · rfl
  · cases m with
    | mem16 _ d => cases d <;> rfl
    | direct16 => rfl
    | base _ d => cases d <;> rfl
    | disp32 => rfl
    | sib _ _ _ d => cases d <;> rfl
    | sibNoBase => rfl

@[simp] theorem bytes16_length (v : BitVec 16) : (bytes16 v).length = 2 := rfl

@[simp] theorem bytes32_length (v : BitVec 32) : (bytes32 v).length = 4 := rfl

/-- `instrLength` is the size by parts. -/
def EncodedLength.Statement (i : Instr) : Prop := instrLength i = i.size

theorem encode_length (i : Instr) : instrLength i = i.prefixes.size + (encodeBody i).length := by
  simp [instrLength, encode, encodePrefixes_length]

theorem encodedLength (i : Instr) : EncodedLength.Statement i := by
  rw [EncodedLength.Statement, encode_length, Instr.size]
  cases i <;> simp [encodeBody, Instr.prefixes, Instr.rm?, Instr.rowRule] <;> omega

namespace EncodedLength

theorem aeskeygenassist (p : Prefixes) (reg : BitVec 3) (rm : Rm) (imm : BitVec 8) :
    Statement (.aeskeygenassist p reg rm imm) :=
  encodedLength _

theorem andAlImm8 (p : Prefixes) (imm : BitVec 8) :
    Statement (.andAlImm8 p imm) :=
  encodedLength _

theorem andAxImm16 (p : Prefixes) (imm : BitVec 16) :
    Statement (.andAxImm16 p imm) :=
  encodedLength _

theorem andEaxImm32 (p : Prefixes) (imm : BitVec 32) :
    Statement (.andEaxImm32 p imm) :=
  encodedLength _

theorem andRaxImm32 (p : Prefixes) (imm : BitVec 32) :
    Statement (.andRaxImm32 p imm) :=
  encodedLength _

theorem andRm8Imm8 (p : Prefixes) (rm : Rm) (imm : BitVec 8) :
    Statement (.andRm8Imm8 p rm imm) :=
  encodedLength _

theorem andRm8Imm8Rex (p : Prefixes) (rm : Rm) (imm : BitVec 8) :
    Statement (.andRm8Imm8Rex p rm imm) :=
  encodedLength _

theorem andRm16Imm16 (p : Prefixes) (rm : Rm) (imm : BitVec 16) :
    Statement (.andRm16Imm16 p rm imm) :=
  encodedLength _

theorem andRm32Imm32 (p : Prefixes) (rm : Rm) (imm : BitVec 32) :
    Statement (.andRm32Imm32 p rm imm) :=
  encodedLength _

theorem andRm64Imm32 (p : Prefixes) (rm : Rm) (imm : BitVec 32) :
    Statement (.andRm64Imm32 p rm imm) :=
  encodedLength _

theorem andRm16Imm8 (p : Prefixes) (rm : Rm) (imm : BitVec 8) :
    Statement (.andRm16Imm8 p rm imm) :=
  encodedLength _

theorem andRm32Imm8 (p : Prefixes) (rm : Rm) (imm : BitVec 8) :
    Statement (.andRm32Imm8 p rm imm) :=
  encodedLength _

theorem andRm64Imm8 (p : Prefixes) (rm : Rm) (imm : BitVec 8) :
    Statement (.andRm64Imm8 p rm imm) :=
  encodedLength _

theorem andRm8R8 (p : Prefixes) (rm : Rm) (reg : BitVec 3) :
    Statement (.andRm8R8 p rm reg) :=
  encodedLength _

theorem andRm8R8Rex (p : Prefixes) (rm : Rm) (reg : BitVec 3) :
    Statement (.andRm8R8Rex p rm reg) :=
  encodedLength _

theorem andRm16R16 (p : Prefixes) (rm : Rm) (reg : BitVec 3) :
    Statement (.andRm16R16 p rm reg) :=
  encodedLength _

theorem andRm32R32 (p : Prefixes) (rm : Rm) (reg : BitVec 3) :
    Statement (.andRm32R32 p rm reg) :=
  encodedLength _

theorem andRm64R64 (p : Prefixes) (rm : Rm) (reg : BitVec 3) :
    Statement (.andRm64R64 p rm reg) :=
  encodedLength _

theorem andR8Rm8 (p : Prefixes) (reg : BitVec 3) (rm : Rm) :
    Statement (.andR8Rm8 p reg rm) :=
  encodedLength _

theorem andR8Rm8Rex (p : Prefixes) (reg : BitVec 3) (rm : Rm) :
    Statement (.andR8Rm8Rex p reg rm) :=
  encodedLength _

theorem andR16Rm16 (p : Prefixes) (reg : BitVec 3) (rm : Rm) :
    Statement (.andR16Rm16 p reg rm) :=
  encodedLength _

theorem andR32Rm32 (p : Prefixes) (reg : BitVec 3) (rm : Rm) :
    Statement (.andR32Rm32 p reg rm) :=
  encodedLength _

theorem andR64Rm64 (p : Prefixes) (reg : BitVec 3) (rm : Rm) :
    Statement (.andR64Rm64 p reg rm) :=
  encodedLength _

theorem andpd (p : Prefixes) (reg : BitVec 3) (rm : Rm) :
    Statement (.andpd p reg rm) :=
  encodedLength _

theorem andps (p : Prefixes) (reg : BitVec 3) (rm : Rm) :
    Statement (.andps p reg rm) :=
  encodedLength _

end EncodedLength

end Sys2Proof.Laws
end

