-- ==== Sys2Proof/Tests/Slice0.lean ====
section
/-! SUPPORT. Tests on fixed values, each from spec/95_test_vectors.md (its number is in the name) or from a rule
it cites, and one witness for the hypotheses of every statement that has some. -/

namespace Sys2Proof.Tests

open Sys2Proof.Machine

/-! ## Helpers -/

def cx64 : CodeCtx := ⟨.long64, .d32⟩
def cx32 : CodeCtx := ⟨.prot, .d32⟩
def cx16 : CodeCtx := ⟨.real, .d16⟩

def p66 : Prefixes := { noPrefixes with p66 := true }
def lockP : Prefixes := { noPrefixes with lock := true }
def rexP (w r x b : Bool) : Prefixes := { noPrefixes with rex := some ⟨w, r, x, b⟩ }
def rexW : Prefixes := rexP true false false false

/-- A flat segment of the given limit. -/
def flat (limit : BitVec 32) : SegDesc :=
  { base := 0, limit := limit, null := false, writable := true, readable := true, expandDown := false }

def flatSegs (limit : BitVec 32) : SegFile :=
  { es := flat limit, cs := flat limit, ss := flat limit, ds := flat limit, fs := flat limit, gs := flat limit }

/-- The configuration of the vectors: everything enabled, flat, level 3. -/
def conf (mode : Mode) (csD : CodeSize) : SysConfig :=
  { SysConfig.reset with
    mode := mode, csD := csD, cpl := 3, cr4OSFXSR := true
    segs := flatSegs (if mode = .real ∨ mode = .v86 then 0xFFFF else 0xFFFFFFFF) }

/-- A state with that configuration, two registers set, and `pc`. -/
def st (mode : Mode) (csD : CodeSize) (pc : Word64) (c : RegCode) (v : Word64) (d : RegCode) (w : Word64) : State :=
  { State.reset with
    sys := conf mode csD, pc := pc, text := ⟨pc, 0⟩
    x := (State.reset.x.set c.val v).set d.val w }

def s64 (c : RegCode) (v : Word64) (d : RegCode) (w : Word64) : State := st .long64 .d32 0x400000 c v d w
def s32 (c : RegCode) (v : Word64) (d : RegCode) (w : Word64) : State := st .prot .d32 0x400 c v d w
def s16 (c : RegCode) (v : Word64) (d : RegCode) (w : Word64) : State := st .real .d16 0x100 c v d w

/-- 3000H.. = `EF BE AD DE 78 56 34 12`. -/
def mem3000 : Memory :=
  [(0x3000, 0xEF), (0x3001, 0xBE), (0x3002, 0xAD), (0x3003, 0xDE), (0x3004, 0x78), (0x3005, 0x56), (0x3006, 0x34), (0x3007, 0x12)]

def withMem (m : Memory) (s : State) : State := { s with mem := m }
def withSys (f : SysConfig → SysConfig) (s : State) : State := { s with sys := f s.sys }
def withXmm (c : RegCode) (v : XWord) (d : RegCode) (w : XWord) (s : State) : State :=
  { s with xmm := (s.xmm.set c.val v).set d.val w }

/-- One step of `s` with these bytes as its text. -/
def after (s : State) (bs : List Byte) : Result State := step (placeText s bs)

/-- A field of the next state. -/
def got {α : Type} (r : Result State) (f : State → α) : Option α :=
  match r with
  | .next t => some (f t)
  | .fault _ => none
  | .refused _ => none

/-- SF, ZF, PF, CF, OF. -/
def szpco (t : State) : List Bool := [t.flags.sf, t.flags.zf, t.flags.pf, t.flags.cf, t.flags.of]

/-- How a step ends that does not go on. -/
def stop (r : Result State) : Option (Fault ⊕ Refusal) :=
  match r with
  | .next _ => none
  | .fault x => some (.inl x)
  | .refused q => some (.inr q)

/-- The bytes at `a`.. . -/
def bytesFrom (a n : Nat) (t : State) : List Byte := (List.range n).map fun k => t.mem.read (a + k)

/-! ## WellFormed: one ill-formed instruction for each check -/

theorem test_wf_plain : (Instr.andAlImm8 noPrefixes 0x0F).wf cx64 = true := by decide
theorem test_wf_refuses_rex_outside_long64 : (Instr.andAlImm8 rexW 0x0F).wf cx32 = false := by decide
theorem test_wf_refuses_cs_override_in_long64 :
    (Instr.andR32Rm32 { noPrefixes with seg := some .cs } 0 (.mem (.base 3 .none))).wf cx64 = false := by decide
theorem test_wf_refuses_rex_where_absent : (Instr.andRm8R8 rexW (.reg 0) 1).wf cx64 = false := by decide
theorem test_wf_refuses_no_rex_where_present : (Instr.andRm8R8Rex noPrefixes (.reg 0) 1).wf cx64 = false := by decide
theorem test_wf_refuses_rexw_where_w0 : (Instr.andps rexW 0 (.reg 1)).wf cx64 = false := by decide
theorem test_wf_refuses_no_rexw_where_w1 :
    (Instr.andRm64R64 (rexP false true true true) (.reg 0) 1).wf cx64 = false := by decide
theorem test_wf_refuses_no_66_where_mandatory : (Instr.andpd noPrefixes 0 (.reg 1)).wf cx64 = false := by decide
theorem test_wf_refuses_66_where_absent : (Instr.andps p66 0 (.reg 1)).wf cx64 = false := by decide
theorem test_wf_refuses_wrong_66_for_operand_size :
    (Instr.andRm16R16 noPrefixes (.reg 0) 1).wf cx64 = false ∧ (Instr.andRm16R16 p66 (.reg 0) 1).wf cx16 = false := by
  decide
theorem test_wf_refuses_mem16_in_long64 :
    (Instr.andR8Rm8 noPrefixes 0 (.mem (.mem16 0 .none))).wf cx64 = false ∧
      (Instr.andR8Rm8 noPrefixes 0 (.mem (.direct16 0))).wf cx64 = false := by decide
theorem test_wf_refuses_wide_forms_at_address_size_16 :
    (Instr.andR8Rm8 noPrefixes 0 (.mem (.base 0 .none))).wf cx16 = false ∧
      (Instr.andR8Rm8 noPrefixes 0 (.mem (.disp32 0))).wf cx16 = false ∧
      (Instr.andR8Rm8 noPrefixes 0 (.mem (.sib 0 0 0 .none))).wf cx16 = false ∧
      (Instr.andR8Rm8 noPrefixes 0 (.mem (.sibNoBase 0 0 0))).wf cx16 = false := by decide
theorem test_wf_refuses_rm6_without_disp16 :
    (Instr.andR8Rm8 noPrefixes 0 (.mem (.mem16 6 .none))).wf cx16 = false := by decide
theorem test_wf_refuses_base_rm4 : (Instr.andR8Rm8 noPrefixes 0 (.mem (.base 4 .none))).wf cx64 = false := by decide
theorem test_wf_refuses_base_rm5_without_disp :
    (Instr.andR8Rm8 noPrefixes 0 (.mem (.base 5 .none))).wf cx64 = false := by decide
theorem test_wf_refuses_sib_base5_without_disp :
    (Instr.andR8Rm8 noPrefixes 0 (.mem (.sib 0 0 5 .none))).wf cx64 = false := by decide

/-- F0 66 67 64 48 81 /4 SIB disp32 imm32: 16 bytes (R114). -/
def sixteenBytes : Instr :=
  .andRm64Imm32 ⟨true, true, true, some .fs, some ⟨true, false, false, false⟩⟩ (.mem (.sib 0 4 4 (.full 0))) 0

theorem test_wf_refuses_sixteen_bytes : sixteenBytes.wf cx64 = false ∧ sixteenBytes.size = 16 := by decide
theorem test_decode_refuses_sixteen_bytes :
    decode cx64 [0xF0, 0x66, 0x67, 0x64, 0x48, 0x81, 0xA4, 0x24, 0, 0, 0, 0, 0, 0, 0, 0] = .error .tooLong := by decide

/-! ## Decoding: every constructor, from 95_test_vectors.md section 2 or R119 -/

theorem test_decode_aeskeygenassist_E28 : decode cx64 [0x66, 0x0F, 0x3A, 0xDF, 0xC1, 0x10] =
    .ok (.aeskeygenassist p66 0 (.reg 1) 0x10, []) := by decide
theorem test_decode_andAlImm8_E1 : decode cx64 [0x24, 0x0F] = .ok (.andAlImm8 noPrefixes 0x0F, []) := by decide
theorem test_decode_andAxImm16_E2 : decode cx64 [0x66, 0x25, 0x34, 0x12] = .ok (.andAxImm16 p66 0x1234, []) := by decide
theorem test_decode_andEaxImm32_E4 : decode cx64 [0x25, 0x78, 0x56, 0x34, 0x12] =
    .ok (.andEaxImm32 noPrefixes 0x12345678, []) := by decide
theorem test_decode_andEaxImm32_E5 : decode cx16 [0x66, 0x25, 0x78, 0x56, 0x34, 0x12] =
    .ok (.andEaxImm32 p66 0x12345678, []) := by decide
theorem test_decode_andRaxImm32_E6 : decode cx64 [0x48, 0x25, 0x00, 0x00, 0x00, 0x80] =
    .ok (.andRaxImm32 rexW 0x80000000, []) := by decide
theorem test_decode_andRm8Imm8_E7 : decode cx32 [0x80, 0xE4, 0x0F] =
    .ok (.andRm8Imm8 noPrefixes (.reg 4) 0x0F, []) := by decide
theorem test_decode_andRm8Imm8Rex_E9 : decode cx64 [0x41, 0x80, 0xE4, 0x0F] =
    .ok (.andRm8Imm8Rex (rexP false false false true) (.reg 4) 0x0F, []) := by decide
theorem test_decode_andRm16Imm16_E11 : decode cx64 [0x66, 0x81, 0xE1, 0xFF, 0x00] =
    .ok (.andRm16Imm16 p66 (.reg 1) 0xFF, []) := by decide
theorem test_decode_andRm32Imm32_E10 : decode cx64 [0x81, 0xE1, 0xFF, 0x00, 0x00, 0x00] =
    .ok (.andRm32Imm32 noPrefixes (.reg 1) 0xFF, []) := by decide
theorem test_decode_andRm64Imm32_E12 : decode cx64 [0x48, 0x81, 0xE1, 0x00, 0xFF, 0xFF, 0xFF] =
    .ok (.andRm64Imm32 rexW (.reg 1) 0xFFFFFF00, []) := by decide
theorem test_decode_andRm16Imm8_E15 : decode cx64 [0x66, 0x83, 0xE0, 0x80] =
    .ok (.andRm16Imm8 p66 (.reg 0) 0x80, []) := by decide
theorem test_decode_andRm32Imm8_E13 : decode cx64 [0x83, 0xE4, 0xF0] =
    .ok (.andRm32Imm8 noPrefixes (.reg 4) 0xF0, []) := by decide
theorem test_decode_andRm64Imm8_E14 : decode cx64 [0x48, 0x83, 0xE4, 0xF0] =
    .ok (.andRm64Imm8 rexW (.reg 4) 0xF0, []) := by decide
theorem test_decode_andRm8R8_E16 : decode cx64 [0x20, 0xD8] = .ok (.andRm8R8 noPrefixes (.reg 0) 3, []) := by decide
theorem test_decode_andRm8R8Rex_R119 : decode cx64 [0x44, 0x20, 0xD8] =
    .ok (.andRm8R8Rex (rexP false true false false) (.reg 0) 3, []) := by decide
theorem test_decode_andRm16R16_E25 : decode cx16 [0x21, 0x46, 0x02] =
    .ok (.andRm16R16 noPrefixes (.mem (.mem16 6 (.d8 2))) 0, []) := by decide
theorem test_decode_andRm32R32_E17 : decode cx64 [0x21, 0xC8] = .ok (.andRm32R32 noPrefixes (.reg 0) 1, []) := by decide
theorem test_decode_andRm32R32_E26 : decode cx64 [0x64, 0x21, 0x03] =
    .ok (.andRm32R32 { noPrefixes with seg := some .fs } (.mem (.base 3 .none)) 0, []) := by decide
theorem test_decode_andRm64R64_E18 : decode cx64 [0x4D, 0x21, 0xC8] =
    .ok (.andRm64R64 (rexP true true false true) (.reg 0) 1, []) := by decide
theorem test_decode_andR8Rm8_E19 : decode cx64 [0x22, 0x03] =
    .ok (.andR8Rm8 noPrefixes 0 (.mem (.base 3 .none)), []) := by decide
theorem test_decode_andR8Rm8Rex_R119 : decode cx64 [0x41, 0x22, 0x03] =
    .ok (.andR8Rm8Rex (rexP false false false true) 0 (.mem (.base 3 .none)), []) := by decide
theorem test_decode_andR16Rm16_E24 : decode cx16 [0x23, 0x07] =
    .ok (.andR16Rm16 noPrefixes 0 (.mem (.mem16 7 .none)), []) := by decide
theorem test_decode_andR32Rm32_E20 : decode cx64 [0x23, 0x04, 0x25, 0x00, 0x10, 0x00, 0x00] =
    .ok (.andR32Rm32 noPrefixes 0 (.mem (.sibNoBase 0 4 0x1000)), []) := by decide
theorem test_decode_andR32Rm32_E22 : decode cx32 [0x23, 0x05, 0x10, 0x00, 0x00, 0x00] =
    .ok (.andR32Rm32 noPrefixes 0 (.mem (.disp32 0x10)), []) := by decide
theorem test_decode_andR64Rm64_E33 : decode cx64 [0x48, 0x23, 0x44, 0x8B, 0xF8] =
    .ok (.andR64Rm64 rexW 0 (.mem (.sib 2 1 3 (.d8 0xF8))), []) := by decide
theorem test_decode_andpd_E32 : decode cx64 [0x66, 0x44, 0x0F, 0x54, 0xC9] =
    .ok (.andpd { rexP false true false false with p66 := true } 1 (.reg 1), []) := by decide
theorem test_decode_andps_E30 : decode cx32 [0x0F, 0x54, 0x00] =
    .ok (.andps noPrefixes 0 (.mem (.base 0 .none)), []) := by decide

/-! The refused byte strings of 95_test_vectors.md. -/

theorem test_refused_X1 : decode cx64 [0x90] = .error .notARow := by decide
theorem test_refused_X2 : decode cx64 [0x80, 0xC0, 0x01] = .error .notARow := by decide
theorem test_refused_X3 : decode cx64 [0xF3, 0x0F, 0x54, 0xC1] = .error .repPrefix := by decide
theorem test_refused_X4 : decode cx64 [0x66, 0x48, 0x0F, 0x54, 0xC1] = .error .rexWOnXmm := by decide
theorem test_refused_X5 : decode cx64 [0x48, 0x66, 0x25, 0x34, 0x12] = .error .rexNotLast := by decide
theorem test_refused_X6 : decode cx64 [0x2E, 0x23, 0x03] = .error .segmentOverrideIn64Bit := by decide
theorem test_refused_X7 : decode cx32 [0x48, 0x25, 0xF0, 0xFF, 0xFF, 0xFF] = .error .notARow := by decide
theorem test_refused_X8 : decode cx64 [0x0F, 0x3A, 0xDF, 0xC1, 0x10] = .error .mandatory66Missing := by decide
theorem test_refused_X9 : decode cx64 [0x66, 0x66, 0x25, 0x34, 0x12] = .error .repeatedPrefix := by decide
theorem test_refused_X10 : decode cx64 [0x25, 0x78, 0x56] = .error .truncated := by decide
theorem test_refused_two_overrides : decode cx32 [0x26, 0x3E, 0x23, 0x03] = .error .twoSegmentOverrides := by decide

/-! The opcode table's words (R134), right after reset. -/

theorem test_table_word_and : decodeTableWord 8 0x24 = some (.andAlImm8 noPrefixes 0) := by decide
theorem test_table_word_aes : decodeTableWord 24 0x0F3ADF =
    some (.aeskeygenassist p66 0 (.mem (.mem16 0 .none)) 0) := by decide
theorem test_table_word_runs : got (step (State.reset.withFetchWord 8 0x24)) (·.pc) = some 0xFFF2 := by decide

/-! ## One step -/

def raxW : Word64 := 0x1122334455667788

theorem test_step_andAlImm8_W1 :
    got (after (s64 0 raxW 1 0) [0x24, 0x0F]) (fun t => (t.x[0], t.pc, szpco t)) =
      some (0x1122334455667708, 0x400002, [false, false, false, false, false]) := by decide
theorem test_step_andAxImm16_W3 :
    got (after (s64 0 raxW 1 0) [0x66, 0x25, 0xF0, 0xF0]) (fun t => (t.x[0], szpco t)) =
      some (0x1122334455667080, [false, false, false, false, false]) := by decide
theorem test_step_andEaxImm32_W4 :
    got (after (s64 0 raxW 1 0) [0x25, 0xFF, 0xFF, 0x00, 0x00]) (fun t => (t.x[0], szpco t)) =
      some (0x7788, [false, false, true, false, false]) := by decide
theorem test_step_andRaxImm32_A12 :
    got (after (s64 0 0xFFFFFFFFFFFFFFFF 1 0) [0x48, 0x25, 0x00, 0x00, 0x00, 0x80]) (fun t => (t.x[0], szpco t)) =
      some (0xFFFFFFFF80000000, [true, false, true, false, false]) := by decide
theorem test_step_andRm8Imm8_W2 :
    got (after (s64 0 raxW 1 0) [0x80, 0xE4, 0x0F]) (fun t => (t.x[0], szpco t)) =
      some (0x1122334455660788, [false, false, false, false, false]) := by decide
theorem test_step_andRm8Imm8_M5 :
    got (after (withMem mem3000 (s64 3 0x3000 1 0)) [0xF0, 0x80, 0x23, 0xF0])
      (fun t => (bytesFrom 0x3000 2 t, szpco t)) =
      some ([0xE0, 0xBE], [true, false, false, false, false]) := by decide
theorem test_step_andRm8Imm8Rex_W9 :
    got (after (s64 4 0x00007FFF12345678 1 0) [0x40, 0x80, 0xE4, 0x0F]) (fun t => t.x[4]) =
      some 0x00007FFF12345608 := by decide
theorem test_step_andRm16Imm16_E11 :
    got (after (s64 1 raxW 0 0) [0x66, 0x81, 0xE1, 0xFF, 0x00]) (fun t => (t.x[1], t.pc)) =
      some (0x1122334455660088, 0x400005) := by decide
theorem test_step_andRm32Imm32_E10 :
    got (after (s64 1 raxW 0 0) [0x81, 0xE1, 0xFF, 0x00, 0x00, 0x00]) (fun t => t.x[1]) = some 0x88 := by decide
theorem test_step_andRm64Imm32_E12 :
    got (after (s64 1 raxW 0 0) [0x48, 0x81, 0xE1, 0x00, 0xFF, 0xFF, 0xFF]) (fun t => t.x[1]) =
      some 0x1122334455667700 := by decide
theorem test_step_andRm16Imm8_M4 :
    got (after (withMem mem3000 (s64 3 0x3000 1 0)) [0x66, 0x83, 0x23, 0x0F])
      (fun t => (bytesFrom 0x3000 3 t, szpco t)) =
      some ([0x0F, 0x00, 0xAD], [false, false, true, false, false]) := by decide
theorem test_step_andRm32Imm8_W7 :
    got (after (s64 4 0x00007FFF12345678 1 0) [0x83, 0xE4, 0xF0]) (fun t => t.x[4]) = some 0x12345670 := by decide
theorem test_step_andRm64Imm8_W8 :
    got (after (s64 4 0x00007FFF12345678 1 0) [0x48, 0x83, 0xE4, 0xF0]) (fun t => t.x[4]) =
      some 0x00007FFF12345670 := by decide
theorem test_step_andRm8R8_A1 :
    got (after (s64 0 0xFF 3 0xFF00) [0x20, 0xD8]) (fun t => (t.x[0], szpco t)) =
      some (0, [false, true, true, false, false]) := by decide
theorem test_step_andRm8R8Rex_R173 :
    got (after (s64 0 0xFF 11 0x80) [0x44, 0x20, 0xD8]) (fun t => (t.x[0], szpco t)) =
      some (0x80, [true, false, false, false, false]) := by decide
theorem test_step_andRm16R16_A8 :
    got (after (s64 0 0x1234 1 0x0FF0) [0x66, 0x21, 0xC8]) (fun t => (t.x[0], szpco t)) =
      some (0x0230, [false, false, true, false, false]) := by decide
theorem test_step_andRm32R32_M1 :
    got (after (withMem mem3000 (s64 3 0x3000 0 0xFFFF)) [0x21, 0x03])
      (fun t => (bytesFrom 0x3000 5 t, szpco t)) =
      some ([0xEF, 0xBE, 0, 0, 0x78], [false, false, false, false, false]) := by decide
theorem test_step_andRm32R32_W6 :
    got (after (s64 3 0xFFFFFFFFFFFFFFFF 1 0) [0x21, 0xDB]) (fun t => (t.x[3], szpco t)) =
      some (0xFFFFFFFF, [true, false, true, false, false]) := by decide
theorem test_step_andRm64R64_M3 :
    got (after (withMem mem3000 (s64 3 0x3000 1 0xFF00FF00FF00FF00)) [0x48, 0x21, 0x0B])
      (fun t => (bytesFrom 0x3000 8 t, szpco t)) =
      some ([0x00, 0xBE, 0x00, 0xDE, 0x00, 0x56, 0x00, 0x12], [false, false, true, false, false]) := by decide
theorem test_step_andR8Rm8_E19 :
    got (after (withMem mem3000 (s64 3 0x3000 0 0x10F)) [0x22, 0x03]) (fun t => t.x[0]) = some 0x10F := by decide
theorem test_step_andR8Rm8Rex_R173 :
    got (after (withMem mem3000 (s64 11 0x3001 0 0xFF)) [0x41, 0x22, 0x03]) (fun t => t.x[0]) = some 0xBE := by decide
theorem test_step_andR16Rm16_E24 :
    got (after (withMem mem3000 (s16 3 0x3000 0 0xFFFFFF)) [0x23, 0x07]) (fun t => (t.x[0], t.pc)) =
      some (0xFFBEEF, 0x102) := by decide
theorem test_step_andR32Rm32_M7 :
    got (after (withMem mem3000 (s64 3 0x3000 0 0xFFFF)) [0x23, 0x43, 0x01]) (fun t => (t.x[0], szpco t)) =
      some (0xADBE, [false, false, true, false, false]) ∧
    stop (after (withSys (fun c => { c with acEnabled := true }) (withMem mem3000 (s64 3 0x3000 0 0xFFFF)))
      [0x23, 0x43, 0x01]) = some (.inl (.ac (some 0) 0x400000)) := by decide
theorem test_step_andR64Rm64_E33 :
    got (after (withMem mem3000 (s64 3 0x3000 1 2)) [0x48, 0x23, 0x5C, 0x8B, 0xF8]) (fun t => t.x[3]) =
      some 0x3000 := by decide
theorem test_step_aeskeygenassist_K1 :
    got (after (withXmm 1 0x3C4FCF098815F7ABA6D2AE2816157E2B 0 0 (s64 0 0 1 0)) [0x66, 0x0F, 0x3A, 0xDF, 0xC1, 0x01])
      (fun t => (t.xmm[0], t.flags)) =
      some (0x01EB848BEB848A013424B5E524B5E434, State.reset.flags) := by decide
theorem test_step_andpd_V1 :
    got (after (withXmm 0 0xC008000000000000BFF0000000000000 1 0x7FFFFFFFFFFFFFFF7FFFFFFFFFFFFFFF (s64 0 0 1 0))
      [0x66, 0x0F, 0x54, 0xC1]) (fun t => t.xmm[0]) = some 0x40080000000000003FF0000000000000 := by decide
theorem test_step_andps_V2 :
    got (after (withXmm 0 0xBF800000C000000040400000FFFFFFFF 1 0x7FFFFFFF7FFFFFFF7FFFFFFF7FFFFFFF (s64 0 0 1 0))
      [0x0F, 0x54, 0xC1]) (fun t => t.xmm[0]) = some 0x3F80000040000000404000007FFFFFFF := by decide

/-! ## Exceptions -/

theorem test_fault_UD2 : stop (after (s64 3 0x3000 0 0) [0xF0, 0x23, 0x03]) = some (.inl (.ud 0x400000)) := by decide
theorem test_fault_UD7 :
    stop (after (withSys (fun c => { c with cr0EM := true, cr0TS := true }) (s64 0 0 1 0)) [0x0F, 0x54, 0xC1]) =
      some (.inl (.ud 0x400000)) := by decide
theorem test_fault_NM1 :
    stop (after (withSys (fun c => { c with cr0TS := true }) (s64 0 0 1 0)) [0x66, 0x0F, 0x3A, 0xDF, 0xC1, 0x00]) =
      some (.inl (.nm 0x400000)) := by decide
theorem test_fault_F2 : stop (after (s64 5 0x800000000000 0 0) [0x21, 0x45, 0x00]) =
    some (.inl (.ss (some 0) 0x400000)) := by decide
theorem test_fault_F3 : stop (after (s64 3 0x7FFFFFFFFFFD 0 0) [0x21, 0x03]) =
    some (.inl (.gp (some 0) 0x400000)) := by decide
theorem test_fault_F4 :
    stop (after (withSys (fun c => { c with segs := { flatSegs 0xFFFF with cs := flat 0xFFFFFFFF } }) (s32 3 0xFFFD 0 0))
      [0x21, 0x03]) = some (.inl (.gp (some 0) 0x400)) := by decide
theorem test_fault_F7 : stop (after (s16 5 0xFFFF 0 0) [0x21, 0x46, 0x00]) = some (.inl (.ss none 0x100)) := by decide
theorem test_fault_F8 :
    stop (after (withSys (fun c => { c with pages := [⟨0x3000, 0x1000, .fault 5 0x3000, .fault 7 0x3000⟩] })
      (s64 3 0x3FFF 0 0)) [0x20, 0x03]) = some (.inl (.pf 7 0x3FFF 0x400000)) := by decide
theorem test_fault_xmm_alignment : stop (after (s64 7 0x2008 0 0) [0x66, 0x0F, 0x54, 0x17]) =
    some (.inl (.gp (some 0) 0x400000)) := by decide
theorem test_fault_xmm_real_offset : stop (after (s16 3 0xFFF8 0 0) [0x0F, 0x54, 0x07]) =
    some (.inl (.gp none 0x100)) := by decide

/-- The last byte of the text at the top of 16-bit `pc` (R26): `pc` becomes 0 and the text has ended (R253). -/
theorem test_pc_wraps :
    got (after (st .real .d16 0xFFFE 0 0xFF 1 0) [0x24, 0x0F]) (fun t => (t.pc, stop (step t))) =
      some (0, some (.inr .endOfText)) := by decide

/-- A store into the program text is refused (R82). -/
theorem test_store_into_text : stop (after (s64 3 0x400001 0 0) [0x20, 0x03]) =
    some (.inr .storeIntoText) := by decide

/-! ## Witnesses: for every statement with hypotheses, states and operands that meet all of them -/

/-- `24 0F` at `pc` in the text of a 64-bit run. -/
def sAnd : State := placeText (s64 0 raxW 1 0) [0x24, 0x0F]

/-- RBX = 3000H, and the eight bytes there. -/
def sMem : State := withMem mem3000 (s64 3 0x3000 0 0xFFFF)

def memRbx : MemOp := .base 3 .none

theorem next_of_got {r : Result State} (h : (got r fun _ => ()) = some ()) : ∃ t, r = .next t := by
  cases r with
  | next t => exact ⟨t, rfl⟩
  | fault => cases h
  | refused => cases h

/-- 15 bytes, the longest: 66 67 64 48 81 /4 SIB disp32 imm32. -/
theorem witness_DecodeEncodeAgree :
    (Instr.andRm64Imm32 ⟨false, true, true, some .fs, some ⟨true, false, false, false⟩⟩
      (.mem (.sib 0 4 4 (.full 0))) 0).wf cx64 = true ∧
    (Instr.andR16Rm16 noPrefixes 0 (.mem (.mem16 6 (.d8 0)))).wf cx16 = true := by decide
theorem witness_DecodedIsWellFormed : decode cx64 [0x24, 0x0F, 0x90] = .ok (.andAlImm8 noPrefixes 0x0F, [0x90]) := by
  decide
theorem witness_DecodedLengthIsConsumed :
    decode cx64 [0x66, 0x67, 0x64, 0x48, 0x81, 0xA4, 0x24, 0, 0, 0, 0, 0, 0, 0, 0, 0x90] =
      .ok (.andRm64Imm32 ⟨false, true, true, some .fs, some ⟨true, false, false, false⟩⟩
        (.mem (.sib 0 4 4 (.full 0))) 0, [0x90]) := by decide
theorem witness_RexRowsOnlyIn64BitMode :
    cx32.mode ≠ .long64 ∧ decode cx32 [0x24, 0x0F] = .ok (.andAlImm8 noPrefixes 0x0F, []) ∧
    (∀ q ∈ ([0x66] : List Byte), (prefixByte? q).isSome = true) ∧
    0x40 ≤ (0x40 : Byte).toNat ∧ (0x4F : Byte).toNat ≤ 0x4F := by decide
theorem witness_NeighbouringEncodingsRefused :
    (∀ q ∈ ([0x66, 0xF2, 0x4F] : List Byte), (prefixByte? q).isSome = true ∨ isRexByte q = true) ∧
    (0xF2 : Byte) ∈ ([0x66, 0xF2, 0x4F] : List Byte) ∧ (0x66 : Byte) ∉ ([0xF2, 0x40] : List Byte) ∧
    (0x82 : Byte) ∈ ([0x82, 0xA8, 0xA9, 0x84, 0x85, 0xC4, 0xC5, 0x62] : List Byte) ∧
    (0x83 : Byte) ∈ ([0x80, 0x81, 0x83] : List Byte) ∧
    (0xD8 : Byte).extractLsb' 3 3 ≠ 4 ∧ (0xE8 : Byte).extractLsb' 3 3 ≠ 4 := by decide
theorem witness_LegacyPrefixOrderIrrelevant :
    [0xF0, 0x66, (0x64 : Byte)].Perm [0x64, 0xF0, 0x66] ∧
    (∀ b ∈ [0xF0, 0x66, (0x64 : Byte)], (prefixByte? b).isSome = true) ∧
    decode cx64 ([0xF0, 0x66, 0x64] ++ [0x21, 0x03]) =
      .ok (.andRm16R16 ⟨true, true, false, some .fs, none⟩ (.mem memRbx) 0, []) := by decide

theorem witness_StepRunsTheDecodedInstruction :
    fetch sAnd = .next [0x24, 0x0F] ∧ decode sAnd.sys.ctx [0x24, 0x0F] = .ok (.andAlImm8 noPrefixes 0x0F, []) :=
  ⟨rfl, by decide⟩
theorem witness_StepRunsTheBytesInTheText :
    (Instr.andAlImm8 noPrefixes 0x0F).wf sAnd.sys.ctx = true ∧
    (∀ g, (segDesc sAnd.sys.segs g).expandDown = false) ∧
    sAnd.text.start.toNat + sAnd.text.length ≤ 2 ^ pcWidth sAnd.sys ∧ sAnd.text.length < 2 ^ pcWidth sAnd.sys ∧
    sAnd.text.start.toNat ≤ sAnd.pc.toNat ∧
    sAnd.pc.toNat + instrLength (.andAlImm8 noPrefixes 0x0F) ≤ sAnd.text.start.toNat + sAnd.text.length ∧
    ∀ k < min 16 (sAnd.text.start.toNat + sAnd.text.length - sAnd.pc.toNat),
      ∃ a, codeAddr sAnd (sAnd.pc + BitVec.ofNat 64 k) = some a ∧
        (k < instrLength (.andAlImm8 noPrefixes 0x0F) →
          sAnd.mem.read a = (encode (.andAlImm8 noPrefixes 0x0F)).getD k 0) := by
  refine ⟨by decide, fun g => by cases g <;> rfl, by decide, by decide, by decide, by decide, fun k hk => ?_⟩
  have hk2 : k < 2 := hk
  interval_cases k
  · exact ⟨0x400000, by decide⟩
  · exact ⟨0x400001, by decide⟩
theorem witness_EndOfTextStops :
    (∀ g, (segDesc State.reset.sys.segs g).expandDown = false) ∧
    State.reset.text.start.toNat + State.reset.text.length ≤ 2 ^ pcWidth State.reset.sys ∧
    State.reset.text.length < 2 ^ pcWidth State.reset.sys ∧
    State.reset.pc.toNat =
      (State.reset.text.start.toNat + State.reset.text.length) % 2 ^ pcWidth State.reset.sys :=
  ⟨fun g => by cases g <;> rfl, by decide⟩
theorem witness_UndecodableBytesRefused :
    fetch (placeText (s64 0 0 1 0) [0x90]) = .next [0x90] ∧
    decode (placeText (s64 0 0 1 0) [0x90]).sys.ctx [0x90] = .error .notARow := by
  repeat' apply And.intro
  all_goals first | decide | rfl

theorem witness_StepKeepsTheInvariant : sAnd.Inv ∧ ∃ t, step sAnd = .next t :=
  ⟨by decide, next_of_got (by decide)⟩
theorem witness_NoStepChangesTheConfiguration : ∃ t, step sAnd = .next t := next_of_got (by decide)
theorem witness_ProgramTextIsConstant :
    (∃ t, step sAnd = .next t) ∧ 1 < sAnd.text.length ∧
    codeAddr sAnd (sAnd.text.start + BitVec.ofNat 64 1) = some 0x400001 := ⟨next_of_got (by decide), by decide⟩
theorem witness_EveryFaultIsListed :
    exec (.andAlImm8 lockP 0) sAnd = .fault (.ud 0x400000) ∧
    exec (.andR16Rm16 noPrefixes 0 (.mem (.mem16 6 (.d8 0)))) (s16 5 0xFFFF 0 0) = .fault (.ss none 0x100) := by
  repeat' apply And.intro
  all_goals first | decide | rfl
theorem witness_CompletedInstructionAdvancesPc : ∃ t, exec (.andAlImm8 noPrefixes 0x0F) sAnd = .next t :=
  next_of_got (by decide)

/-! ### Memory accesses -/

/-- DS holding these Booleans, in 32-bit protected mode. -/
def sDs (null writable readable expandDown : Bool) : State :=
  withSys (fun c => { c with segs := { flatSegs 0xFFFF with ds := ⟨0, 0xFFFF, null, writable, readable, expandDown⟩ } })
    (s32 3 0x3000 0 0)

set_option synthInstance.maxHeartbeats 400000 in
set_option synthInstance.maxSize 1000 in
theorem witness_AccessAnswersExactlyWhenOk :
    AccessOk .and .ds 0x3000 4 .rmw sMem [0x3000, 0x3001, 0x3002, 0x3003] ∧
    AccessOk .xmm .ds 0xFFF0 16 .read (s16 3 0 0 0) ((List.range 16).map (0xFFF0 + ·)) ∧
    ¬AccessOk .xmm .ds 0xFFF1 16 .read (s16 3 0 0 0) ((List.range 16).map (0xFFF1 + ·)) := by decide
/-- In order: past the top, the last bytes of the space, the last canonical byte below, beyond it in DS and SS. -/
theorem witness_LinearAddressIn64BitMode :
    sMem.sys.mode = .long64 ∧ (0xFFFFFFFFFFFFFFFD : Word64).toNat + 4 - 1 > 2 ^ 64 - 1 ∧
    segLinear .and .ds 0xFFFFFFFFFFFFFFFC 4 .read sMem = .next 0xFFFFFFFFFFFFFFFC ∧
    segLinear .and .ds 0x7FFFFFFFFFFF 1 .read sMem = .next 0x7FFFFFFFFFFF ∧
    segLinear .and .ds 0x7FFFFFFFFFFF 2 .read sMem = .fault (.gp (some 0) 0x400000) ∧
    segLinear .and .ss 0x7FFFFFFFFFFF 2 .read sMem = .fault (.ss (some 0) 0x400000) ∧
    segLinear .and .ds 0xFFFF800000000000 1 .read sMem = .next 0xFFFF800000000000 := by
  repeat' apply And.intro
  all_goals first | decide | rfl
/-- In order: NULL, not writable, not readable in DS and SS for both classes, expand-down, the limit. -/
theorem witness_ProtectedModeSegmentChecks :
    (sDs false true true false).sys.mode = .prot ∧
    segLinear .and .ds 0 1 .read (sDs true true true false) = .fault (.gp (some 0) 0x400) ∧
    segLinear .and .ds 0 1 .rmw (sDs false false true false) = .fault (.gp (some 0) 0x400) ∧
    segLinear .and .ds 0 1 .read (sDs false true false false) = .fault (.gp (some 0) 0x400) ∧
    segLinear .xmm .ss 0 16 .read (withSys (fun c => { c with segs := { c.segs with ss := ⟨0, 0, false, true, false, false⟩ } })
      (s32 3 0 0 0)) = .fault (.ss (some 0) 0x400) ∧
    segLinear .and .ds 0 1 .read (sDs false true true true) = .refused .expandDownSegment ∧
    segLinear .and .ds 0xFFFC 4 .read (sDs false true true false) = .next 0xFFFC ∧
    segLinear .and .ds 0xFFFD 4 .read (sDs false true true false) = .fault (.gp (some 0) 0x400) ∧
    segLinear .and .ss 0xFFFD 4 .read (sDs false true true false) = .fault (.ss (some 0) 0x400) := by
  repeat' apply And.intro
  all_goals first | decide | rfl
/-- Real-address mode, then virtual-8086 mode, at the limit. -/
theorem witness_RealModeSegmentChecks :
    segLinear .and .ds 0xFFFE 2 .read (s16 0 0 1 0) = .next 0xFFFE ∧
    segLinear .and .ds 0xFFFF 2 .read (s16 0 0 1 0) = .fault (.gp none 0x100) ∧
    segLinear .and .ss 0xFFFF 2 .read (s16 0 0 1 0) = .fault (.ss none 0x100) ∧
    segLinear .and .ss 0xFFFF 2 .read (st .v86 .d16 0x100 0 0 1 0) = .fault (.ss (some 0) 0x100) ∧
    segLinear .xmm .ss 0xFFF0 16 .read (s16 0 0 1 0) = .next 0xFFF0 ∧
    segLinear .xmm .ss 0xFFF1 16 .read (s16 0 0 1 0) = .fault (.gp none 0x100) ∧
    segLinear .and .ds 0 2 .read
      (withSys (fun c => { c with segs := { c.segs with ds := ⟨0, 0, false, true, true, true⟩ } }) (s16 0 0 1 0)) =
        .refused .expandDownSegment := by
  repeat' apply And.intro
  all_goals first | decide | rfl
/-- DS in protected mode, and GS in 64-bit mode. -/
theorem witness_ExpandDownConfigurationRefused :
    (segDesc (sDs false true true true).sys.segs .ds).expandDown = true ∧
    (segDesc (withSys (fun c => { c with segs := { c.segs with gs := ⟨0, 0, false, true, true, true⟩ } }) sMem).sys.segs
      .gs).expandDown = true := by decide
/-- A register form is refused as well: the configuration is (D11). -/
theorem test_expand_down_configuration :
    stop (after (sDs false true true true) [0x24, 0x0F]) = some (.inr .expandDownSegment) ∧
    (got (after (sDs false true true false) [0x24, 0x0F]) (·.pc)) = some 0x402 := by decide
theorem witness_XmmOperandAlignment :
    segLinear .xmm .ds 0x3000 16 .read sMem = .next 0x3000 ∧ segLinear .xmm .ds 0x3001 16 .read sMem = .next 0x3001 ∧
    segLinear .xmm .ss 1 16 .read (s16 0 0 1 0) = .next 1 := by
  repeat' apply And.intro
  all_goals first | decide | rfl
/-- The second byte is on a page that faults. -/
theorem witness_LowestFaultingByteRaisesPageFault :
    ∃ s : State, linear .and .ds 0x3FFF 2 .rmw s = .next 0x3FFF ∧
      (0x3FFF : Word64).toNat + 2 ≤ 2 ^ linWidth s.sys.mode ∧
      translate s.sys (0x3FFF + BitVec.ofNat 64 0) .rmw = .phys 0x3FFF ∧
      translate s.sys (0x3FFF + BitVec.ofNat 64 1) .rmw = .pageFault 7 0x4000 :=
  ⟨withSys (fun c => { c with pages := [⟨0x4000, 0x1000, .fault 5 0x4000, .fault 7 0x4000⟩] }) (s64 3 0 0 0),
    by
      repeat' apply And.intro
      all_goals first | decide | rfl⟩
/-- Level 3 and level 0, at an address that is no multiple of 4. -/
theorem witness_AlignmentCheckOfAnd :
    ∃ s : State, linear .and .ds 0x3001 4 .read s = .next 0x3001 ∧
      (0x3001 : Word64).toNat + 4 ≤ 2 ^ linWidth s.sys.mode ∧
      translateAll .read s 0x3001 4 = .next [0x3001, 0x3002, 0x3003, 0x3004] ∧
      AlignmentFault .and 0x3001 4 s ∧ ¬AlignmentFault .and 0x3001 4 (s.withCpl 0) ∧ ¬AlignmentFault .and 0x3000 4 s :=
  ⟨withSys (fun c => { c with acEnabled := true }) sMem, rfl, by decide, rfl, by decide⟩
theorem witness_BytesAreLittleEndian :
    [0x3000, 0x3001].length = 2 ∧ [0x3000, 0x3001].Nodup ∧ Memory.wf sMem.mem := by decide

/-! ### Operands -/

theorem witness_RipRelativeAddress :
    sMem.sys.mode = .long64 ∧ (s32 0 0 1 0).sys.mode ≠ .long64 ∧
    (effectiveAddr noPrefixes 6 (.disp32 0x10) sMem) = 0x400016 ∧
    (effectiveAddr noPrefixes 6 (.disp32 0xFFFFFFF0) sMem) = 0x3FFFF6 ∧
    (effectiveAddr noPrefixes 6 (.disp32 0x10) (s32 0 0 1 0)) = 0x10 := by decide
theorem witness_BaseAndSibAddresses :
    wideAddr false sMem = 64 ∧ wideAddr true sMem = 32 ∧
    effectiveAddr { noPrefixes with p67 := true } 3 (.base 7 .none) (s64 7 0x123456789 0 0) = 0x23456789 ∧
    effectiveAddr noPrefixes 3 (.base 7 (.d8 0xFF)) (s64 7 0 0 0) = 0xFFFFFFFFFFFFFFFF := by decide
theorem witness_SixteenBitAddresses :
    (0x3000 : Nat) = (s16 3 0xF3000 5 0xFFFF).x[3].toNat % 2 ^ 16 ∧
    effectiveAddr noPrefixes 3 (.mem16 6 (.d8 1)) (s16 3 0 5 0xFFFF) = 0 := by decide
theorem witness_OperandSegments :
    { noPrefixes with seg := some .fs }.seg = some .fs ∧ noPrefixes.seg = none ∧
    baseField noPrefixes 5 = 5 ∧ baseField (rexP false false false true) 5 = 13 := by decide

/-! ### AND -/

theorem witness_AndImmediateToAccumulator : noPrefixes.lock = false ∧ p66.lock = false ∧ rexW.lock = false := by decide
theorem witness_AndImmediateToRegister : noPrefixes.lock = false ∧ (rexP true true true true).lock = false := by decide
theorem witness_AndRegisterToRegister : noPrefixes.lock = false ∧ (rexP true true true true).lock = false := by decide
theorem witness_AndRegisterFromRegister : noPrefixes.lock = false ∧ (rexP true true true true).lock = false := by decide

/-- The `n` addresses from 3000H on. -/
def at3000 (n : Nat) : List Nat := (List.range n).map (0x3000 + ·)

/-- The premises that the statements about memory destinations share, at each width below. -/
theorem witness_memory_premises :
    Memory.wf sMem.mem ∧ ∀ n ∈ [1, 2, 4, 8], ∀ a ∈ at3000 n, a ∉ textAddrs sMem := by decide

set_option synthInstance.maxHeartbeats 400000 in
set_option synthInstance.maxSize 1000 in
theorem witness_AndImmediateToMemory_bytes :
    OperandOk .and lockP (.andRm8Imm8 lockP (.mem memRbx) 1) memRbx 1 .rmw sMem (at3000 1) ∧
    OperandOk .and rexW (.andRm8Imm8Rex rexW (.mem memRbx) 1) memRbx 1 .rmw sMem (at3000 1) := by decide
set_option synthInstance.maxHeartbeats 400000 in
set_option synthInstance.maxSize 1000 in
theorem witness_AndImmediateToMemory_words :
    OperandOk .and p66 (.andRm16Imm16 p66 (.mem memRbx) 1) memRbx 2 .rmw sMem (at3000 2) ∧
    OperandOk .and noPrefixes (.andRm32Imm32 noPrefixes (.mem memRbx) 1) memRbx 4 .rmw sMem (at3000 4) ∧
    OperandOk .and rexW (.andRm64Imm32 rexW (.mem memRbx) 1) memRbx 8 .rmw sMem (at3000 8) := by decide
set_option synthInstance.maxHeartbeats 400000 in
set_option synthInstance.maxSize 1000 in
theorem witness_AndImmediateToMemory_sign_extended :
    OperandOk .and p66 (.andRm16Imm8 p66 (.mem memRbx) 1) memRbx 2 .rmw sMem (at3000 2) ∧
    OperandOk .and noPrefixes (.andRm32Imm8 noPrefixes (.mem memRbx) 1) memRbx 4 .rmw sMem (at3000 4) ∧
    OperandOk .and rexW (.andRm64Imm8 rexW (.mem memRbx) 1) memRbx 8 .rmw sMem (at3000 8) := by decide
set_option synthInstance.maxHeartbeats 400000 in
set_option synthInstance.maxSize 1000 in
theorem witness_AndRegisterToMemory_bytes :
    OperandOk .and lockP (.andRm8R8 lockP (.mem memRbx) 1) memRbx 1 .rmw sMem (at3000 1) ∧
    OperandOk .and rexW (.andRm8R8Rex rexW (.mem memRbx) 1) memRbx 1 .rmw sMem (at3000 1) := by decide
set_option synthInstance.maxHeartbeats 400000 in
set_option synthInstance.maxSize 1000 in
theorem witness_AndRegisterToMemory_words :
    OperandOk .and p66 (.andRm16R16 p66 (.mem memRbx) 1) memRbx 2 .rmw sMem (at3000 2) ∧
    OperandOk .and noPrefixes (.andRm32R32 noPrefixes (.mem memRbx) 1) memRbx 4 .rmw sMem (at3000 4) ∧
    OperandOk .and rexW (.andRm64R64 rexW (.mem memRbx) 1) memRbx 8 .rmw sMem (at3000 8) := by decide
set_option synthInstance.maxHeartbeats 400000 in
set_option synthInstance.maxSize 1000 in
theorem witness_AndRegisterFromMemory_bytes :
    OperandOk .and noPrefixes (.andR8Rm8 noPrefixes 0 (.mem memRbx)) memRbx 1 .read sMem (at3000 1) ∧
    OperandOk .and rexW (.andR8Rm8Rex rexW 0 (.mem memRbx)) memRbx 1 .read sMem (at3000 1) ∧
    (0xEF : BitVec 8).extractLsb' 0 8 = sMem.mem.read 0x3000 := by decide
set_option synthInstance.maxHeartbeats 400000 in
set_option synthInstance.maxSize 1000 in
theorem witness_AndRegisterFromMemory_words :
    OperandOk .and p66 (.andR16Rm16 p66 0 (.mem memRbx)) memRbx 2 .read sMem (at3000 2) ∧
    OperandOk .and noPrefixes (.andR32Rm32 noPrefixes 0 (.mem memRbx)) memRbx 4 .read sMem (at3000 4) ∧
    OperandOk .and rexW (.andR64Rm64 rexW 0 (.mem memRbx)) memRbx 8 .read sMem (at3000 8) := by decide
/-- The bytes at 3000H.. as words (R60). -/
theorem witness_bytes_at :
    BytesAt (n := 1) sMem.mem (at3000 1) (0xEF : BitVec 8) ∧ BytesAt (n := 2) sMem.mem (at3000 2) (0xBEEF : BitVec 16) ∧
    BytesAt (n := 4) sMem.mem (at3000 4) (0xDEADBEEF : BitVec 32) ∧
    BytesAt (n := 8) sMem.mem (at3000 8) (0x12345678DEADBEEF : BitVec 64) ∧
    BytesAt (n := 16) sMem.mem (at3000 16) (0x12345678DEADBEEF : XWord) := by
  unfold BytesAt
  decide
theorem witness_LockNeedsMemoryDestination_ud :
    instrClass (.andAlImm8 lockP 0) = .and ∧ (Instr.andAlImm8 lockP 0).prefixes.lock = true ∧
    memDest (.andAlImm8 lockP 0) = false ∧
    (Instr.andR32Rm32 lockP 0 (.mem memRbx)).prefixes.lock = true ∧
    memDest (.andR32Rm32 lockP 0 (.mem memRbx)) = false := by decide
set_option synthInstance.maxHeartbeats 400000 in
set_option synthInstance.maxSize 1000 in
theorem witness_LockNeedsMemoryDestination_completes :
    (Instr.andRm32R32 lockP (.mem memRbx) 0).prefixes.lock = true ∧
    memDest (.andRm32R32 lockP (.mem memRbx) 0) = true ∧
    (Instr.andRm32R32 lockP (.mem memRbx) 0).rm? = some (.mem memRbx) ∧
    OperandOk .and lockP (.andRm32R32 lockP (.mem memRbx) 0) memRbx 4 .rmw sMem (at3000 4) := by decide

/-! ### The XMM instructions -/

theorem witness_xmm_enabled :
    XmmEnabled sMem.sys.cpuidSSE2 p66 sMem ∧ XmmEnabled sMem.sys.cpuidSSE noPrefixes sMem ∧
    XmmEnabled sMem.sys.cpuidAESNI p66 sMem := by decide
set_option synthInstance.maxHeartbeats 400000 in
set_option synthInstance.maxSize 1000 in
theorem witness_PackedAndOfMemory :
    OperandOk .xmm p66 (.andpd p66 0 (.mem memRbx)) memRbx 16 .read sMem (at3000 16) ∧
    OperandOk .xmm noPrefixes (.andps noPrefixes 0 (.mem memRbx)) memRbx 16 .read sMem (at3000 16) := by decide
set_option synthInstance.maxHeartbeats 400000 in
set_option synthInstance.maxSize 1000 in
theorem witness_KeygenAssistOperation :
    OperandOk .xmm p66 (.aeskeygenassist p66 0 (.mem memRbx) 1) memRbx 16 .read sMem (at3000 16) := by decide
theorem witness_KeygenAssistDependencies :
    (0x1 : XWord).extractLsb' 32 32 = (0 : XWord).extractLsb' 32 32 ∧
    (0x1 : XWord).extractLsb' 96 32 = (0 : XWord).extractLsb' 96 32 := by decide
theorem witness_InvalidOpcodeAndDeviceNotAvailable :
    ∃ xmmUd : Prop, (xmmUd ↔ lockP.lock = true ∨ sMem.sys.cr0EM = true ∨ sMem.sys.cr4OSFXSR = false ∨
      featureOf sMem.sys (.andps lockP 0 (.reg 1)) = false) := ⟨_, Iff.rfl⟩

/-! ### Stops at the instruction -/

theorem witness_AccessStopsTheInstruction :
    (Instr.andps noPrefixes 0 (.mem memRbx)).rm? = some (.mem memRbx) ∧
    XmmEnabled (featureOf (s64 3 0x3001 0 0).sys (.andps noPrefixes 0 (.mem memRbx))) noPrefixes (s64 3 0x3001 0 0) ∧
    memDest (.andRm32R32 lockP (.mem memRbx) 0) = true ∧
    access .xmm (operandSeg noPrefixes memRbx) (effectiveAddr noPrefixes 3 memRbx (s64 3 0x3001 0 0)) 16 .read
      (s64 3 0x3001 0 0) = .fault (.gp (some 0) 0x400000) ∧
    access .and (operandSeg noPrefixes memRbx) (effectiveAddr noPrefixes 2 memRbx (s64 3 0xFFFFFFFFFFFFFFFF 0 0)) 4 .rmw
      (s64 3 0xFFFFFFFFFFFFFFFF 0 0) = .refused .operandPastTop := by
  repeat' apply And.intro
  all_goals first | decide | rfl
set_option synthInstance.maxHeartbeats 400000 in
set_option synthInstance.maxSize 1000 in
theorem witness_StoreIntoTextRefused :
    memDest (.andRm8R8 noPrefixes (.mem memRbx) 0) = true ∧
    OperandOk .and noPrefixes (.andRm8R8 noPrefixes (.mem memRbx) 0) memRbx 1 .rmw
      (placeText (s64 3 0x400001 0 0) [0x20, 0x03]) [0x400001] ∧
    0x400001 ∈ textAddrs (placeText (s64 3 0x400001 0 0) [0x20, 0x03]) := by decide

end Sys2Proof.Tests
end

section
/-! The bytes of a well-formed instruction decode to it (30_encoding.md R90 to R119): one lemma per part of an
encoding, in the order of `decode`, and `decode_encode_append` from them. -/

namespace Sys2Proof

/-! ## Little-endian fields -/

@[simp] theorem take8_cons (v : BitVec 8) (rest : List Byte) : take8 (v :: rest) = .ok (v, rest) := rfl

@[simp] theorem take16_bytes16 (v : BitVec 16) (rest : List Byte) : take16 (bytes16 v ++ rest) = .ok (v, rest) := by
  have hv : v.extractLsb' 8 8 ++ v.extractLsb' 0 8 = v.extractLsb' 0 16 :=
    BitVec.extractLsb'_append_extractLsb'_eq_extractLsb' rfl
  simp [bytes16, take16, hv]

@[simp] theorem take32_bytes32 (v : BitVec 32) (rest : List Byte) : take32 (bytes32 v ++ rest) = .ok (v, rest) := by
  have h16 : v.extractLsb' 24 8 ++ v.extractLsb' 16 8 = v.extractLsb' 16 16 :=
    BitVec.extractLsb'_append_extractLsb'_eq_extractLsb' rfl
  have h24 : v.extractLsb' 16 16 ++ v.extractLsb' 8 8 = v.extractLsb' 8 24 :=
    BitVec.extractLsb'_append_extractLsb'_eq_extractLsb' rfl
  have h32 : v.extractLsb' 8 24 ++ v.extractLsb' 0 8 = v.extractLsb' 0 32 :=
    BitVec.extractLsb'_append_extractLsb'_eq_extractLsb' rfl
  simp [bytes32, take32, h16, h24, h32]

/-! ## ModRM, SIB, displacement (R101, R106, R107, R109) -/

section fields

variable (hi : BitVec 2) (mid lo : BitVec 3)

@[simp] theorem modRM_mod : (modRM hi mid lo).extractLsb' 6 2 = hi := by
  rw [modRM, BitVec.extractLsb'_append_eq_of_le (by decide)]
  exact BitVec.extractLsb'_append_eq_left

@[simp] theorem modRM_reg : (modRM hi mid lo).extractLsb' 3 3 = mid := by
  rw [modRM, BitVec.extractLsb'_append_eq_of_le (by decide)]
  exact BitVec.extractLsb'_append_eq_right

@[simp] theorem modRM_rm : (modRM hi mid lo).extractLsb' 0 3 = lo := BitVec.extractLsb'_append_eq_right

/-- SIB has ModRM's layout, so the field lemmas of `modRM` read it too. -/
theorem sibByte_eq_modRM : sibByte hi mid lo = modRM hi mid lo := rfl

end fields

theorem dispMod_ne_three {w : Nat} (d : Disp w) : dispMod d ≠ 3#2 := by cases d <;> simp [dispMod]

/-- Where a form with `mod` = 00 is taken by another operand, a well-formed operand does not stand (R106, R107,
R109). -/
theorem dispMod_zero_excluded {w : Nat} (d : Disp w) (f g : BitVec 3) (h : (!d.isNone || f != g) = true) :
    ¬ (dispMod d = 0#2 ∧ f = g) := by
  cases d with
  | none => simpa [dispMod, Disp.isNone] using h
  | d8 d => simp [dispMod]
  | full d => simp [dispMod]

@[simp] theorem takeDisp16_encodeDisp16 (d : Disp 16) (rest : List Byte) :
    takeDisp16 (dispMod d) (encodeDisp16 d ++ rest) = .ok (d, rest) := by
  cases d with
  | none => rfl
  | d8 d => rfl
  | full d => simp [takeDisp16, dispMod, encodeDisp16, bind, Except.bind]

@[simp] theorem takeDisp32_encodeDisp32 (d : Disp 32) (rest : List Byte) :
    takeDisp32 (dispMod d) (encodeDisp32 d ++ rest) = .ok (d, rest) := by
  cases d with
  | none => rfl
  | d8 d => rfl
  | full d => simp [takeDisp32, dispMod, encodeDisp32, bind, Except.bind]

/-- ModRM and what it selects are read back, at either address size. -/
@[simp] theorem takeModRM_encodeRm (a16 : Bool) (reg : BitVec 3) (rm : Rm) (rest : List Byte) (h : rm.wf a16 = true) :
    takeModRM a16 (encodeRm reg rm ++ rest) = .ok ((reg, rm), rest) := by
  cases rm with
  | reg rm => simp [encodeRm, takeModRM]
  | mem m =>
    cases m with
    | mem16 rm d =>
      obtain ⟨ha, hd⟩ := Bool.and_eq_true_iff.mp h
      simp [encodeRm, takeModRM, takeMem16, dispMod_ne_three, dispMod_zero_excluded d rm 6#3 hd, ha, bind, Except.bind]
    | direct16 d =>
      have ha : a16 = true := h
      simp [encodeRm, takeModRM, takeMem16, ha, bind, Except.bind]
    | base rm d =>
      obtain ⟨hrm, hd⟩ := Bool.and_eq_true_iff.mp h
      obtain ⟨ha, h4⟩ : a16 = false ∧ rm ≠ 4#3 := by simpa using hrm
      simp [encodeRm, takeModRM, takeMem32, dispMod_ne_three, dispMod_zero_excluded d rm 5#3 hd, ha, h4, bind,
        Except.bind]
    | disp32 d =>
      have ha : a16 = false := by simpa [Rm.wf, MemOp.wf] using h
      simp [encodeRm, takeModRM, takeMem32, ha, bind, Except.bind]
    | sib sc ix b d =>
      obtain ⟨hn, hd⟩ := Bool.and_eq_true_iff.mp h
      have ha : a16 = false := by simpa using hn
      simp [encodeRm, takeModRM, takeMem32, takeSib, sibByte_eq_modRM, dispMod_ne_three,
        dispMod_zero_excluded d b 5#3 hd, ha, bind, Except.bind]
    | sibNoBase sc ix d =>
      have ha : a16 = false := by simpa [Rm.wf, MemOp.wf] using h
      simp [encodeRm, takeModRM, takeMem32, takeSib, sibByte_eq_modRM, ha, bind, Except.bind]

@[simp] theorem takeGroup4_encodeRm (a16 : Bool) (rm : Rm) (rest : List Byte) (h : rm.wf a16 = true) :
    takeGroup4 a16 (encodeRm 4#3 rm ++ rest) = .ok (rm, rest) := by
  simp [takeGroup4, h, bind, Except.bind]

/-! ## Prefixes (R91, R95, R99, R100) -/

theorem takePrefixes_cons (cx : CodeCtx) (p q : Prefixes) (b : Byte) (bs : List Byte) (k : PrefixByte)
    (hb : prefixByte? b = some k) (hk : addPrefix cx p k = .ok q) :
    takePrefixes cx p (b :: bs) = takePrefixes cx q bs := by
  simp [takePrefixes, hb, hk]

theorem takePrefixes_stop (cx : CodeCtx) (p : Prefixes) (b : Byte) (bs : List Byte) (hb : prefixByte? b = none) :
    takePrefixes cx p (b :: bs) = .ok (p, b :: bs) := by
  simp [takePrefixes, hb]

theorem prefixByte?_segByte (g : Seg) : prefixByte? (segByte g) = some (.seg g) := by cases g <;> rfl

theorem prefixByte?_rexByte (r : Rex) : prefixByte? (rexByte r) = none := by
  obtain ⟨w, r, x, b⟩ := r
  decide +revert

theorem isRexByte_rexByte (r : Rex) : isRexByte (rexByte r) = true := by
  obtain ⟨w, r, x, b⟩ := r
  decide +revert

theorem rexOfByte_rexByte (r : Rex) : rexOfByte (rexByte r) = r := by
  obtain ⟨w, r, x, b⟩ := r
  decide +revert

/-- The override that a well-formed instruction carries is admitted (R99). -/
theorem overrideAdmitted_of_wf (cx : CodeCtx) (p : Prefixes) (h : p.wf cx = true) (g : Seg) (hg : p.seg = some g) :
    overrideAdmitted cx g = true := by
  simp only [Prefixes.wf, hg, Bool.and_eq_true] at h
  simpa [overrideAdmitted] using h.2

/-- A well-formed instruction carries REX in 64-bit mode only (R95). -/
theorem mode_of_wf_rex (cx : CodeCtx) (p : Prefixes) (h : p.wf cx = true) (r : Rex) (hr : p.rex = some r) :
    cx.mode = .long64 := by
  simp only [Prefixes.wf, hr, Bool.and_eq_true] at h
  simpa using h.1

section takePrefixes

variable (cx : CodeCtx) (bs : List Byte)

theorem takePrefixes_seg (p : Prefixes) (o : Option Seg) (hp : p.seg = none)
    (ha : ∀ g, o = some g → overrideAdmitted cx g = true) :
    takePrefixes cx p (o.toList.map segByte ++ bs) = takePrefixes cx { p with seg := o } bs := by
  cases o with
  | none => cases p; cases hp; rfl
  | some g => exact takePrefixes_cons _ _ _ _ _ _ (prefixByte?_segByte g) (by simp [addPrefix, hp, ha])

/-- A legacy byte that stands exactly where `l` holds takes the set from `f false` to `f l`. -/
theorem takePrefixes_optional (f : Bool → Prefixes) (l : Bool) (b : Byte) (k : PrefixByte)
    (hb : prefixByte? b = some k) (hk : addPrefix cx (f false) k = .ok (f true)) :
    takePrefixes cx (f false) ((if l then [b] else []) ++ bs) = takePrefixes cx (f l) bs := by
  cases l with
  | false => rfl
  | true => exact takePrefixes_cons _ _ _ _ _ _ hb hk

/-- The legacy prefixes are read back in the encoder's order. -/
theorem takePrefixes_encodePrefixes (lock p66 p67 : Bool) (seg : Option Seg)
    (ha : ∀ g, seg = some g → overrideAdmitted cx g = true) :
    takePrefixes cx noPrefixes (encodePrefixes ⟨lock, p66, p67, seg, none⟩ ++ bs) =
      takePrefixes cx ⟨lock, p66, p67, seg, none⟩ bs := by
  simp only [encodePrefixes, Option.toList_none, List.map_nil, List.append_nil, List.append_assoc]
  calc
    _ = takePrefixes cx ⟨false, false, false, seg, none⟩ _ := takePrefixes_seg cx _ noPrefixes seg rfl ha
    _ = takePrefixes cx ⟨lock, false, false, seg, none⟩ _ :=
      takePrefixes_optional cx _ (⟨·, false, false, seg, none⟩) lock 0xF0 .lock rfl rfl
    _ = takePrefixes cx ⟨lock, p66, false, seg, none⟩ _ :=
      takePrefixes_optional cx _ (⟨lock, ·, false, seg, none⟩) p66 0x66 .p66 rfl rfl
    _ = takePrefixes cx ⟨lock, p66, p67, seg, none⟩ _ :=
      takePrefixes_optional cx _ (⟨lock, p66, ·, seg, none⟩) p67 0x67 .p67 rfl rfl

end takePrefixes

/-- Steps (1) and (2) of R105 read the prefixes back, up to an opcode byte `b`. -/
theorem takeRex_takePrefixes_encodePrefixes (cx : CodeCtx) (p : Prefixes) (b : Byte) (bs : List Byte)
    (h : p.wf cx = true) (hb : prefixByte? b = none) (hr : isRexByte b = false) :
    ∃ q cs, takePrefixes cx noPrefixes (encodePrefixes p ++ b :: bs) = .ok (q, cs) ∧
      takeRex cx q cs = .ok (p, b :: bs) := by
  obtain ⟨lock, p66, p67, seg, rex⟩ := p
  have hlegacy := fun cs => takePrefixes_encodePrefixes cx cs lock p66 p67 seg (overrideAdmitted_of_wf cx _ h)
  cases rex with
  | none =>
    exact ⟨_, _, (hlegacy _).trans (takePrefixes_stop _ _ _ _ hb), by simp [takeRex, hr]⟩
  | some r =>
    have hsplit : encodePrefixes ⟨lock, p66, p67, seg, some r⟩ ++ b :: bs =
        encodePrefixes ⟨lock, p66, p67, seg, none⟩ ++ rexByte r :: b :: bs := by simp [encodePrefixes]
    refine ⟨_, _, hsplit ▸ (hlegacy _).trans (takePrefixes_stop _ _ _ _ (prefixByte?_rexByte r)), ?_⟩
    simp [takeRex, mode_of_wf_rex cx _ h r rfl, isRexByte_rexByte, rexOfByte_rexByte, hb, hr]

/-! ## Opcode and operands (R104, R119) -/

/-- No opcode begins with a byte of R91 or R95. -/
theorem encodeBody_head (i : Instr) : ∃ b bs, encodeBody i = b :: bs ∧ prefixByte? b = none ∧ isRexByte b = false := by
  cases i <;> exact ⟨_, _, rfl, by decide, by decide⟩

/-- What a well-formed instruction's row demands of it (R119, R134). -/
theorem Instr.wf_iff (cx : CodeCtx) (i : Instr) :
    i.wf cx = true ↔ i.prefixes.wf cx = true ∧ i.rowRule.rex.holds i.prefixes.rex = true ∧
      i.rowRule.p66.holds cx i.rowRule.opsize i.prefixes.p66 = true ∧
      i.rm?.all (fun rm => rm.wf (cx.addr16 i.prefixes.p67)) = true ∧ i.size ≤ 15 := by
  simp [Instr.wf, and_assoc]

theorem addressSize16_eq_addr16 (cx : CodeCtx) (p67 : Bool) : addressSize16 cx p67 = cx.addr16 p67 := by
  obtain ⟨mode, csD⟩ := cx
  cases mode <;> cases csD <;> cases p67 <;> rfl

/-! What the row rules say to the decoder. -/

section rowRules

variable (cx : CodeCtx) (p : Prefixes)

theorem rexW_of_w1 (hr : RexRule.holds .w1 p.rex = true) : p.rexW = true := hr

theorem rexW_of_w0 (hr : RexRule.holds .w0 p.rex = true) : p.rexW = false := by
  cases h : p.rex with
  | none => simp [Prefixes.rexW, h]
  | some r => simpa [Prefixes.rexW, RexRule.holds, h] using hr

theorem rex_of_absent (hr : RexRule.holds .absent p.rex = true) : p.rex = none := Option.isNone_iff_eq_none.mp hr

theorem rexIsSome_of_present (hr : RexRule.holds .present p.rex = true) : p.rex.isSome = true := hr

theorem p66_of_mandatory (n : Nat) (h66 : P66Rule.holds cx n .mandatory p.p66 = true) : p.p66 = true := h66

theorem p66_of_absent (n : Nat) (h66 : P66Rule.holds cx n .absent p.p66 = true) : p.p66 = false := by
  simpa [P66Rule.holds] using h66

theorem wideSize_of_w1 (hr : RexRule.holds .w1 p.rex = true) : wideSize cx p = .w64 := by
  simp [wideSize, rexW_of_w1 p hr]

/-- Without REX.W, 66 stands exactly where the operand size is not the default (R96, R97). -/
theorem wideSize_of_perOpsize (z : WideSize) (n : Nat) (hz : (z, n) = (.w16, 16) ∨ (z, n) = (.w32, 32))
    (hr : RexRule.holds .w0 p.rex = true) (h66 : P66Rule.holds cx n .perOpsize p.p66 = true) :
    wideSize cx p = z := by
  obtain ⟨mode, csD⟩ := cx
  rw [P66Rule.holds, beq_iff_eq] at h66
  rw [wideSize, rexW_of_w0 p hr, h66]
  rcases hz with h | h <;> cases h <;> cases mode <;> cases csD <;> rfl

theorem wideSize_of_opsize16 (hr : RexRule.holds .w0 p.rex = true)
    (h66 : P66Rule.holds cx 16 .perOpsize p.p66 = true) :
    wideSize cx p = .w16 := wideSize_of_perOpsize cx p .w16 16 (.inl rfl) hr h66

theorem wideSize_of_opsize32 (hr : RexRule.holds .w0 p.rex = true)
    (h66 : P66Rule.holds cx 32 .perOpsize p.p66 = true) :
    wideSize cx p = .w32 := wideSize_of_perOpsize cx p .w32 32 (.inr rfl) hr h66

end rowRules

/-! What each opcode reads when its operands stand encoded before `rest`. -/

section takeOperands

variable (cx : CodeCtx) (p : Prefixes) (reg : BitVec 3) (rm : Rm) (v : BitVec 8) (imm rest : List Byte)
  (hrm : rm.wf (cx.addr16 p.p67) = true)
include hrm

theorem takeOperands_o80 : takeOperands cx p .o80 (encodeRm 4 rm ++ [v] ++ rest) =
    .ok (if p.rex.isSome then .andRm8Imm8Rex p rm v else .andRm8Imm8 p rm v, rest) := by
  simp [takeOperands, addressSize16_eq_addr16, hrm, bind, Except.bind]

theorem takeOperands_o81 : takeOperands cx p .o81 (encodeRm 4 rm ++ imm ++ rest) =
    takeImmWide (wideSize cx p) p rm (imm ++ rest) := by
  simp [takeOperands, addressSize16_eq_addr16, hrm, bind, Except.bind]

theorem takeOperands_o83 : takeOperands cx p .o83 (encodeRm 4 rm ++ [v] ++ rest) =
    .ok (immByteWide (wideSize cx p) p rm v, rest) := by
  simp [takeOperands, addressSize16_eq_addr16, hrm, bind, Except.bind]

theorem takeOperands_o20 : takeOperands cx p .o20 (encodeRm reg rm ++ rest) =
    .ok (if p.rex.isSome then .andRm8R8Rex p rm reg else .andRm8R8 p rm reg, rest) := by
  simp [takeOperands, addressSize16_eq_addr16, hrm, bind, Except.bind]

theorem takeOperands_o21 : takeOperands cx p .o21 (encodeRm reg rm ++ rest) =
    .ok (regToRmWide (wideSize cx p) p reg rm, rest) := by
  simp [takeOperands, addressSize16_eq_addr16, hrm, bind, Except.bind]

theorem takeOperands_o22 : takeOperands cx p .o22 (encodeRm reg rm ++ rest) =
    .ok (if p.rex.isSome then .andR8Rm8Rex p reg rm else .andR8Rm8 p reg rm, rest) := by
  simp [takeOperands, addressSize16_eq_addr16, hrm, bind, Except.bind]

theorem takeOperands_o23 : takeOperands cx p .o23 (encodeRm reg rm ++ rest) =
    .ok (rmToRegWide (wideSize cx p) p reg rm, rest) := by
  simp [takeOperands, addressSize16_eq_addr16, hrm, bind, Except.bind]

theorem takeOperands_o0F54 (hw : p.rexW = false) : takeOperands cx p .o0F54 (encodeRm reg rm ++ rest) =
    .ok (if p.p66 then .andpd p reg rm else .andps p reg rm, rest) := by
  simp [takeOperands, addressSize16_eq_addr16, hrm, hw, bind, Except.bind]

theorem takeOperands_o0F3ADF (h66 : p.p66 = true) (hw : p.rexW = false) :
    takeOperands cx p .o0F3ADF (encodeRm reg rm ++ [v] ++ rest) = .ok (.aeskeygenassist p reg rm v, rest) := by
  simp [takeOperands, addressSize16_eq_addr16, hrm, h66, hw, bind, Except.bind]

end takeOperands

/-- Steps (3) to (5) of R105 read a row's own bytes back. -/
theorem takeOperands_takeOpcode_encodeBody (cx : CodeCtx) (i : Instr) (rest : List Byte) (h : i.wf cx = true) :
    ∃ o bs, takeOpcode (encodeBody i ++ rest) = .ok (o, bs) ∧ takeOperands cx i.prefixes o bs = .ok (i, rest) := by
  obtain ⟨-, hr, h66, hrm, -⟩ := (Instr.wf_iff cx i).mp h
  cases i with
  | aeskeygenassist p reg rm v =>
    exact ⟨_, _, rfl, takeOperands_o0F3ADF cx p reg rm v rest hrm h66 (rexW_of_w0 p hr)⟩
  | andAlImm8 p v => exact ⟨_, _, rfl, rfl⟩
  | andAxImm16 p v =>
    refine ⟨.o25, bytes16 v ++ rest, rfl, ?_⟩
    simp [takeOperands, takeAccWide, Instr.prefixes, wideSize_of_opsize16 cx p hr h66, bind, Except.bind]
  | andEaxImm32 p v =>
    refine ⟨.o25, bytes32 v ++ rest, rfl, ?_⟩
    simp [takeOperands, takeAccWide, Instr.prefixes, wideSize_of_opsize32 cx p hr h66, bind, Except.bind]
  | andRaxImm32 p v =>
    refine ⟨.o25, bytes32 v ++ rest, rfl, ?_⟩
    simp [takeOperands, takeAccWide, Instr.prefixes, wideSize_of_w1 cx p hr, bind, Except.bind]
  | andRm8Imm8 p rm v =>
    exact ⟨_, _, rfl, (takeOperands_o80 cx p rm v rest hrm).trans (by simp [rex_of_absent p hr])⟩
  | andRm8Imm8Rex p rm v =>
    exact ⟨_, _, rfl, (takeOperands_o80 cx p rm v rest hrm).trans (by simp [rexIsSome_of_present p hr])⟩
  | andRm16Imm16 p rm v =>
    refine ⟨_, _, rfl, (takeOperands_o81 cx p rm (bytes16 v) rest hrm).trans ?_⟩
    simp [wideSize_of_opsize16 cx p hr h66, takeImmWide, bind, Except.bind]
  | andRm32Imm32 p rm v =>
    refine ⟨_, _, rfl, (takeOperands_o81 cx p rm (bytes32 v) rest hrm).trans ?_⟩
    simp [wideSize_of_opsize32 cx p hr h66, takeImmWide, bind, Except.bind]
  | andRm64Imm32 p rm v =>
    refine ⟨_, _, rfl, (takeOperands_o81 cx p rm (bytes32 v) rest hrm).trans ?_⟩
    simp [wideSize_of_w1 cx p hr, takeImmWide, bind, Except.bind]
  | andRm16Imm8 p rm v =>
    refine ⟨_, _, rfl, (takeOperands_o83 cx p rm v rest hrm).trans ?_⟩
    rw [wideSize_of_opsize16 cx p hr h66, immByteWide]
  | andRm32Imm8 p rm v =>
    refine ⟨_, _, rfl, (takeOperands_o83 cx p rm v rest hrm).trans ?_⟩
    rw [wideSize_of_opsize32 cx p hr h66, immByteWide]
  | andRm64Imm8 p rm v =>
    refine ⟨_, _, rfl, (takeOperands_o83 cx p rm v rest hrm).trans ?_⟩
    rw [wideSize_of_w1 cx p hr, immByteWide]
  | andRm8R8 p rm reg =>
    exact ⟨_, _, rfl, (takeOperands_o20 cx p reg rm rest hrm).trans (by simp [rex_of_absent p hr])⟩
  | andRm8R8Rex p rm reg =>
    exact ⟨_, _, rfl, (takeOperands_o20 cx p reg rm rest hrm).trans (by simp [rexIsSome_of_present p hr])⟩
  | andRm16R16 p rm reg =>
    refine ⟨_, _, rfl, (takeOperands_o21 cx p reg rm rest hrm).trans ?_⟩
    rw [wideSize_of_opsize16 cx p hr h66, regToRmWide]
  | andRm32R32 p rm reg =>
    refine ⟨_, _, rfl, (takeOperands_o21 cx p reg rm rest hrm).trans ?_⟩
    rw [wideSize_of_opsize32 cx p hr h66, regToRmWide]
  | andRm64R64 p rm reg =>
    refine ⟨_, _, rfl, (takeOperands_o21 cx p reg rm rest hrm).trans ?_⟩
    rw [wideSize_of_w1 cx p hr, regToRmWide]
  | andR8Rm8 p reg rm =>
    exact ⟨_, _, rfl, (takeOperands_o22 cx p reg rm rest hrm).trans (by simp [rex_of_absent p hr])⟩
  | andR8Rm8Rex p reg rm =>
    exact ⟨_, _, rfl, (takeOperands_o22 cx p reg rm rest hrm).trans (by simp [rexIsSome_of_present p hr])⟩
  | andR16Rm16 p reg rm =>
    refine ⟨_, _, rfl, (takeOperands_o23 cx p reg rm rest hrm).trans ?_⟩
    rw [wideSize_of_opsize16 cx p hr h66, rmToRegWide]
  | andR32Rm32 p reg rm =>
    refine ⟨_, _, rfl, (takeOperands_o23 cx p reg rm rest hrm).trans ?_⟩
    rw [wideSize_of_opsize32 cx p hr h66, rmToRegWide]
  | andR64Rm64 p reg rm =>
    refine ⟨_, _, rfl, (takeOperands_o23 cx p reg rm rest hrm).trans ?_⟩
    rw [wideSize_of_w1 cx p hr, rmToRegWide]
  | andpd p reg rm =>
    exact ⟨_, _, rfl, (takeOperands_o0F54 cx p reg rm rest hrm (rexW_of_w0 p hr)).trans
      (by simp [p66_of_mandatory cx p _ h66])⟩
  | andps p reg rm =>
    exact ⟨_, _, rfl, (takeOperands_o0F54 cx p reg rm rest hrm (rexW_of_w0 p hr)).trans
      (by simp [p66_of_absent cx p _ h66])⟩

/-- The bytes of a well-formed instruction decode to it whatever follows, before the length is looked at. -/
theorem decodeAnyLength_encode_append (cx : CodeCtx) (i : Instr) (rest : List Byte) (h : i.wf cx = true) :
    decodeAnyLength cx (encode i ++ rest) = .ok (i, rest) := by
  obtain ⟨b, cs, hbody, hb, hr⟩ := encodeBody_head i
  obtain ⟨o, ops, hop, hrow⟩ := takeOperands_takeOpcode_encodeBody cx i rest h
  obtain ⟨q, ds, hlegacy, hrex⟩ := takeRex_takePrefixes_encodePrefixes cx i.prefixes b (cs ++ rest)
    ((Instr.wf_iff cx i).mp h).1 hb hr
  rw [hbody] at hop
  rw [encode, hbody, List.append_assoc]
  simp only [List.cons_append] at hop ⊢
  simp [decodeAnyLength, hlegacy, hrex, hop, hrow, bind, Except.bind]

/-- A well-formed instruction has at most 15 bytes (R114). -/
theorem instrLength_le_of_wf (cx : CodeCtx) (i : Instr) (h : i.wf cx = true) : instrLength i ≤ 15 := by
  obtain ⟨-, -, -, -, hsize⟩ := (Instr.wf_iff cx i).mp h
  exact (Laws.encodedLength i).trans_le hsize

theorem instrLength_pos (i : Instr) : 0 < instrLength i := by
  obtain ⟨b, bs, hbody, -⟩ := encodeBody_head i
  simp [Laws.encode_length, hbody]

/-- The bytes of a well-formed instruction decode to it, whatever follows. -/
theorem decode_encode_append (cx : CodeCtx) (i : Instr) (rest : List Byte) (h : i.wf cx = true) :
    decode cx (encode i ++ rest) = .ok (i, rest) := by
  have hlen := instrLength_le_of_wf cx i h
  rw [instrLength] at hlen
  simp [decode, decodeAnyLength_encode_append cx i rest h, hlen]

end Sys2Proof
end

section
/-! A step on bytes that stand in the text (00_scope.md R13, 30_encoding.md R105, 70_reset_and_hazards.md R241). -/

namespace Sys2Proof.Machine

/-- Admitted offsets, the first of them holding `bs`, read as `bs` and some bytes after it. -/
theorem codeBytes_eq_append (s : State) (off : Word64) (n : Nat) (bs : List Byte) (hn : bs.length ≤ n)
    (h : ∀ k < n, ∃ a, codeAddr s (off + BitVec.ofNat 64 k) = some a ∧
      (k < bs.length → s.mem.read a = bs.getD k 0)) :
    ∃ rest, codeBytes s off n = some (bs ++ rest) := by
  induction n generalizing off bs with
  | zero =>
    rw [List.length_eq_zero_iff.mp (Nat.le_zero.mp hn)]
    exact ⟨[], rfl⟩
  | succ n ih =>
    obtain ⟨a, ha, hb⟩ := h 0 n.succ_pos
    obtain ⟨rest, htail⟩ : ∃ rest, codeBytes s (off + 1#64) n = some (bs.tail ++ rest) := by
      refine ih _ _ (by simpa using hn) fun k hk => ?_
      have hoff : off + 1#64 + BitVec.ofNat 64 k = off + BitVec.ofNat 64 (k + 1) := by
        rw [BitVec.add_assoc, Nat.add_comm k 1, BitVec.ofNat_add]
      obtain ⟨a, ha, hb⟩ := h (k + 1) (by omega)
      exact ⟨a, hoff ▸ ha, fun hk => by simpa using hb (by simpa [Nat.lt_sub_iff_add_lt] using hk)⟩
    rw [BitVec.add_zero] at ha
    cases bs with
    | nil => exact ⟨s.mem.read a :: rest, by simp [codeBytes, ha, htail]⟩
    | cons b bs => exact ⟨rest, by simp [codeBytes, ha, htail, hb]⟩

/-- A fetch inside the text answers the bytes that stand there (R253, D11, log entry 19). -/
theorem fetch_of_codeBytes (s : State) (bs : List Byte) (hseg : ∀ g, (segDesc s.sys.segs g).expandDown = false)
    (htop : s.text.start.toNat + s.text.length ≤ 2 ^ pcWidth s.sys) (hfull : s.text.length < 2 ^ pcWidth s.sys)
    (hlo : s.text.start.toNat ≤ s.pc.toNat) (hhi : s.pc.toNat < s.text.start.toNat + s.text.length)
    (hbs : codeBytes s s.pc (min fetchWindow (s.text.start.toNat + s.text.length - s.pc.toNat)) = some bs) :
    fetch s = .next bs := by
  have hexp : hasExpandDown s.sys.segs = false := by
    simpa [hseg] using (hasExpandDown_eq_true s.sys.segs).not
  simp [fetch, hexp, htop.not_gt, hfull.not_ge, hlo, hhi, hbs]

/-- Settles O8: a fetched instruction that decodes is the one the step runs. -/
theorem stepRunsTheDecodedInstruction : Obligations.StepRunsTheDecodedInstruction := by
  intro s bs i rest hfetch hdecode
  rw [step, (fetchInstr_eq_next s i).mpr ⟨bs, rest, hfetch, hdecode⟩, andThen_next]

/-- Settles O9: the bytes fetched at `pc` begin with the instruction's encoding, which decodes to it. -/
theorem stepRunsTheBytesInTheText : Obligations.StepRunsTheBytesInTheText := by
  intro s i hwf hseg htop hfull hlo hhi hbytes
  have hpos : 0 < instrLength i := instrLength_pos i
  have hle := instrLength_le_of_wf _ _ hwf
  obtain ⟨rest, hcode⟩ := codeBytes_eq_append s s.pc _ (encode i) (by rw [← instrLength]; omega) hbytes
  exact stepRunsTheDecodedInstruction s _ i rest (fetch_of_codeBytes s _ hseg htop hfull hlo (by omega) hcode)
    (decode_encode_append _ i rest hwf)

end Sys2Proof.Machine
end

section
/-! RFLAGS as one word (10_state.md R27). -/

namespace Sys2Proof.Machine

theorem flagBit_getLsbD (i j : Nat) (b : Bool) (hj : j < 64) :
    (flagBit i b).getLsbD j = (decide (j = i) && b) := by
  cases b with
  | false => simp [flagBit]
  | true =>
    rw [flagBit, if_pos rfl, BitVec.getLsbD_shiftLeft, BitVec.getLsbD_one, Bool.eq_iff_iff]
    simp only [Bool.and_eq_true, Bool.not_eq_true', decide_eq_true_eq, decide_eq_false_iff_not, and_true]
    omega

/-- The named places are 0, 1, 2, 4, 6, 7 and 11. -/
theorem namedFlagBits_getLsbD :
    ∀ j < 64, namedFlagBits.getLsbD j = decide (j ∈ [0, 1, 2, 4, 6, 7, 11]) := by decide

/-- Settles O33: at a named place one part of the word stands alone; at another the mask leaves `other`. -/
theorem rflagsWordLayout : Obligations.RflagsWordLayout := by
  intro f j hj
  have hone : (2#64).getLsbD j = decide (j = 1) := by
    simpa [flagBit] using flagBit_getLsbD 1 j true hj
  simp only [RFlags.word, BitVec.getLsbD_or, BitVec.getLsbD_and, BitVec.getLsbD_not, hone,
    flagBit_getLsbD _ _ _ hj, namedFlagBits_getLsbD j hj]
  by_cases hnamed : j ∈ [0, 1, 2, 4, 6, 7, 11]
  · simp only [List.mem_cons, List.not_mem_nil, or_false] at hnamed
    rcases hnamed with rfl | rfl | rfl | rfl | rfl | rfl | rfl <;> simp
  · simp only [List.mem_cons, List.not_mem_nil, or_false, not_or] at hnamed
    simp [hnamed, hj]

end Sys2Proof.Machine
end

section
/-! The views of a general register, bit by bit (10_state.md R22 to R25). -/

namespace Sys2Proof.Machine

/-! ## Where a byte register lies -/

theorem byteLoc_eq (rex : Bool) (c : RegCode) :
    byteLoc rex c = (byteHome rex c, if isHighByte rex c then 8 else 0) := by
  by_cases h : rex = false ∧ 4 ≤ c.val ∧ c.val ≤ 7
  · simp [byteLoc, byteHome, isHighByte, h]
  · have hlow : isHighByte rex c = false := by simpa [isHighByte] using h
    simp [byteLoc, byteHome, hlow, h]

theorem reg8_eq_byteReg (rex : Bool) (c : RegCode) (s : State) : reg8 rex c s = byteReg rex c s := by
  simp only [reg8, byteReg, byteLoc_eq]
  split_ifs <;> rfl

/-! ## The words that writes put together -/

theorem getLsbD_extractLsb'_append {n : Nat} (k m : Nat) (v : Word64) (r : BitVec n) (j : Nat)
    (hj : j < m + n) :
    (v.extractLsb' k m ++ r).getLsbD j = if j < n then r.getLsbD j else v.getLsbD (k + (j - n)) := by
  rw [BitVec.getLsbD_append]
  split_ifs with h
  · rfl
  · rw [BitVec.getLsbD_extractLsb', decide_eq_true (by omega), Bool.true_and]

/-- The low `n` bits of a word replaced. -/
theorem withLow_getLsbD {n : Nat} (m : Nat) (v : Word64) (r : BitVec n) (j : Nat) (hj : j < m + n) :
    (v.extractLsb' n m ++ r).getLsbD j = if j < n then r.getLsbD j else v.getLsbD j := by
  rw [getLsbD_extractLsb'_append n m v r j hj]
  split_ifs with h
  · rfl
  · rw [Nat.add_sub_cancel' (not_lt.mp h)]

theorem withByte_low_getLsbD (v : Word64) (b : BitVec 8) (j : Nat) (hj : j < 64) :
    (withByte false v b).getLsbD j = if j < 8 then b.getLsbD j else v.getLsbD j :=
  withLow_getLsbD 56 v b j hj

theorem withByte_high_getLsbD (v : Word64) (b : BitVec 8) (j : Nat) (hj : j < 64) :
    (withByte true v b).getLsbD j = if 8 ≤ j ∧ j < 16 then b.getLsbD (j - 8) else v.getLsbD j := by
  have happend : (withByte true v b).getLsbD j =
      if j < 8 then (v.extractLsb' 0 8).getLsbD j else (v.extractLsb' 16 48 ++ b).getLsbD (j - 8) :=
    BitVec.getLsbD_append
  rw [happend]
  by_cases hlow : j < 8
  · simp [hlow, hlow.not_ge]
  · rw [if_neg hlow, getLsbD_extractLsb'_append 16 48 v b (j - 8) (by omega)]
    by_cases hbyte : j < 16
    · rw [if_pos (by omega), if_pos (by omega)]
    · rw [if_neg (by omega), if_neg (by omega), show 16 + (j - 8 - 8) = j by omega]

/-- In 64-bit mode a 32-bit write clears bits 63:32 (R23); elsewhere it keeps them (log entry 7). -/
theorem withLow32_getLsbD (mode : Mode) (v : Word64) (r : BitVec 32) (j : Nat) (hj : j < 64) :
    (withLow32 mode v r).getLsbD j =
      if j < 32 then r.getLsbD j else if mode = .long64 then false else v.getLsbD j := by
  by_cases hm : mode = .long64
  · rw [withLow32, if_pos hm, if_pos hm, BitVec.getLsbD_setWidth]
    split_ifs with hlow
    · rw [decide_eq_true hj, Bool.true_and]
    · rw [BitVec.getLsbD_of_ge r j (not_lt.mp hlow), Bool.and_false]
  · simpa only [withLow32, if_neg hm] using withLow_getLsbD 32 v r j hj

/-! ## What a write of each view leaves (R22 to R25) -/

/-- A register written whole holds a view when its new bits do. -/
theorem registerHolds_setX {w : Nat} (c : RegCode) (lo : Nat) (clear : Bool) (res : BitVec w) (v : Word64)
    (s : State) :
    RegisterHolds c lo clear res s (setX c v s) ↔
      ∀ j : Fin 64, v.getLsbD j.val =
        if lo ≤ j.val ∧ j.val < lo + w then res.getLsbD (j.val - lo)
        else if clear = true ∧ 32 ≤ j.val then false else s.x[c.val].getLsbD j.val := by
  simp [RegisterHolds]

theorem writeReg_b8_holds (rex : Bool) (c : RegCode) (v : BitVec 8) (s : State) :
    RegisterHolds (byteLoc rex c).1 (byteLoc rex c).2 false v s (writeReg .b8 rex c v s) := by
  rw [byteLoc_eq, writeReg, registerHolds_setX]
  intro j
  cases isHighByte rex c
  · rw [withByte_low_getLsbD _ _ _ j.isLt]
    simp
  · rw [withByte_high_getLsbD _ _ _ j.isLt]
    simp

theorem writeReg_b16_holds (rex : Bool) (c : RegCode) (v : BitVec 16) (s : State) :
    RegisterHolds c 0 false v s (writeReg .b16 rex c v s) := by
  rw [writeReg, registerHolds_setX]
  intro j
  simpa using withLow_getLsbD 48 s.x[c.val] v j j.isLt

theorem writeReg_b32_holds (rex : Bool) (c : RegCode) (v : BitVec 32) (s : State) :
    RegisterHolds c 0 (clears32 s) v s (writeReg .b32 rex c v s) := by
  rw [writeReg, registerHolds_setX]
  intro j
  rw [withLow32_getLsbD _ _ _ _ j.isLt]
  by_cases hj : j.val < 32
  · simp [hj]
  · simp [hj, clears32, not_lt.mp hj]

/-- Settles O28: each view's read is its bits, and each write is the register written whole. -/
theorem registerViews : Obligations.RegisterViews := by
  intro rex c s
  refine ⟨reg8_eq_byteReg rex c s, rfl, rfl, rfl, fun v => writeReg_b8_holds rex c v s,
    fun v => writeReg_b16_holds rex c v s, fun v => writeReg_b32_holds rex c v s, fun v => ?_⟩
  simp [writeReg]

end Sys2Proof.Machine
end

section
/-! No instruction reads a flag (10_state.md R28), bit 18 of RFLAGS included (log entry 21). -/

namespace Sys2Proof.Machine

/-- The flags after an instruction that started from `f`, where one that started from other flags left `g` (R28). -/
def flagsAfter (cls : AccessClass) (f g : RFlags) : RFlags :=
  match cls with
  | .and => { g with other := f.other }
  | .xmm => f

/-- The answer with the flags of a next state as an instruction that started from `f` leaves them. -/
def withFlagsAfter (cls : AccessClass) (f : RFlags) (r : Result State) : Result State :=
  andThen r fun t => .next (t.withFlags (flagsAfter cls f t.flags))

/-- Replacing the flags of the answer goes past what is computed before the writes. -/
theorem withFlagsAfter_andThen {α : Type} (cls : AccessClass) (f : RFlags) (r : Result α) (g : α → Result State) :
    withFlagsAfter cls f (andThen r g) = andThen r fun a => withFlagsAfter cls f (g a) := by
  cases r <;> rfl

section unread

variable (s : State) (f : RFlags)

/-! ## What is computed before the writes

Addresses, translations and operands read the configuration, `pc`, the registers and memory, never the flags. -/

@[simp] theorem translateAll_withFlags (kind : AccessKind) (lin : Word64) (n : Nat) :
    translateAll kind (s.withFlags f) lin n = translateAll kind s lin n := by
  induction n generalizing lin with
  | zero => rfl
  | succ n ih =>
    simp only [translateAll, ih]
    rfl

@[simp] theorem access_withFlags (cls : AccessClass) (seg : Seg) (ea : Word64) (n : Nat) (kind : AccessKind) :
    access cls seg ea n kind (s.withFlags f) = access cls seg ea n kind s := by
  simp only [access, translateAll_withFlags]
  rfl

@[simp] theorem operandAccess_withFlags (cls : AccessClass) (p : Prefixes) (len : Nat) (m : MemOp) (n : Nat)
    (kind : AccessKind) :
    operandAccess cls p len m n kind (s.withFlags f) = operandAccess cls p len m n kind s :=
  access_withFlags ..

@[simp] theorem overlapsText_withFlags (as : List Nat) :
    overlapsText (s.withFlags f) as = overlapsText s as := by
  simp only [overlapsText, textAddrs, codeAddr, access_withFlags]
  rfl

@[simp] theorem readReg_withFlags (z : OpSize) (rex : Bool) (c : RegCode) :
    readReg z rex c (s.withFlags f) = readReg z rex c s := by
  cases z <;> rfl

@[simp] theorem readRm_withFlags (z : OpSize) (p : Prefixes) (len : Nat) (rm : Rm) :
    readRm z p len rm (s.withFlags f) = readRm z p len rm s := by
  cases rm with
  | reg r => simp [readRm]
  | mem m =>
    simp only [readRm, operandAccess_withFlags]
    rfl

@[simp] theorem readXmmRm_withFlags (p : Prefixes) (len : Nat) (rm : Rm) :
    readXmmRm p len rm (s.withFlags f) = readXmmRm p len rm s := by
  cases rm with
  | reg r => rfl
  | mem m =>
    simp only [readXmmRm, operandAccess_withFlags]
    rfl

/-! ## The instruction shapes -/

theorem andIntoReg_withFlags (z : OpSize) (rex : Bool) (len : Nat) (c : RegCode) (src : BitVec z.bits) :
    andIntoReg z rex len c src (s.withFlags f) =
      (andIntoReg z rex len c src s).withFlags (flagsAfter .and f (andIntoReg z rex len c src s).flags) := by
  cases z <;> rfl

theorem andAccImm_withFlags (z : OpSize) (p : Prefixes) (len : Nat) (src : BitVec z.bits) :
    andAccImm z p len src (s.withFlags f) = withFlagsAfter .and f (andAccImm z p len src s) := by
  rw [andAccImm, andAccImm]
  split
  · rfl
  · rw [andIntoReg_withFlags]
    rfl

theorem andToRm_withFlags (z : OpSize) (p : Prefixes) (len : Nat) (rm : Rm) (src : BitVec z.bits) :
    andToRm z p len rm src (s.withFlags f) = withFlagsAfter .and f (andToRm z p len rm src s) := by
  cases rm with
  | reg r =>
    rw [andToRm_reg, andToRm_reg]
    split
    · rfl
    · rw [andIntoReg_withFlags]
      rfl
  | mem m =>
    simp only [andToRm, operandAccess_withFlags, overlapsText_withFlags, withFlagsAfter_andThen]
    congr 1
    funext as
    split <;> rfl

theorem andRmReg_withFlags (z : OpSize) (p : Prefixes) (len : Nat) (rm : Rm) (reg : BitVec 3) :
    andRmReg z p len rm reg (s.withFlags f) = withFlagsAfter .and f (andRmReg z p len rm reg s) := by
  rw [andRmReg, readReg_withFlags, andToRm_withFlags]
  rfl

theorem andRegRm_withFlags (z : OpSize) (p : Prefixes) (len : Nat) (reg : BitVec 3) (rm : Rm) :
    andRegRm z p len reg rm (s.withFlags f) = withFlagsAfter .and f (andRegRm z p len reg rm s) := by
  rw [andRegRm, andRegRm]
  split
  · rfl
  · simp only [readRm_withFlags, andIntoReg_withFlags, withFlagsAfter_andThen]
    rfl

theorem xmmInto_withFlags (feature : Bool) (op : XWord → XWord → XWord) (p : Prefixes) (len : Nat)
    (reg : BitVec 3) (rm : Rm) :
    xmmInto feature op p len reg rm (s.withFlags f) =
      withFlagsAfter .xmm f (xmmInto feature op p len reg rm s) := by
  simp only [xmmInto, readXmmRm_withFlags, withFlagsAfter_andThen]
  rfl

end unread

/-- Other flags before an instruction change its answer in the flags it does not write alone. -/
theorem exec_withFlags (i : Instr) (s : State) (f : RFlags) :
    exec i (s.withFlags f) = withFlagsAfter (instrClass i) f (exec i s) := by
  cases i with
  | aeskeygenassist p reg rm imm => exact xmmInto_withFlags s f _ (fun _ src => keygenAssist src imm) ..
  | andpd | andps => exact xmmInto_withFlags ..
  | andAlImm8 | andAxImm16 | andEaxImm32 | andRaxImm32 => exact andAccImm_withFlags ..
  | andRm8Imm8 | andRm8Imm8Rex | andRm16Imm16 | andRm32Imm32 | andRm64Imm32 | andRm16Imm8 | andRm32Imm8
  | andRm64Imm8 => exact andToRm_withFlags ..
  | andRm8R8 | andRm8R8Rex | andRm16R16 | andRm32R32 | andRm64R64 => exact andRmReg_withFlags ..
  | andR8Rm8 | andR8Rm8Rex | andR16Rm16 | andR32Rm32 | andR64Rm64 => exact andRegRm_withFlags ..

/-- Settles O18: the answer with other flags is the answer with its flags replaced, in each of the three outcomes. -/
theorem statusFlagsAreNeverRead : Obligations.StatusFlagsAreNeverRead := by
  intro i s f
  rw [exec_withFlags]
  cases exec i s with
  | next t => exact .inl ⟨t, rfl, rfl⟩
  | fault x => exact .inr (.inl ⟨x, rfl, rfl⟩)
  | refused q => exact .inr (.inr ⟨q, rfl, rfl⟩)

end Sys2Proof.Machine
end

section
/-! The conditions of a memory access (20_memory.md R65 to R73, D10, D25) in the spec's words: what each test of the
model decides. -/

namespace Sys2Proof.Machine

/-- The linear address outside 64-bit mode as a sum of natural numbers (R66, R67). -/
theorem linear32_eq (d : SegDesc) (ea : Word64) :
    linear32 d ea = BitVec.ofNat 64 ((d.base.toNat + ea.toNat) % 2 ^ 32) := by
  rw [linear32, lowBits, BitVec.toNat_add, Nat.mod_mod_of_dvd _ (pow_dvd_pow 2 (by decide))]

theorem base64_eq (f : SegFile) (seg : Seg) :
    base64 f seg = if seg = .fs then f.fs.base else if seg = .gs then f.gs.base else 0 := by
  cases seg <;> rfl

theorem nullChecked_eq_true (seg : Seg) :
    nullChecked seg = true ↔ seg = .ds ∨ seg = .es ∨ seg = .fs ∨ seg = .gs := by
  cases seg <;> decide

theorem inLimit_eq_true (d : SegDesc) (ea : Word64) (n : Nat) :
    inLimit d ea n = true ↔ ea.toNat + n - 1 ≤ d.limit.toNat := decide_eq_true_iff

theorem pastTop_eq_true (mode : Mode) (lin : Word64) (n : Nat) :
    pastTop mode lin n = true ↔ 2 ^ linWidth mode < lin.toNat + n := decide_eq_true_iff

theorem pastTop_eq_false (mode : Mode) (lin : Word64) (n : Nat) :
    pastTop mode lin n = false ↔ lin.toNat + n ≤ 2 ^ linWidth mode := by
  rw [← Bool.not_eq_true, pastTop_eq_true, not_lt]

theorem alignmentCheck_eq_true (cls : AccessClass) (lin : Word64) (n : Nat) (s : State) :
    alignmentCheck cls lin n s.sys = true ↔ AlignmentFault cls lin n s := by
  simp [alignmentCheck, and_assoc, or_assoc]

theorem alignmentCheck_eq_false (cls : AccessClass) (lin : Word64) (n : Nat) (s : State) :
    alignmentCheck cls lin n s.sys = false ↔ ¬AlignmentFault cls lin n s := by
  rw [← alignmentCheck_eq_true, Bool.not_eq_true]

theorem inHole_eq_true (c : SysConfig) (a : Nat) :
    inHole c a = true ↔ ∃ h ∈ c.holes, h.lo ≤ a ∧ a < h.lo + h.size := by
  simp [inHole]

/-- The bits of an address from `m` up, as a number whose bits are all `b`. -/
theorem toNat_div_two_pow_eq_iff (a : Word64) (m t : Nat) (b : Bool)
    (ht : ∀ i, t.testBit i = (decide (i < 64 - m) && b)) :
    a.toNat / 2 ^ m = t ↔ ∀ j < 64, m ≤ j → a.getLsbD j = b := by
  constructor
  · intro h j hj hm
    have hbit := ht (j - m)
    rwa [← h, Nat.testBit_div_two_pow, Nat.sub_add_cancel hm, decide_eq_true (by omega), Bool.true_and] at hbit
  · intro h
    refine Nat.eq_of_testBit_eq fun i => ?_
    rw [ht, Nat.testBit_div_two_pow]
    by_cases hi : i < 64 - m
    · rw [decide_eq_true hi, Bool.true_and]
      exact h (i + m) (by omega) (by omega)
    · rw [decide_eq_false hi, Bool.false_and]
      exact BitVec.getLsbD_of_ge a (i + m) (by omega)

/-- The two values of the bits 63 down to `LA_BITS - 1` are all bits 0 and all bits 1 (R69). -/
theorem canonical_eq_true (la : LaBits) (a : Word64) : canonical la a = true ↔ CanonicalAddr la a := by
  have hwidth : 65 - laWidth la = 64 - (laWidth la - 1) := by cases la <;> rfl
  simp only [canonical, Bool.or_eq_true, beq_iff_eq, hwidth]
  exact or_congr (toNat_div_two_pow_eq_iff a _ _ false (by simp))
    (toNat_div_two_pow_eq_iff a _ _ true (by simp [Nat.testBit_two_pow_sub_one]))

end Sys2Proof.Machine
end

section
/-! Stages (1) and (2) of an access, mode by mode, with their outcomes (20_memory.md R66 to R71). -/

namespace Sys2Proof.Machine

section segmentTests

variable (cls : AccessClass) (seg : Seg) (code : Option (BitVec 32)) (ea : Word64) (n : Nat) (kind : AccessKind)
  (s : State)

/-- #SS in the stack segment, #GP in the others. -/
theorem raise_segFault {α : Type} :
    (raise (segFault seg code) s : Result α) =
      if seg = .ss then .fault (.ss code s.pc) else .fault (.gp code s.pc) := by
  by_cases hseg : seg = .ss <;> simp [raise, segFault, hseg]

theorem limitLinear_eq :
    limitLinear seg code ea n s =
      if (segDesc s.sys.segs seg).expandDown = true then .refused .expandDownSegment
      else if ea.toNat + n - 1 ≤ (segDesc s.sys.segs seg).limit.toNat then
        .next (BitVec.ofNat 64 (((segDesc s.sys.segs seg).base.toNat + ea.toNat) % 2 ^ 32))
      else if seg = .ss then .fault (.ss code s.pc) else .fault (.gp code s.pc) := by
  simp only [limitLinear, inLimit_eq_true, linear32_eq, raise_segFault]

theorem long64Linear_eq :
    long64Linear seg ea n s =
      if 2 ^ 64 < (base64 s.sys.segs seg + ea).toNat + n then .refused .operandPastTop
      else if ∀ k < n, CanonicalAddr s.sys.laBits (base64 s.sys.segs seg + ea + BitVec.ofNat 64 k) then
        .next (base64 s.sys.segs seg + ea)
      else if seg = .ss then .fault (.ss (some 0) s.pc) else .fault (.gp (some 0) s.pc) := by
  simp only [long64Linear, pastTop_eq_true, linWidth, List.all_eq_true, List.mem_range, canonical_eq_true,
    raise_segFault, code0]

variable {s}

theorem segLinear_of_protected (hmode : s.sys.mode = .prot ∨ s.sys.mode = .compat) :
    segLinear cls seg ea n kind s = protectedLinear cls seg ea n kind s := by
  rcases hmode with hmode | hmode <;> rw [segLinear, hmode]

theorem segLinear_of_real (hmode : (s.sys.mode = .real ∧ code = none) ∨ (s.sys.mode = .v86 ∧ code = some 0)) :
    segLinear cls seg ea n kind s = realLinear cls code seg ea n s := by
  rcases hmode with ⟨hmode, rfl⟩ | ⟨hmode, rfl⟩ <;> simp only [segLinear, hmode, code0]

theorem segLinear_of_long64 (hmode : s.sys.mode = .long64) :
    segLinear cls seg ea n kind s = long64Linear seg ea n s := by
  rw [segLinear, hmode]

end segmentTests

/-- Settles O21: the model's test of the top is the spec's without the one taken away on either side. -/
theorem linearAddressIn64BitMode : Obligations.LinearAddressIn64BitMode := by
  intro cls seg ea n kind s hmode hn lin hlin
  have htop : lin.toNat + n - 1 > 2 ^ 64 - 1 ↔ 2 ^ 64 < lin.toNat + n := by omega
  simp only [htop]
  rw [hlin, ← base64_eq, segLinear_of_long64 _ _ _ _ _ hmode, long64Linear_eq]

/-- Settles O22: the three descriptor checks stand before the limit test, in R66's order. -/
theorem protectedModeSegmentChecks : Obligations.ProtectedModeSegmentChecks := by
  rintro cls seg ea n kind s _ hmode - rfl
  rw [segLinear_of_protected _ _ _ _ _ hmode]
  simp only [protectedLinear.eq_def, Bool.and_eq_true, nullChecked_eq_true, limitLinear_eq, raise_segFault]
  cases cls <;> simp [raise, code0]

/-- Settles O23: AND is the limit test, an XMM instruction the test of the offsets. -/
theorem realModeSegmentChecks : Obligations.RealModeSegmentChecks := by
  rintro cls seg ea n kind s _ code hmode - rfl
  rw [segLinear_of_real _ _ _ _ _ _ hmode, realLinear.eq_def]
  cases cls with
  | and => simp only [limitLinear_eq, reduceCtorEq, false_and, if_false, true_and, ← not_le, ite_not]
  | xmm => simp only [linear32_eq, raise, reduceCtorEq, false_and, if_false, true_and]

/-- The code of the alignment #GP is left out in real-address and virtual-8086 mode (R71). -/
theorem alignCode_eq (mode : Mode) : alignCode mode = if mode = .real ∨ mode = .v86 then none else some 0 := by
  cases mode <;> rfl

theorem linear_and (seg : Seg) (ea : Word64) (n : Nat) (kind : AccessKind) (s : State) :
    linear .and seg ea n kind s = segLinear .and seg ea n kind s := by
  cases h : segLinear .and seg ea n kind s <;> simp [linear, h]

/-- Settles O24: stage (2) is the test of the linear address that stage (1) answers. -/
theorem xmmOperandAlignment : Obligations.XmmOperandAlignment := by
  refine fun seg ea n kind s lin => ⟨fun hlin => ?_, linear_and seg ea n kind s⟩
  rw [linear, hlin, andThen_next, alignCode_eq]
  by_cases haligned : lin.toNat % 16 = 0
  · simp [haligned]
  · rw [if_pos ⟨rfl, haligned⟩, if_neg haligned]
    split_ifs <;> rfl

end Sys2Proof.Machine
end

section
/-! The stages after the linear address: pages, then the alignment check (20_memory.md R72, R73; D3, D24). -/

namespace Sys2Proof.Machine

/-- The lowest byte that does not translate ends the translation (R72). -/
theorem translateAll_eq_fault (kind : AccessKind) (s : State) (lin : Word64) (n k : Nat) (c : BitVec 32) (r : Word64)
    (hk : k < n) (hbelow : ∀ j < k, ∃ a, translate s.sys (lin + BitVec.ofNat 64 j) kind = .phys a)
    (hfault : translate s.sys (lin + BitVec.ofNat 64 k) kind = .pageFault c r) :
    translateAll kind s lin n = .fault (.pf c r s.pc) := by
  induction k generalizing lin n with
  | zero =>
    obtain ⟨n, rfl⟩ := Nat.exists_eq_add_of_lt hk
    rw [BitVec.add_zero] at hfault
    simp [translateAll, hfault, raise]
  | succ k ih =>
    obtain ⟨n, rfl⟩ := Nat.exists_eq_add_of_lt hk
    have hnext (j : Nat) : lin + 1#64 + BitVec.ofNat 64 j = lin + BitVec.ofNat 64 (j + 1) := by
      rw [BitVec.add_assoc, Nat.add_comm j 1, BitVec.ofNat_add]
    obtain ⟨a, ha⟩ := hbelow 0 k.succ_pos
    rw [BitVec.add_zero] at ha
    have htail := ih (lin + 1#64) (k + 1 + n) (by omega)
      (fun j hj => hnext j ▸ hbelow (j + 1) (by omega)) (hnext k ▸ hfault)
    simp [translateAll, ha, htail]

/-- An access whose linear address stands is its translation, then the alignment check, then the holes. -/
theorem access_of_linear (cls : AccessClass) (seg : Seg) (ea : Word64) (n : Nat) (kind : AccessKind) (s : State)
    (lin : Word64) (hlin : linear cls seg ea n kind s = .next lin) (htop : lin.toNat + n ≤ 2 ^ linWidth s.sys.mode) :
    access cls seg ea n kind s =
      andThen (translateAll kind s lin n) fun as =>
        if AlignmentFault cls lin n s then .fault (.ac (some 0) s.pc)
        else (as.find? (inHole s.sys)).elim (.next as) fun a => .refused (.noMemory a) := by
  have hpast := (pastTop_eq_false _ _ _).mpr htop
  simp only [access, hlin, andThen_next, hpast, Bool.false_eq_true, if_false, alignmentCheck_eq_true, raise, code0]
  congr 1
  funext as
  cases as.find? (inHole s.sys) <;> rfl

/-- Settles O25: the translation's #PF is the access's. -/
theorem lowestFaultingByteRaisesPageFault : Obligations.LowestFaultingByteRaisesPageFault := by
  intro cls seg ea n kind s lin k c r hlin htop hk hbelow hfault
  rw [access_of_linear _ _ _ _ _ _ _ hlin htop, translateAll_eq_fault _ _ _ _ _ _ _ hk hbelow hfault, andThen_fault]

/-- Settles O26: past the alignment check an access answers or is refused, so no other test raises #AC. -/
theorem alignmentCheckOfAnd : Obligations.AlignmentCheckOfAnd := by
  intro cls seg ea n kind s lin as hlin htop htranslate
  rw [access_of_linear _ _ _ _ _ _ _ hlin htop, htranslate, andThen_next]
  by_cases hac : AlignmentFault cls lin n s
  · exact iff_of_true (if_pos hac) hac
  · rw [if_neg hac]
    refine iff_of_false (fun h => ?_) hac
    cases hhole : as.find? (inHole s.sys) <;> simp [hhole] at h

end Sys2Proof.Machine
end

section
/-! When an access answers (20_memory.md R65 to R73): one `↔` per stage, and the access from them. -/

namespace Sys2Proof.Machine

/-- A test that raises lets pass exactly where it fails. -/
theorem ite_raise_eq_next {α : Type} (p : Prop) [Decidable p] (f : Word64 → Fault) (s : State) (r : Result α)
    (a : α) : (if p then raise f s else r) = .next a ↔ ¬p ∧ r = .next a := by
  by_cases hp : p <;> simp [hp]

section answers

variable (cls : AccessClass) (seg : Seg) (code : Option (BitVec 32)) (ea : Word64) (n : Nat) (kind : AccessKind)
  (s : State) (lin : Word64)

theorem limitLinear_eq_next :
    limitLinear seg code ea n s = .next lin ↔
      (segDesc s.sys.segs seg).expandDown = false ∧ ea.toNat + n - 1 ≤ (segDesc s.sys.segs seg).limit.toNat ∧
        linear32 (segDesc s.sys.segs seg) ea = lin := by
  rw [limitLinear_eq, ← linear32_eq]
  split_ifs <;> simp_all

theorem protectedLinear_eq_next :
    protectedLinear cls seg ea n kind s = .next lin ↔
      ¬(nullChecked seg = true ∧ (segDesc s.sys.segs seg).null = true) ∧
      (kind = .rmw → (segDesc s.sys.segs seg).writable = true) ∧ (segDesc s.sys.segs seg).readable = true ∧
        limitLinear seg code0 ea n s = .next lin := by
  cases cls <;> simp [protectedLinear.eq_def, ite_raise_eq_next]

theorem realLinear_eq_next :
    realLinear cls code seg ea n s = .next lin ↔
      (cls = .and → (segDesc s.sys.segs seg).expandDown = false ∧
        ea.toNat + n - 1 ≤ (segDesc s.sys.segs seg).limit.toNat) ∧
      (cls = .xmm → ea.toNat + n - 1 ≤ 0xFFFF) ∧ linear32 (segDesc s.sys.segs seg) ea = lin := by
  rw [realLinear.eq_def]
  cases cls with
  | and => simp [limitLinear_eq_next, and_assoc]
  | xmm =>
    simp only [ite_raise_eq_next, not_lt, Host.Outcome.next.injEq, reduceCtorEq, false_implies, true_implies,
      true_and]

theorem long64Linear_eq_next :
    long64Linear seg ea n s = .next lin ↔
      (base64 s.sys.segs seg + ea).toNat + n ≤ 2 ^ 64 ∧
      (∀ k < n, CanonicalAddr s.sys.laBits (base64 s.sys.segs seg + ea + BitVec.ofNat 64 k)) ∧
        base64 s.sys.segs seg + ea = lin := by
  rw [long64Linear_eq]
  split_ifs <;> simp_all

theorem linearOf_of_long64 (hmode : s.sys.mode = .long64) : linearOf seg ea s = base64 s.sys.segs seg + ea :=
  if_pos hmode

theorem linearOf_of_ne_long64 (hmode : s.sys.mode ≠ .long64) :
    linearOf seg ea s = linear32 (segDesc s.sys.segs seg) ea := by
  rw [linear32_eq]
  exact if_neg hmode

/-- Stage (1) answers the linear address where no condition of the mode holds; in 64-bit mode the top is one. -/
theorem segLinear_eq_next :
    segLinear cls seg ea n kind s = .next lin ↔
      SegmentOk cls seg ea n kind s ∧ (s.sys.mode = .long64 → (linearOf seg ea s).toNat + n ≤ 2 ^ 64) ∧
        linearOf seg ea s = lin := by
  cases hmode : s.sys.mode with
  | prot | compat =>
    rw [segLinear_of_protected _ _ _ _ _ (by simp [hmode]), protectedLinear_eq_next, limitLinear_eq_next,
      linearOf_of_ne_long64 _ _ _ (by simp [hmode])]
    simp [SegmentOk, hmode, and_assoc]
  | real | v86 =>
    obtain ⟨code, hcode⟩ : ∃ code : Option (BitVec 32),
        (s.sys.mode = .real ∧ code = none) ∨ (s.sys.mode = .v86 ∧ code = some 0) := by simp [hmode]
    rw [segLinear_of_real _ _ code _ _ _ hcode, realLinear_eq_next,
      linearOf_of_ne_long64 _ _ _ (by simp [hmode])]
    simp [SegmentOk, hmode, and_assoc]
  | long64 =>
    rw [segLinear_of_long64 _ _ _ _ _ hmode, long64Linear_eq_next, ← linearOf_of_long64 _ _ _ hmode]
    simp [SegmentOk, hmode, and_left_comm]

theorem linear_eq_next :
    linear cls seg ea n kind s = .next lin ↔
      segLinear cls seg ea n kind s = .next lin ∧ (cls = .xmm → lin.toNat % 16 = 0) := by
  simp [linear, andThen_eq_next, ite_raise_eq_next, and_comm]

end answers

/-- Settles O20: the conditions of each stage, at the one linear address that stage (1) can answer. -/
theorem accessAnswersExactlyWhenOk : Obligations.AccessAnswersExactlyWhenOk := by
  intro cls seg ea n kind s as _
  simp only [access_eq_next, linear_eq_next, segLinear_eq_next, pastTop_eq_false, translateAll_eq_next,
    alignmentCheck_eq_false, List.find?_eq_none, inHole_eq_true]
  constructor
  · rintro ⟨_, ⟨⟨hseg, -, rfl⟩, haligned⟩, htop, ⟨hlength, hbytes⟩, hac, hholes⟩
    exact ⟨hseg, htop, haligned, hlength, hbytes, hac, hholes⟩
  · rintro ⟨hseg, htop, haligned, hlength, hbytes, hac, hholes⟩
    have htop64 (hmode : s.sys.mode = .long64) : (linearOf seg ea s).toNat + n ≤ 2 ^ 64 := by
      rwa [hmode] at htop
    exact ⟨_, ⟨⟨hseg, htop64, rfl⟩, haligned⟩, htop, ⟨hlength, hbytes⟩, hac, hholes⟩

end Sys2Proof.Machine
end

section
/-! Statements that the decoding of a well-formed instruction's bytes answers (30_encoding.md R90 to R119). -/

namespace Sys2Proof

/-- Settles O1: one lemma per part of an encoding, in the order of `decode`. -/
theorem decodeEncodeAgree : Obligations.DecodeEncodeAgree := decode_encode_append

/-- Settles O4: the decoder runs on each of the eight strings. -/
theorem specimenBytesDecode : Obligations.SpecimenBytesDecode := by
  unfold Obligations.SpecimenBytesDecode
  decide

end Sys2Proof
end

section
/-! What decodes was spelled (30_encoding.md R90 to R131): one lemma per part of the decoder, in its order, each
saying which bytes it consumed, and `decode_eq_ok` from them. -/

namespace Sys2Proof

/-- A sequence that answers: its first part did, and the second on that answer. -/
theorem exists_of_bind_eq_ok {ε α β : Type} {x : Except ε α} {f : α → Except ε β} {b : β}
    (h : (x >>= f) = .ok b) : ∃ a, x = .ok a ∧ f a = .ok b := by
  cases x with
  | error e => cases h
  | ok a => exact ⟨a, rfl, h⟩

/-! ## Little-endian fields -/

theorem eq_cons_of_take8 {bs rest : List Byte} {v : BitVec 8} (h : take8 bs = .ok (v, rest)) : bs = v :: rest := by
  cases bs with
  | nil => cases h
  | cons a bs => cases h; rfl

theorem bytes16_append (b a : Byte) : bytes16 (b ++ a) = [a, b] := by
  have ha : (b ++ a).extractLsb' 0 8 = a := BitVec.extractLsb'_append_eq_right
  have hb : (b ++ a).extractLsb' 8 8 = b := BitVec.extractLsb'_append_eq_left
  simp [bytes16, ha, hb]

theorem eq_bytes16_append_of_take16 {bs rest : List Byte} {v : BitVec 16} (h : take16 bs = .ok (v, rest)) :
    bs = bytes16 v ++ rest := by
  match bs, h with
  | a :: b :: bs, h => cases h; simp [bytes16_append]

theorem bytes32_append (d c b a : Byte) : bytes32 (d ++ c ++ b ++ a) = [a, b, c, d] := by
  have ha : (d ++ c ++ b ++ a).extractLsb' 0 8 = a := BitVec.extractLsb'_append_eq_right
  have hb : (d ++ c ++ b ++ a).extractLsb' 8 8 = b := by
    rw [BitVec.extractLsb'_append_eq_of_le (by decide)]
    exact BitVec.extractLsb'_append_eq_right
  have hc : (d ++ c ++ b ++ a).extractLsb' 16 8 = c := by
    rw [BitVec.extractLsb'_append_eq_of_le (by decide), BitVec.extractLsb'_append_eq_of_le (by decide)]
    exact BitVec.extractLsb'_append_eq_right
  have hd : (d ++ c ++ b ++ a).extractLsb' 24 8 = d := by
    rw [BitVec.extractLsb'_append_eq_of_le (by decide), BitVec.extractLsb'_append_eq_of_le (by decide)]
    exact BitVec.extractLsb'_append_eq_left
  simp [bytes32, ha, hb, hc, hd]

theorem eq_bytes32_append_of_take32 {bs rest : List Byte} {v : BitVec 32} (h : take32 bs = .ok (v, rest)) :
    bs = bytes32 v ++ rest := by
  match bs, h with
  | a :: b :: c :: d :: bs, h => cases h; simp [bytes32_append]

/-! ## ModRM, SIB, displacement (R101, R106, R107, R109) -/

/-- A byte is put together again from its fields. -/
theorem modRM_fields (m : Byte) : modRM (m.extractLsb' 6 2) (m.extractLsb' 3 3) (m.extractLsb' 0 3) = m := by
  have h6 : m.extractLsb' 6 2 ++ m.extractLsb' 3 3 = m.extractLsb' 3 5 :=
    BitVec.extractLsb'_append_extractLsb'_eq_extractLsb' rfl
  have h3 : m.extractLsb' 3 5 ++ m.extractLsb' 0 3 = m.extractLsb' 0 8 :=
    BitVec.extractLsb'_append_extractLsb'_eq_extractLsb' rfl
  simp [modRM, h6, h3]

/-- What `dispMod_zero_excluded` says, the other way round. -/
theorem isNone_or_ne_of_dispMod {w : Nat} (d : Disp w) (f g : BitVec 3) (h : ¬ (dispMod d = 0#2 ∧ f = g)) :
    (!d.isNone || f != g) = true := by
  cases d with
  | none => simpa [dispMod, Disp.isNone] using h
  | d8 d => rfl
  | full d => rfl

theorem eq_two_of_mod {mod : BitVec 2} (h3 : mod ≠ 3) (h0 : mod ≠ 0) (h1 : mod ≠ 1) : mod = 2 := by
  decide +revert

theorem takeDisp16_eq_ok {mod : BitVec 2} {bs rest : List Byte} {d : Disp 16} (hm : mod ≠ 3)
    (h : takeDisp16 mod bs = .ok (d, rest)) : mod = dispMod d ∧ bs = encodeDisp16 d ++ rest := by
  unfold takeDisp16 at h
  split_ifs at h with h0 h1
  · cases h
    exact ⟨h0, rfl⟩
  · obtain ⟨⟨v, cs⟩, hv, ⟨⟩⟩ := exists_of_bind_eq_ok h
    exact ⟨h1, eq_cons_of_take8 hv⟩
  · obtain ⟨⟨v, cs⟩, hv, ⟨⟩⟩ := exists_of_bind_eq_ok h
    exact ⟨eq_two_of_mod hm h0 h1, eq_bytes16_append_of_take16 hv⟩

theorem takeDisp32_eq_ok {mod : BitVec 2} {bs rest : List Byte} {d : Disp 32} (hm : mod ≠ 3)
    (h : takeDisp32 mod bs = .ok (d, rest)) : mod = dispMod d ∧ bs = encodeDisp32 d ++ rest := by
  unfold takeDisp32 at h
  split_ifs at h with h0 h1
  · cases h
    exact ⟨h0, rfl⟩
  · obtain ⟨⟨v, cs⟩, hv, ⟨⟩⟩ := exists_of_bind_eq_ok h
    exact ⟨h1, eq_cons_of_take8 hv⟩
  · obtain ⟨⟨v, cs⟩, hv, ⟨⟩⟩ := exists_of_bind_eq_ok h
    exact ⟨eq_two_of_mod hm h0 h1, eq_bytes32_append_of_take32 hv⟩

section memory

variable {mod : BitVec 2} {rm : BitVec 3} {bs rest : List Byte} {m : MemOp} (hm : mod ≠ 3) (reg : BitVec 3)
include hm

theorem takeMem16_eq_ok (h : takeMem16 mod rm bs = .ok (m, rest)) :
    (Rm.mem m).wf true = true ∧ modRM mod reg rm :: bs = encodeRm reg (.mem m) ++ rest := by
  unfold takeMem16 at h
  split_ifs at h with hdirect
  · obtain ⟨⟨d, cs⟩, hd, ⟨⟩⟩ := exists_of_bind_eq_ok h
    obtain ⟨rfl, rfl⟩ := hdirect
    exact ⟨rfl, congrArg _ (eq_bytes16_append_of_take16 hd)⟩
  · obtain ⟨⟨d, cs⟩, hd, ⟨⟩⟩ := exists_of_bind_eq_ok h
    obtain ⟨rfl, rfl⟩ := takeDisp16_eq_ok hm hd
    exact ⟨isNone_or_ne_of_dispMod d rm 6 hdirect, rfl⟩

theorem takeSib_eq_ok (h : takeSib mod bs = .ok (m, rest)) :
    (Rm.mem m).wf false = true ∧ modRM mod reg 4 :: bs = encodeRm reg (.mem m) ++ rest := by
  cases bs with
  | nil => cases h
  | cons sib bs =>
    have hsib := modRM_fields sib
    rw [← sibByte_eq_modRM] at hsib
    simp only [takeSib] at h
    split_ifs at h with hbase
    · obtain ⟨⟨d, cs⟩, hd, ⟨⟩⟩ := exists_of_bind_eq_ok h
      obtain ⟨rfl, h5⟩ := hbase
      rw [h5] at hsib
      exact ⟨rfl, congrArg (modRM 0 reg 4 :: ·) (congrArg₂ _ hsib.symm (eq_bytes32_append_of_take32 hd))⟩
    · obtain ⟨⟨d, cs⟩, hd, ⟨⟩⟩ := exists_of_bind_eq_ok h
      obtain ⟨rfl, rfl⟩ := takeDisp32_eq_ok hm hd
      exact ⟨isNone_or_ne_of_dispMod d _ 5 hbase, by simp [encodeRm, hsib]⟩

theorem takeMem32_eq_ok (h : takeMem32 mod rm bs = .ok (m, rest)) :
    (Rm.mem m).wf false = true ∧ modRM mod reg rm :: bs = encodeRm reg (.mem m) ++ rest := by
  unfold takeMem32 at h
  split_ifs at h with h4 hdisp
  · subst h4
    exact takeSib_eq_ok hm reg h
  · obtain ⟨⟨d, cs⟩, hd, ⟨⟩⟩ := exists_of_bind_eq_ok h
    obtain ⟨rfl, rfl⟩ := hdisp
    exact ⟨rfl, congrArg _ (eq_bytes32_append_of_take32 hd)⟩
  · obtain ⟨⟨d, cs⟩, hd, ⟨⟩⟩ := exists_of_bind_eq_ok h
    obtain ⟨rfl, rfl⟩ := takeDisp32_eq_ok hm hd
    have hrm : (!false && rm != 4) = true := by simpa using h4
    exact ⟨Bool.and_eq_true_iff.mpr ⟨hrm, isNone_or_ne_of_dispMod d rm 5 hdisp⟩, rfl⟩

end memory

/-- The bytes of ModRM and what it selects are the encoding of the operand read, which the address size admits. -/
theorem takeModRM_eq_ok {a16 : Bool} {bs rest : List Byte} {reg : BitVec 3} {rm : Rm}
    (h : takeModRM a16 bs = .ok ((reg, rm), rest)) : rm.wf a16 = true ∧ bs = encodeRm reg rm ++ rest := by
  cases bs with
  | nil => cases h
  | cons m bs =>
    have hfields := modRM_fields m
    simp only [takeModRM] at h
    split_ifs at h with h3 ha
    · cases h
      rw [h3] at hfields
      exact ⟨rfl, congrArg (· :: _) hfields.symm⟩
    · obtain ⟨⟨o, cs⟩, ho, ⟨⟩⟩ := exists_of_bind_eq_ok h
      simpa only [ha, hfields] using takeMem16_eq_ok h3 (m.extractLsb' 3 3) ho
    · obtain ⟨⟨o, cs⟩, ho, ⟨⟩⟩ := exists_of_bind_eq_ok h
      simpa only [ha, hfields] using takeMem32_eq_ok h3 (m.extractLsb' 3 3) ho

theorem takeGroup4_eq_ok {a16 : Bool} {bs rest : List Byte} {rm : Rm} (h : takeGroup4 a16 bs = .ok (rm, rest)) :
    rm.wf a16 = true ∧ bs = encodeRm 4 rm ++ rest := by
  obtain ⟨⟨⟨reg, o⟩, cs⟩, hmod, h⟩ := exists_of_bind_eq_ok h
  dsimp only at h
  split_ifs at h with h4
  cases h
  subst h4
  exact takeModRM_eq_ok hmod

/-! ## Opcode and operands (R104, R115 to R119) -/

/-- The bytes of an opcode (R104, R115 to R118). -/
def opcodeBytes : Opcode → List Byte
  | .o24 => [0x24]
  | .o25 => [0x25]
  | .o80 => [0x80]
  | .o81 => [0x81]
  | .o83 => [0x83]
  | .o20 => [0x20]
  | .o21 => [0x21]
  | .o22 => [0x22]
  | .o23 => [0x23]
  | .o0F54 => [0x0F, 0x54]
  | .o0F3ADF => [0x0F, 0x3A, 0xDF]

theorem eq_of_opcode1? {b : Byte} {o : Opcode} (h : opcode1? b = some o) : opcodeBytes o = [b] := by
  unfold opcode1? at h
  split_ifs at h <;> cases h <;> subst b <;> rfl

theorem takeOpcode_eq_ok {bs rest : List Byte} {o : Opcode} (h : takeOpcode bs = .ok (o, rest)) :
    bs = opcodeBytes o ++ rest := by
  match bs, h with
  | b :: bs, h =>
    simp only [takeOpcode] at h
    split_ifs at h with h0F
    · match bs, h with
      | c :: bs, h =>
        simp only [takeOpcode0F] at h
        split_ifs at h with h54 h3A
        · cases h
          rw [h0F, h54]
          rfl
        · match bs, h with
          | d :: bs, h =>
            simp only [takeOpcode0F3A] at h
            split_ifs at h with hDF
            cases h
            rw [h0F, h3A, hDF]
            rfl
    · split at h
      · next o' ho =>
        cases h
        rw [eq_of_opcode1? ho]
        rfl
      · cases h

/-- `i` is the row whose bytes `bs` begin with, behind prefixes `p` that the row admits (R119, R134). -/
structure ReadsRow (cx : CodeCtx) (p : Prefixes) (bs : List Byte) (i : Instr) (rest : List Byte) : Prop where
  prefixes : i.prefixes = p
  rex : i.rowRule.rex.holds p.rex = true
  p66 : i.rowRule.p66.holds cx i.rowRule.opsize p.p66 = true
  rm : i.rm?.all (fun rm => rm.wf (addressSize16 cx p.p67)) = true
  bytes : bs = encodeBody i ++ rest

/-! The rows' conditions on REX and on 66 where the prefixes choose among rows. -/

def WideSize.rexRule : WideSize → RexRule
  | .w16 => .w0
  | .w32 => .w0
  | .w64 => .w1

def WideSize.p66Rule : WideSize → P66Rule
  | .w16 => .perOpsize
  | .w32 => .perOpsize
  | .w64 => .ignored

def WideSize.bits : WideSize → Nat
  | .w16 => 16
  | .w32 => 32
  | .w64 => 64

section rules

variable (cx : CodeCtx) (p : Prefixes)

theorem w0_of_rexW (h : p.rexW = false) : RexRule.holds .w0 p.rex = true := by
  cases hr : p.rex with
  | none => rfl
  | some r => simpa [Prefixes.rexW, RexRule.holds, hr] using h

theorem absent_of_rexIsSome (h : ¬ p.rex.isSome = true) : RexRule.holds .absent p.rex = true := by
  simpa [RexRule.holds] using h

/-- The operand size that the prefixes choose meets the conditions of its rows (R96, R97). -/
theorem wideSize_rules : (wideSize cx p).rexRule.holds p.rex = true ∧
    (wideSize cx p).p66Rule.holds cx (wideSize cx p).bits p.p66 = true := by
  by_cases hw : p.rexW = true
  · simp only [wideSize, hw, if_true]
    exact ⟨hw, rfl⟩
  · have hw0 := w0_of_rexW p (Bool.eq_false_iff.mpr hw)
    obtain ⟨mode, csD⟩ := cx
    simp only [wideSize, hw]
    cases mode <;> cases csD <;> cases p.p66 <;> exact ⟨hw0, rfl⟩

end rules

section takeOperands

variable {cx : CodeCtx} {p : Prefixes} {bs rest : List Byte} {i : Instr}

theorem readsRow_of_takeAccWide {z : WideSize} (hr : z.rexRule.holds p.rex = true)
    (h66 : z.p66Rule.holds cx z.bits p.p66 = true) (h : takeAccWide z p bs = .ok (i, rest)) :
    ReadsRow cx p (opcodeBytes .o25 ++ bs) i rest := by
  cases z with
  | w16 =>
    obtain ⟨⟨v, cs⟩, hv, ⟨⟩⟩ := exists_of_bind_eq_ok h
    exact ⟨rfl, hr, h66, rfl, congrArg _ (eq_bytes16_append_of_take16 hv)⟩
  | w32 =>
    obtain ⟨⟨v, cs⟩, hv, ⟨⟩⟩ := exists_of_bind_eq_ok h
    exact ⟨rfl, hr, h66, rfl, congrArg _ (eq_bytes32_append_of_take32 hv)⟩
  | w64 =>
    obtain ⟨⟨v, cs⟩, hv, ⟨⟩⟩ := exists_of_bind_eq_ok h
    exact ⟨rfl, hr, h66, rfl, congrArg _ (eq_bytes32_append_of_take32 hv)⟩

theorem readsRow_of_takeImmWide {z : WideSize} {rm : Rm} (hr : z.rexRule.holds p.rex = true)
    (h66 : z.p66Rule.holds cx z.bits p.p66 = true) (hrm : rm.wf (addressSize16 cx p.p67) = true)
    (h : takeImmWide z p rm bs = .ok (i, rest)) :
    ReadsRow cx p (opcodeBytes .o81 ++ (encodeRm 4 rm ++ bs)) i rest := by
  cases z with
  | w16 =>
    obtain ⟨⟨v, cs⟩, hv, ⟨⟩⟩ := exists_of_bind_eq_ok h
    exact ⟨rfl, hr, h66, hrm, by simp [opcodeBytes, encodeBody, eq_bytes16_append_of_take16 hv]⟩
  | w32 =>
    obtain ⟨⟨v, cs⟩, hv, ⟨⟩⟩ := exists_of_bind_eq_ok h
    exact ⟨rfl, hr, h66, hrm, by simp [opcodeBytes, encodeBody, eq_bytes32_append_of_take32 hv]⟩
  | w64 =>
    obtain ⟨⟨v, cs⟩, hv, ⟨⟩⟩ := exists_of_bind_eq_ok h
    exact ⟨rfl, hr, h66, hrm, by simp [opcodeBytes, encodeBody, eq_bytes32_append_of_take32 hv]⟩

/-- Steps (4) and (5) of R105: the operands read are the rest of a row's bytes. -/
theorem readsRow_of_takeOperands (o : Opcode) (h : takeOperands cx p o bs = .ok (i, rest)) :
    ReadsRow cx p (opcodeBytes o ++ bs) i rest := by
  obtain ⟨hr, h66⟩ := wideSize_rules cx p
  cases o with
  | o24 =>
    obtain ⟨⟨v, cs⟩, hv, ⟨⟩⟩ := exists_of_bind_eq_ok h
    exact ⟨rfl, rfl, rfl, rfl, congrArg _ (eq_cons_of_take8 hv)⟩
  | o25 => exact readsRow_of_takeAccWide hr h66 h
  | o80 =>
    obtain ⟨⟨rm, cs⟩, hop, himm⟩ := exists_of_bind_eq_ok h
    obtain ⟨⟨v, ds⟩, hv, ⟨⟩⟩ := exists_of_bind_eq_ok himm
    obtain ⟨hrm, rfl⟩ := takeGroup4_eq_ok hop
    obtain rfl := eq_cons_of_take8 hv
    split_ifs with hrex
    · exact ⟨rfl, hrex, rfl, hrm, by simp [opcodeBytes, encodeBody]⟩
    · exact ⟨rfl, absent_of_rexIsSome p hrex, rfl, hrm, by simp [opcodeBytes, encodeBody]⟩
  | o81 =>
    obtain ⟨⟨rm, cs⟩, hop, himm⟩ := exists_of_bind_eq_ok h
    obtain ⟨hrm, rfl⟩ := takeGroup4_eq_ok hop
    exact readsRow_of_takeImmWide hr h66 hrm himm
  | o83 =>
    obtain ⟨⟨rm, cs⟩, hop, himm⟩ := exists_of_bind_eq_ok h
    obtain ⟨⟨v, ds⟩, hv, ⟨⟩⟩ := exists_of_bind_eq_ok himm
    obtain ⟨hrm, rfl⟩ := takeGroup4_eq_ok hop
    obtain rfl := eq_cons_of_take8 hv
    generalize wideSize cx p = z at hr h66 ⊢
    cases z <;> exact ⟨rfl, hr, h66, hrm, by simp [opcodeBytes, encodeBody, immByteWide]⟩
  | o20 =>
    obtain ⟨⟨⟨reg, rm⟩, cs⟩, hop, ⟨⟩⟩ := exists_of_bind_eq_ok h
    obtain ⟨hrm, rfl⟩ := takeModRM_eq_ok hop
    split_ifs with hrex
    · exact ⟨rfl, hrex, rfl, hrm, rfl⟩
    · exact ⟨rfl, absent_of_rexIsSome p hrex, rfl, hrm, rfl⟩
  | o21 =>
    obtain ⟨⟨⟨reg, rm⟩, cs⟩, hop, ⟨⟩⟩ := exists_of_bind_eq_ok h
    obtain ⟨hrm, rfl⟩ := takeModRM_eq_ok hop
    generalize wideSize cx p = z at hr h66 ⊢
    cases z <;> exact ⟨rfl, hr, h66, hrm, rfl⟩
  | o22 =>
    obtain ⟨⟨⟨reg, rm⟩, cs⟩, hop, ⟨⟩⟩ := exists_of_bind_eq_ok h
    obtain ⟨hrm, rfl⟩ := takeModRM_eq_ok hop
    split_ifs with hrex
    · exact ⟨rfl, hrex, rfl, hrm, rfl⟩
    · exact ⟨rfl, absent_of_rexIsSome p hrex, rfl, hrm, rfl⟩
  | o23 =>
    obtain ⟨⟨⟨reg, rm⟩, cs⟩, hop, ⟨⟩⟩ := exists_of_bind_eq_ok h
    obtain ⟨hrm, rfl⟩ := takeModRM_eq_ok hop
    generalize wideSize cx p = z at hr h66 ⊢
    cases z <;> exact ⟨rfl, hr, h66, hrm, rfl⟩
  | o0F54 =>
    simp only [takeOperands] at h
    split_ifs at h with hw hp
    · obtain ⟨⟨⟨reg, rm⟩, cs⟩, hop, ⟨⟩⟩ := exists_of_bind_eq_ok h
      obtain ⟨hrm, rfl⟩ := takeModRM_eq_ok hop
      exact ⟨rfl, w0_of_rexW p (Bool.eq_false_iff.mpr hw), hp, hrm, rfl⟩
    · obtain ⟨⟨⟨reg, rm⟩, cs⟩, hop, ⟨⟩⟩ := exists_of_bind_eq_ok h
      obtain ⟨hrm, rfl⟩ := takeModRM_eq_ok hop
      have habsent : (!p.p66) = true := by simpa using hp
      exact ⟨rfl, w0_of_rexW p (Bool.eq_false_iff.mpr hw), habsent, hrm, rfl⟩
  | o0F3ADF =>
    simp only [takeOperands] at h
    split_ifs at h with hp hw
    have hmandatory : p.p66 = true := by simpa using hp
    obtain ⟨⟨⟨reg, rm⟩, cs⟩, hop, himm⟩ := exists_of_bind_eq_ok h
    obtain ⟨⟨v, ds⟩, hv, ⟨⟩⟩ := exists_of_bind_eq_ok himm
    obtain ⟨hrm, rfl⟩ := takeModRM_eq_ok hop
    obtain rfl := eq_cons_of_take8 hv
    exact ⟨rfl, w0_of_rexW p (Bool.eq_false_iff.mpr hw), hmandatory, hrm, by simp [opcodeBytes, encodeBody]⟩

end takeOperands

/-! ## Prefixes (R91, R95, R99, R100) -/

/-- The bytes `ps`, all of them prefixes that the mode admits, say `p`. -/
structure SpellsPrefixes (cx : CodeCtx) (ps : List Byte) (p : Prefixes) : Prop where
  isPrefix : ∀ b ∈ ps, (prefixByte? b).isSome = true ∨ cx.mode = .long64 ∧ isRexByte b = true
  noRep : ∀ b ∈ ps, prefixByte? b ≠ some .rep
  p66 : p.p66 = true → 0x66 ∈ ps
  length : ps.length = p.size
  wf : p.wf cx = true

theorem spellsPrefixes_nil (cx : CodeCtx) : SpellsPrefixes cx [] noPrefixes where
  isPrefix := List.forall_mem_nil _
  noRep := List.forall_mem_nil _
  p66 h := by cases h
  length := rfl
  wf := by simp [Prefixes.wf, noPrefixes]

/-- One more byte among the prefixes, and what it says. -/
theorem SpellsPrefixes.snoc {cx : CodeCtx} {ps : List Byte} {p q : Prefixes} {b : Byte} (h : SpellsPrefixes cx ps p)
    (hb : (prefixByte? b).isSome = true ∨ cx.mode = .long64 ∧ isRexByte b = true)
    (hrep : prefixByte? b ≠ some .rep) (h66 : q.p66 = true → p.p66 = true ∨ b = 0x66)
    (hsize : q.size = p.size + 1) (hwf : q.wf cx = true) :
    SpellsPrefixes cx (ps ++ [b]) q where
  isPrefix := by simpa [or_imp, forall_and] using ⟨h.isPrefix, hb⟩
  noRep := by simpa [or_imp, forall_and] using ⟨h.noRep, hrep⟩
  p66 hq := List.mem_append.mpr ((h66 hq).imp h.p66 fun e => List.mem_singleton.mpr e.symm)
  length := by simp [h.length, hsize]
  wf := hwf

theorem eq_of_prefixByte?_p66 : ∀ b : Byte, prefixByte? b = some .p66 → b = 0x66 := by decide

theorem wf_setSeg {cx : CodeCtx} {p : Prefixes} {g : Seg} (h : p.wf cx = true) (hg : overrideAdmitted cx g = true) :
    Prefixes.wf cx { p with seg := some g } = true := by
  obtain ⟨hrex, -⟩ := Bool.and_eq_true_iff.mp h
  exact Bool.and_eq_true_iff.mpr ⟨hrex, by simpa [overrideAdmitted] using hg⟩

/-- A legacy byte that may stand there (R99, R100) is one more among the prefixes. -/
theorem SpellsPrefixes.snoc_legacy {cx : CodeCtx} {ps : List Byte} {p q : Prefixes} {b : Byte} {k : PrefixByte}
    (h : SpellsPrefixes cx ps p) (hb : prefixByte? b = some k) (hk : addPrefix cx p k = .ok q) :
    SpellsPrefixes cx (ps ++ [b]) q ∧ q.rex = p.rex := by
  have hsome : (prefixByte? b).isSome = true := by rw [hb]; rfl
  unfold addPrefix at hk
  cases k with
  | lock =>
    dsimp only at hk
    split_ifs at hk with hlock
    cases hk
    exact ⟨h.snoc (.inl hsome) (by simp [hb]) .inl (by simp [Prefixes.size, hlock]; omega) h.wf, rfl⟩
  | p66 =>
    dsimp only at hk
    split_ifs at hk with h66
    cases hk
    exact ⟨h.snoc (.inl hsome) (by simp [hb]) (fun _ => .inr (eq_of_prefixByte?_p66 b hb))
      (by simp [Prefixes.size, h66]; omega) h.wf, rfl⟩
  | p67 =>
    dsimp only at hk
    split_ifs at hk with h67
    cases hk
    exact ⟨h.snoc (.inl hsome) (by simp [hb]) .inl (by simp [Prefixes.size, h67]; omega) h.wf, rfl⟩
  | rep => cases hk
  | seg g =>
    dsimp only at hk
    split_ifs at hk with _ hseg hg
    cases hk
    have hnone : p.seg = none := by simpa using hseg
    exact ⟨h.snoc (.inl hsome) (by simp [hb]) .inl (by simp [Prefixes.size, hnone]; omega)
      (wf_setSeg h.wf (by simpa using hg)), rfl⟩

/-- Step (1) of R105 consumes legacy prefixes. -/
theorem takePrefixes_eq_ok {cx : CodeCtx} {ps bs rest : List Byte} {p q : Prefixes} (h : SpellsPrefixes cx ps p)
    (hrex : p.rex = none) (ht : takePrefixes cx p bs = .ok (q, rest)) :
    ∃ qs, SpellsPrefixes cx qs q ∧ q.rex = none ∧ ps ++ bs = qs ++ rest := by
  induction bs generalizing ps p with
  | nil => cases ht
  | cons b bs ih =>
    cases hb : prefixByte? b with
    | none =>
      rw [takePrefixes_stop cx p b bs hb] at ht
      cases ht
      exact ⟨ps, h, hrex, rfl⟩
    | some k =>
      cases hk : addPrefix cx p k with
      | error e => simp [takePrefixes, hb, hk] at ht
      | ok p' =>
        rw [takePrefixes_cons cx p p' b bs k hb hk] at ht
        obtain ⟨h', hrex'⟩ := h.snoc_legacy hb hk
        simpa using ih h' (hrex'.trans hrex) ht

theorem prefixByte?_of_isRexByte : ∀ b : Byte, isRexByte b = true → prefixByte? b = none := by decide

theorem wf_setRex {cx : CodeCtx} {p : Prefixes} {r : Rex} (h : p.wf cx = true) (hmode : cx.mode = .long64) :
    Prefixes.wf cx { p with rex := some r } = true := by
  obtain ⟨-, hseg⟩ := Bool.and_eq_true_iff.mp h
  exact Bool.and_eq_true_iff.mpr ⟨by simp [hmode], hseg⟩

/-- Step (2) of R105 consumes a REX byte in 64-bit mode, or nothing. -/
theorem takeRex_eq_ok {cx : CodeCtx} {ps bs rest : List Byte} {p q : Prefixes} (h : SpellsPrefixes cx ps p)
    (hrex : p.rex = none) (ht : takeRex cx p bs = .ok (q, rest)) :
    ∃ qs, SpellsPrefixes cx qs q ∧ ps ++ bs = qs ++ rest := by
  match bs, ht with
  | b :: bs, ht =>
    simp only [takeRex] at ht
    split_ifs at ht with hb
    · match bs, ht with
      | c :: bs, ht =>
        dsimp only at ht
        split_ifs at ht
        cases ht
        have hlegacy := prefixByte?_of_isRexByte b hb.2
        exact ⟨ps ++ [b], h.snoc (.inr hb) (by simp [hlegacy]) .inl (by simp [Prefixes.size, hrex])
          (wf_setRex h.wf hb.1), by simp⟩
    · cases ht
      exact ⟨ps, h, rfl⟩

/-- Steps (1) to (5) of R105: prefixes, then the bytes of a row that they admit. -/
theorem decodeAnyLength_eq_ok {cx : CodeCtx} {bs rest : List Byte} {i : Instr}
    (h : decodeAnyLength cx bs = .ok (i, rest)) :
    ∃ ps cs, SpellsPrefixes cx ps i.prefixes ∧ ReadsRow cx i.prefixes cs i rest ∧ bs = ps ++ cs := by
  obtain ⟨⟨p, cs⟩, hlegacy, h⟩ := exists_of_bind_eq_ok h
  obtain ⟨⟨q, ds⟩, hrex, h⟩ := exists_of_bind_eq_ok h
  obtain ⟨⟨o, es⟩, hop, hrow⟩ := exists_of_bind_eq_ok h
  obtain ⟨ps, hps, hpre, hbs⟩ := takePrefixes_eq_ok (spellsPrefixes_nil cx) rfl hlegacy
  obtain ⟨qs, hqs, hcs⟩ := takeRex_eq_ok hps hpre hrex
  have hreads := readsRow_of_takeOperands o hrow
  rw [← takeOpcode_eq_ok hop] at hreads
  obtain rfl := hreads.prefixes
  exact ⟨qs, ds, hqs, hreads, hbs.trans hcs⟩

/-- What decodes is well-formed, and its bytes are some that say its prefixes, then its own. -/
theorem decode_eq_ok {cx : CodeCtx} {bs rest : List Byte} {i : Instr} (h : decode cx bs = .ok (i, rest)) :
    i.wf cx = true ∧ ∃ ps, SpellsPrefixes cx ps i.prefixes ∧ bs = ps ++ (encodeBody i ++ rest) := by
  unfold decode at h
  split at h
  · cases h
  · next i' rest' hany =>
    split_ifs at h with hlong
    cases h
    obtain ⟨ps, cs, hps, hrow, rfl⟩ := decodeAnyLength_eq_ok hany
    obtain ⟨-, hrex, h66, hrm, rfl⟩ := hrow
    have hsize : i.size = ps.length + (encodeBody i).length := by
      rw [← Laws.encodedLength i, Laws.encode_length, hps.length]
    simp only [List.length_append] at hlong
    refine ⟨(Instr.wf_iff cx i).mpr ⟨hps.wf, hrex, h66, ?_, by omega⟩, ps, hps, rfl⟩
    simpa only [addressSize16_eq_addr16] using hrm

/-- Settles O3: the bytes of the prefixes and the instruction's own are as many as its encoding. -/
theorem decodedLengthIsConsumed : Obligations.DecodedLengthIsConsumed := by
  intro cx bs i rest h
  obtain ⟨hwf, ps, hps, rfl⟩ := decode_eq_ok h
  have hlength : instrLength i = (ps ++ encodeBody i).length := by
    rw [Laws.encode_length, List.length_append, hps.length]
  rw [hlength, ← List.append_assoc]
  refine ⟨hlength ▸ instrLength_le_of_wf cx i hwf, ?_, List.drop_left.symm⟩
  rw [List.length_append (as := ps ++ encodeBody i)]
  exact Nat.le_add_right _ _

/-! ## What does not decode (R126, R131) -/

/-- The bytes that satisfy `P` before the first that does not are determined. -/
theorem append_cons_inj_of_forall {α : Type} {P : α → Bool} {ps qs xs ys : List α} {x y : α}
    (hps : ∀ q ∈ ps, P q = true) (hqs : ∀ q ∈ qs, P q = true) (hx : P x = false) (hy : P y = false)
    (h : ps ++ x :: xs = qs ++ y :: ys) : ps = qs ∧ x :: xs = y :: ys := by
  have htail : x :: xs = y :: ys := by
    simpa [List.dropWhile_append_of_pos hps, List.dropWhile_append_of_pos hqs, List.dropWhile_cons, hx, hy] using
      congrArg (List.dropWhile P) h
  exact ⟨List.append_cancel_right (htail ▸ h), htail⟩

theorem isRexByte_of_toNat : ∀ b : Byte, 0x40 ≤ b.toNat → b.toNat ≤ 0x4F → isRexByte b = true := by decide

/-- Settles O5: outside 64-bit mode nothing decodes with REX, and a byte `40H..4FH` heads no instruction's own bytes. -/
theorem rexRowsOnlyIn64BitMode : Obligations.RexRowsOnlyIn64BitMode := by
  intro cx hmode
  refine ⟨fun bs i rest h => ?_, fun ps b bs r hps hlo hhi h => ?_⟩
  · obtain ⟨hp, hrex, -⟩ := (Instr.wf_iff cx i).mp (decode_eq_ok h).1
    have hnone : i.prefixes.rex = none := by
      cases hr : i.prefixes.rex with
      | none => rfl
      | some r => exact absurd (mode_of_wf_rex cx _ hp r hr) hmode
    rw [hnone] at hrex
    exact ⟨hnone, fun e => by simp [e, RexRule.holds] at hrex, fun e => by simp [e, RexRule.holds] at hrex⟩
  · obtain ⟨-, qs, hqs, hsplit⟩ := decode_eq_ok h
    obtain ⟨c, cs, hbody, hc, hcrex⟩ := encodeBody_head r.1
    have hb := isRexByte_of_toNat b hlo hhi
    rw [hbody] at hsplit
    obtain ⟨-, htail⟩ := append_cons_inj_of_forall hps
      (fun q hq => (hqs.isPrefix q hq).resolve_right fun hlong => hmode hlong.1)
      (by simp [prefixByte?_of_isRexByte b hb]) (by simp [hc]) hsplit
    obtain ⟨rfl, -⟩ := List.cons_eq_cons.mp htail
    rw [hb] at hcrex
    cases hcrex

/-- Behind prefixes, what decodes from an opcode byte on is the instruction's own bytes. -/
theorem decode_append_cons_eq_ok {cx : CodeCtx} {ps bs rest : List Byte} {b : Byte} {i : Instr}
    (hps : ∀ q ∈ ps, (prefixByte? q).isSome = true ∨ isRexByte q = true)
    (hb : prefixByte? b = none) (hrex : isRexByte b = false) (h : decode cx (ps ++ b :: bs) = .ok (i, rest)) :
    i.wf cx = true ∧ SpellsPrefixes cx ps i.prefixes ∧ b :: bs = encodeBody i ++ rest := by
  obtain ⟨hwf, qs, hqs, hsplit⟩ := decode_eq_ok h
  obtain ⟨c, cs, hbody, hc, hcrex⟩ := encodeBody_head i
  rw [hbody] at hsplit ⊢
  obtain ⟨rfl, htail⟩ := append_cons_inj_of_forall (P := fun q => (prefixByte? q).isSome || isRexByte q)
    (fun q hq => by simpa using hps q hq) (fun q hq => by simpa using (hqs.isPrefix q hq).imp_right And.right)
    (by simp [hb, hrex]) (by simp [hc, hcrex]) hsplit
  exact ⟨hwf, hqs, htail⟩

/-- The first opcode bytes of the rows (R119). -/
def opcodeHeads : List Byte := [0x0F, 0x24, 0x25, 0x80, 0x81, 0x83, 0x20, 0x21, 0x22, 0x23]

theorem encodeBody_opcode (i : Instr) : ∃ b bs, encodeBody i = b :: bs ∧ b ∈ opcodeHeads := by
  cases i <;> exact ⟨_, _, rfl, by decide⟩

/-- `0F 3A` begins a row that demands 66 (R131). -/
theorem mandatory_of_encodeBody {i : Instr} {bs rest : List Byte} (h : 0x0F :: 0x3A :: bs = encodeBody i ++ rest) :
    i.rowRule.p66 = .mandatory := by
  cases i with
  | aeskeygenassist | andpd => rfl
  | _ => simp [encodeBody] at h

theorem encodeRm_head (reg : BitVec 3) (rm : Rm) : ∃ m ms, encodeRm reg rm = m :: ms ∧ m.extractLsb' 3 3 = reg := by
  obtain _ | m := rm
  · exact ⟨_, _, rfl, modRM_reg ..⟩
  · cases m <;> exact ⟨_, _, rfl, modRM_reg ..⟩

/-- The rows whose opcode is `80`, `81` or `83` have reg field 4. -/
theorem encodeBody_group4 (i : Instr) :
    (∃ b bs, encodeBody i = b :: bs ∧ b ∉ ([0x80, 0x81, 0x83] : List Byte)) ∨
      ∃ b rm imm, encodeBody i = b :: (encodeRm 4 rm ++ imm) := by
  cases i with
  | andRm8Imm8 | andRm8Imm8Rex | andRm16Imm16 | andRm32Imm32 | andRm64Imm32 | andRm16Imm8 | andRm32Imm8
  | andRm64Imm8 => exact .inr ⟨_, _, _, rfl⟩
  | _ => exact .inl ⟨_, _, rfl, by decide⟩

theorem reg_of_group4 {i : Instr} {b m : Byte} {bs rest : List Byte} (hb : b ∈ ([0x80, 0x81, 0x83] : List Byte))
    (h : b :: m :: bs = encodeBody i ++ rest) : m.extractLsb' 3 3 = 4 := by
  obtain ⟨c, cs, hbody, hc⟩ | ⟨c, rm, imm, hbody⟩ := encodeBody_group4 i
  · rw [hbody] at h
    obtain ⟨rfl, -⟩ := List.cons_eq_cons.mp h
    exact absurd hb hc
  · obtain ⟨m', ms, hrm, hreg⟩ := encodeRm_head 4 rm
    rw [hbody, hrm] at h
    obtain ⟨-, htail⟩ := List.cons_eq_cons.mp h
    obtain ⟨rfl, -⟩ := List.cons_eq_cons.mp htail
    exact hreg

/-- Settles O6: behind the prefixes stand a row's own bytes, under prefixes that the row admits. -/
theorem neighbouringEncodingsRefused : Obligations.NeighbouringEncodingsRefused := by
  rintro cx ps bs ⟨i, rest⟩ hps
  refine ⟨fun b hb h => ?_, fun hrep h => ?_, fun h66 h => ?_, fun b hb m hm h => ?_⟩
  · have hfree : ∀ b ∈ ([0x82, 0xA8, 0xA9, 0x84, 0x85, 0xC4, 0xC5, 0x62] : List Byte),
        prefixByte? b = none ∧ isRexByte b = false ∧ b ∉ opcodeHeads := by decide
    obtain ⟨hb, hrex, hrow⟩ := hfree b hb
    obtain ⟨-, -, hbody⟩ := decode_append_cons_eq_ok hps hb hrex h
    obtain ⟨c, cs, hhead, hc⟩ := encodeBody_opcode i
    rw [hhead] at hbody
    obtain ⟨rfl, -⟩ := List.cons_eq_cons.mp hbody
    exact hrow hc
  · obtain ⟨-, hspells, -⟩ := decode_append_cons_eq_ok hps rfl rfl h
    exact hrep.elim (fun hF2 => hspells.noRep _ hF2 rfl) (fun hF3 => hspells.noRep _ hF3 rfl)
  · obtain ⟨hwf, hspells, hbody⟩ := decode_append_cons_eq_ok hps rfl rfl h
    obtain ⟨-, -, hp66, -⟩ := (Instr.wf_iff cx i).mp hwf
    rw [mandatory_of_encodeBody hbody] at hp66
    exact h66 (hspells.p66 hp66)
  · have hfree : ∀ b ∈ ([0x80, 0x81, 0x83] : List Byte), prefixByte? b = none ∧ isRexByte b = false := by decide
    obtain ⟨hnone, hrex⟩ := hfree b hb
    obtain ⟨-, -, hbody⟩ := decode_append_cons_eq_ok hps hnone hrex h
    exact hm (reg_of_group4 hb hbody)

end Sys2Proof
end

section
/-! Effective addresses and segments of memory operands as numbers (30_encoding.md R99, R106 to R112). -/

namespace Sys2Proof.Machine

/-! ## Sums at an address size -/

section addressSize

variable {a : Nat} (ha : a ≤ 64)
include ha

/-- A sum of words reduced to an address size is the sum of the numbers there (R110). -/
theorem toNat_add_modEq {x y : Word64} {m n : Nat} (hx : x.toNat ≡ m [MOD 2 ^ a]) (hy : y.toNat ≡ n [MOD 2 ^ a]) :
    (x + y).toNat ≡ m + n [MOD 2 ^ a] := by
  rw [BitVec.toNat_add]
  exact ((Nat.mod_modEq _ _).of_dvd (pow_dvd_pow 2 ha)).trans (hx.add hy)

theorem toNat_shiftLeft_modEq {x : Word64} {m : Nat} (k : Nat) (hx : x.toNat ≡ m [MOD 2 ^ a]) :
    (x <<< k).toNat ≡ m * 2 ^ k [MOD 2 ^ a] := by
  rw [BitVec.toNat_shiftLeft, Nat.shiftLeft_eq]
  exact ((Nat.mod_modEq _ _).of_dvd (pow_dvd_pow 2 ha)).trans (hx.mul_right _)

theorem toNat_ofNat_modEq (n : Nat) : (BitVec.ofNat 64 n).toNat ≡ n [MOD 2 ^ a] := by
  rw [BitVec.toNat_ofNat]
  exact (Nat.mod_modEq _ _).of_dvd (pow_dvd_pow 2 ha)

/-- Extending to 64 bits and reducing to the address size is extending to the address size (R112). -/
theorem toNat_signExtend_modEq {w : Nat} (d : BitVec w) :
    (d.signExtend 64).toNat ≡ (d.signExtend a).toNat [MOD 2 ^ a] := by
  have hd : (d.signExtend 64).setWidth a = d.signExtend a := by
    ext j hj
    have hj64 : j < 64 := by omega
    simp [BitVec.getElem_signExtend, hj64]
  rw [← hd, BitVec.toNat_setWidth]
  exact (Nat.mod_modEq _ _).symm

theorem dispValue_modEq {w : Nat} (d : Disp w) : (dispValue d).toNat ≡ dispNat a d [MOD 2 ^ a] := by
  cases d with
  | none => rfl
  | d8 d => exact toNat_signExtend_modEq ha d
  | full d => exact toNat_signExtend_modEq ha d

theorem addrReg_toNat (c : RegCode) (s : State) : (addrReg a c s).toNat = s.x[c.val].toNat % 2 ^ a :=
  lowBits_toNat a _ ha

theorem addrReg_modEq (c : RegCode) (s : State) : (addrReg a c s).toNat ≡ s.x[c.val].toNat % 2 ^ a [MOD 2 ^ a] := by
  rw [addrReg_toNat ha]

/-- `I` of R107 as a number: index code 0100B is no index. -/
theorem scaledIndex_modEq (p : Prefixes) (sc : BitVec 2) (ix : BitVec 3) (s : State) :
    (scaledIndex a p sc ix s).toNat ≡
      if indexField p ix = 4 then 0 else s.x[(indexField p ix).val].toNat % 2 ^ a * 2 ^ sc.toNat [MOD 2 ^ a] := by
  unfold scaledIndex
  split
  · rfl
  · exact toNat_shiftLeft_modEq ha _ (addrReg_modEq ha _ s)

end addressSize

/-! ## The effective address -/

theorem ite_64_32_le (c : Prop) [Decidable c] : (if c then 64 else 32) ≤ 64 := by split <;> decide

theorem addrWidth_le (mode : Mode) (p67 : Bool) (m : MemOp) : addrWidth mode p67 m ≤ 64 := by
  cases m with
  | mem16 => exact (by decide : 16 ≤ 64)
  | direct16 => exact (by decide : 16 ≤ 64)
  | base => exact ite_64_32_le _
  | disp32 => exact ite_64_32_le _
  | sib => exact ite_64_32_le _
  | sibNoBase => exact ite_64_32_le _

/-- The effective address is the sum of R106, R107 and R109, as a number, modulo `2 ^ A` (R110). -/
theorem effectiveAddr_toNat (p : Prefixes) (len : Nat) (m : MemOp) (s : State) (a n : Nat)
    (ha : addrWidth s.sys.mode p.p67 m = a) (hn : (addrSum a p len s m).toNat ≡ n [MOD 2 ^ a]) :
    (effectiveAddr p len m s).toNat = n % 2 ^ a := by
  subst ha
  exact (lowBits_toNat _ _ (addrWidth_le _ _ _)).trans hn

theorem wideAddr_le (p67 : Bool) (s : State) : wideAddr p67 s ≤ 64 := ite_64_32_le _

/-- Settles O30: each part of the sum at the address size, then the sum. -/
theorem baseAndSibAddresses : Obligations.BaseAndSibAddresses := by
  rintro p len s _ rfl
  have ha := wideAddr_le p.p67 s
  refine ⟨fun rm d => ?_, fun sc ix b d => ?_, fun sc ix d => ?_⟩
  · exact effectiveAddr_toNat _ _ _ _ _ _ rfl (toNat_add_modEq ha (addrReg_modEq ha _ s) (dispValue_modEq ha d))
  · exact effectiveAddr_toNat _ _ _ _ _ _ rfl (toNat_add_modEq ha
      (toNat_add_modEq ha (addrReg_modEq ha _ s) (scaledIndex_modEq ha p sc ix s)) (dispValue_modEq ha d))
  · exact effectiveAddr_toNat _ _ _ _ _ _ rfl
      (toNat_add_modEq ha (scaledIndex_modEq ha p sc ix s) (toNat_signExtend_modEq ha d))

/-- A 16-bit form sums the registers of its `r/m` and the displacement, modulo 2^16 (R109). -/
theorem effectiveAddr_mem16_toNat (p : Prefixes) (len : Nat) (s : State) (rm : BitVec 3) (d : Disp 16) :
    (effectiveAddr p len (.mem16 rm d) s).toNat =
      (((regs16 rm).map fun c => s.x[c.val].toNat % 2 ^ 16).sum + dispNat 16 d) % 2 ^ 16 := by
  have hle : 16 ≤ 64 := by decide
  refine effectiveAddr_toNat _ _ _ _ 16 _ rfl (toNat_add_modEq hle ?_ (dispValue_modEq hle d))
  induction regs16 rm with
  | nil => rfl
  | cons c cs ih =>
    simp only [List.map_cons, List.sum_cons]
    exact toNat_add_modEq hle (addrReg_modEq hle c s) ih

/-- Settles O31: the registers of each `r/m` are the table's. -/
theorem sixteenBitAddresses : Obligations.SixteenBitAddresses := by
  rintro p len s d _ _ _ _ rfl rfl rfl rfl
  have hv (v : BitVec 16) : (effectiveAddr p len (.direct16 v) s).toNat = v.toNat := by
    rw [effectiveAddr_toNat p len _ s 16 _ rfl (toNat_signExtend_modEq (by decide) v), BitVec.signExtend_eq,
      Nat.mod_eq_of_lt v.isLt]
  simp [effectiveAddr_mem16_toNat, regs16, hv]

/-- Settles O29: in 64-bit mode `pc`, the length and the displacement, elsewhere the displacement alone. -/
theorem ripRelativeAddress : Obligations.RipRelativeAddress := by
  intro p len d s
  refine ⟨fun hmode => ?_, fun hmode => ?_⟩
  · have ha : (if p.p67 then 32 else 64) ≤ 64 := by split <;> decide
    refine effectiveAddr_toNat _ _ _ _ _ _ (by cases p.p67 <;> simp [addrWidth, hmode]) ?_
    rw [addrSum, if_pos hmode]
    exact toNat_add_modEq ha (toNat_add_modEq ha rfl (toNat_ofNat_modEq ha len)) rfl
  · have hsum : (addrSum 32 p len s (.disp32 d)).toNat ≡ d.toNat [MOD 2 ^ 32] := by
      simpa [addrSum, hmode] using toNat_signExtend_modEq (a := 32) (by decide) d
    rw [effectiveAddr_toNat p len _ s 32 _ (by simp [addrWidth, hmode]) hsum, Nat.mod_eq_of_lt d.isLt]

/-! ## The segment -/

theorem operandSeg_of_override (p : Prefixes) (g : Seg) (m : MemOp) (h : p.seg = some g) : operandSeg p m = g := by
  rw [operandSeg, h, Option.getD_some]

theorem operandSeg_of_no_override (p : Prefixes) (m : MemOp) (h : p.seg = none) : operandSeg p m = defaultSeg p m := by
  rw [operandSeg, h, Option.getD_none]

/-- A default segment is SS where its condition holds and DS elsewhere (R111). -/
theorem ite_ss_ds_eq_ss (c : Prop) [Decidable c] : (if c then Seg.ss else Seg.ds) = .ss ↔ c := by
  simp

theorem ite_base_eq_ss (c : RegCode) :
    (if c = 4 ∨ c = 5 then Seg.ss else Seg.ds) = .ss ↔ c.val = 4 ∨ c.val = 5 := by
  rw [ite_ss_ds_eq_ss, Fin.ext_iff, Fin.ext_iff]
  rfl

theorem defaultSeg_ss_or_ds (p : Prefixes) (m : MemOp) : defaultSeg p m = .ss ∨ defaultSeg p m = .ds := by
  cases m with
  | mem16 => exact ite_eq_or_eq ..
  | direct16 => exact .inr rfl
  | base => exact ite_eq_or_eq ..
  | disp32 => exact .inr rfl
  | sib => exact ite_eq_or_eq ..
  | sibNoBase => exact .inr rfl

/-- Settles O32: an override stands for every form; without one the default of each form does. -/
theorem operandSegments : Obligations.OperandSegments := by
  refine fun p => ⟨fun g m => operandSeg_of_override p g m, fun h => ?_⟩
  simp only [operandSeg_of_no_override p _ h]
  exact ⟨fun rm d => ite_base_eq_ss _, fun sc ix b d => ite_base_eq_ss _, fun rm d => ite_ss_ds_eq_ss _,
    defaultSeg_ss_or_ds p, fun d => rfl, fun d => rfl, fun sc ix d => rfl⟩

end Sys2Proof.Machine
end

section
/-! Bytes of memory as one value (20_memory.md R60, R75). -/

namespace Sys2Proof.Machine

/-- Byte `k` of a little-endian number is its bits 8k+7:8k. -/
theorem testBit_leNat (bs : List Byte) (j : Nat) :
    (leNat bs).testBit j = (bs.getD (j / 8) 0).getLsbD (j % 8) := by
  induction bs generalizing j with
  | nil => simp [leNat]
  | cons b bs ih =>
    rw [leNat, Nat.add_comm, show 256 = 2 ^ 8 from rfl, Nat.testBit_two_pow_mul_add _ b.isLt]
    split_ifs with hj
    · rw [Nat.div_eq_of_lt hj, Nat.mod_eq_of_lt hj, List.getD_cons_zero, BitVec.testBit_toNat]
    · obtain ⟨i, rfl⟩ := Nat.exists_eq_add_of_le (not_lt.mp hj)
      rw [Nat.add_sub_cancel_left, ih, Nat.add_mod_left, Nat.add_div_left _ (by decide), List.getD_cons_succ]

/-- A load reads the bytes that stand in memory. -/
theorem bytesAt_loadLE (n : Nat) (m : Memory) (as : List Nat) (hlength : as.length = n) :
    BytesAt m as (loadLE n m as) := by
  intro k hk
  refine BitVec.eq_of_getLsbD_eq fun j hj => ?_
  have hread : (as.map m.read).getD k 0 = m.read (as.getD k 0) := by simp [hlength, hk]
  rw [BitVec.getLsbD_extractLsb', decide_eq_true hj, Bool.true_and, loadLE, leValue, BitVec.getLsbD_ofNat,
    decide_eq_true (by omega), Bool.true_and, testBit_leNat, show (8 * k + j) / 8 = k by omega,
    show (8 * k + j) % 8 = j by omega, hread]

/-- The bytes at `as` determine the value. -/
theorem BytesAt.unique {n : Nat} {m : Memory} {as : List Nat} {v w : BitVec (8 * n)} (hv : BytesAt m as v)
    (hw : BytesAt m as w) : v = w := by
  refine BitVec.eq_of_getLsbD_eq fun i hi => ?_
  have hbyte := congrArg (·.getLsbD (i % 8)) ((hv (i / 8) (by omega)).trans (hw (i / 8) (by omega)).symm)
  simpa [Nat.mod_lt, Nat.div_add_mod] using hbyte

theorem loadLE_eq_of_bytesAt {n : Nat} {m : Memory} {as : List Nat} {v : BitVec (8 * n)} (hlength : as.length = n)
    (hv : BytesAt m as v) : loadLE n m as = v :=
  (bytesAt_loadLE n m as hlength).unique hv

end Sys2Proof.Machine
end

section
/-! What the XMM instructions share: the source, then one XMM register written (42_andpd.md R190, 40_aeskeygenassist.md
R141). -/

namespace Sys2Proof.Machine

/-- A memory operand against which no condition holds is accessed at its addresses. -/
theorem operandAccess_of_operandOk {cls : AccessClass} {p : Prefixes} {i : Instr} {m : MemOp} {n : Nat}
    {kind : AccessKind} {s : State} {as : List Nat} (hn : 0 < n) (hok : OperandOk cls p i m n kind s as) :
    operandAccess cls p (instrLength i) m n kind s = .next as :=
  (accessAnswersExactlyWhenOk cls _ _ n kind s as hn).mpr hok

/-- The source is the register's value or the value of the 16 bytes of memory. -/
theorem readXmmRm_eq_next (p : Prefixes) (i : Instr) (rm : Rm) (s : State) (src : XWord)
    (hreg : ∀ r, rm = .reg r → src = s.xmm[(baseField p r).val])
    (hmem : ∀ m, rm = .mem m → ∃ as, OperandOk .xmm p i m 16 .read s as ∧ BytesAt (n := 16) s.mem as src) :
    readXmmRm p (instrLength i) rm s = .next src := by
  cases rm with
  | reg r =>
    rw [hreg r rfl]
    rfl
  | mem m =>
    obtain ⟨as, hok, hbytes⟩ := hmem m rfl
    have haccess := operandAccess_of_operandOk (by decide) hok
    exact (readXmmRm_mem_eq_next ..).mpr
      ⟨as, haccess, loadLE_eq_of_bytesAt (access_length _ _ _ _ _ _ _ haccess) hbytes⟩

theorem wroteXmm_advance_writeXmm (i : Instr) (c : RegCode) (v : XWord) (s : State) :
    WroteXmm i c v s (advance (instrLength i) (writeXmm c v s)) :=
  ⟨writeXmm_xmm_same c v s, fun d hd => writeXmm_xmm_other c d v s hd, advance_pc_toNat _ (writeXmm c v s),
    rfl, rfl, rfl, fun _ => rfl, rfl, rfl, rfl⟩

/-- An XMM instruction that may run and read its source completes, and writes its destination register alone. -/
theorem xmmInto_wroteXmm (i : Instr) (feature : Bool) (f : XWord → XWord → XWord) (p : Prefixes) (reg : BitVec 3)
    (rm : Rm) (s : State) (src : XWord) (henabled : XmmEnabled feature p s)
    (hsrc : readXmmRm p (instrLength i) rm s = .next src) :
    ∃ t, xmmInto feature f p (instrLength i) reg rm s = .next t ∧
      WroteXmm i (regField p reg) (f s.xmm[(regField p reg).val] src) s t :=
  ⟨_, (xmmInto_eq_next ..).mpr ⟨henabled, src, hsrc, rfl⟩, wroteXmm_advance_writeXmm ..⟩

end Sys2Proof.Machine
end

section
/-! AESKEYGENASSIST (40_aeskeygenassist.md R141 to R144): the doublewords of the result, the two word functions and the
S-box. -/

namespace Sys2Proof.Machine

/-- Four fields of one width put together, read one at a time. -/
theorem extractLsb'_append_four {w : Nat} (d c b a : BitVec w) :
    (d ++ c ++ b ++ a).extractLsb' 0 w = a ∧ (d ++ c ++ b ++ a).extractLsb' w w = b ∧
      (d ++ c ++ b ++ a).extractLsb' (w + w) w = c ∧ (d ++ c ++ b ++ a).extractLsb' (w + w + w) w = d := by
  refine ⟨BitVec.extractLsb'_append_eq_right, ?_, ?_, ?_⟩
  · rw [BitVec.extractLsb'_append_eq_of_le (by omega), Nat.sub_self, BitVec.extractLsb'_append_eq_right]
  · rw [BitVec.extractLsb'_append_eq_of_le (by omega), Nat.add_sub_cancel,
      BitVec.extractLsb'_append_eq_of_le (by omega), Nat.sub_self, BitVec.extractLsb'_append_eq_right]
  · rw [BitVec.extractLsb'_append_eq_of_le (by omega), Nat.add_sub_cancel,
      BitVec.extractLsb'_append_eq_of_le (by omega), Nat.add_sub_cancel, BitVec.extractLsb'_append_eq_left]

/-- The four doublewords of R141. -/
theorem keygenAssist_doublewords (src : XWord) (imm : BitVec 8) :
    (keygenAssist src imm).extractLsb' 0 32 = subWord (src.extractLsb' 32 32) ∧
    (keygenAssist src imm).extractLsb' 32 32 = rotWord (subWord (src.extractLsb' 32 32)) ^^^ imm.zeroExtend 32 ∧
    (keygenAssist src imm).extractLsb' 64 32 = subWord (src.extractLsb' 96 32) ∧
    (keygenAssist src imm).extractLsb' 96 32 = rotWord (subWord (src.extractLsb' 96 32)) ^^^ imm.zeroExtend 32 :=
  extractLsb'_append_four ..

theorem exec_aeskeygenassist (p : Prefixes) (reg : BitVec 3) (rm : Rm) (imm : BitVec 8) (s : State) :
    exec (.aeskeygenassist p reg rm imm) s =
      xmmInto s.sys.cpuidAESNI (fun _ src => keygenAssist src imm) p
        (instrLength (.aeskeygenassist p reg rm imm)) reg rm s := rfl

/-- Settles O44: the value written is `keygenAssist` of the source, read one doubleword at a time. -/
theorem keygenAssistOperation : Obligations.KeygenAssistOperation := by
  intro p reg rm imm s src henabled hreg hmem
  have hsrc := readXmmRm_eq_next p _ rm s src hreg hmem
  obtain ⟨t, hexec, hwrote⟩ :=
    xmmInto_wroteXmm _ _ (fun _ src => keygenAssist src imm) p reg rm s src henabled hsrc
  exact ⟨t, keygenAssist src imm, (exec_aeskeygenassist ..).trans hexec, hwrote, keygenAssist_doublewords src imm⟩

/-- Each byte through the S-box, in place (R142). -/
theorem subWord_byte (v : BitVec 32) :
    ∀ k < 4, (subWord v).extractLsb' (8 * k) 8 = sbox (v.extractLsb' (8 * k) 8) := by
  obtain ⟨hbyte0, hbyte1, hbyte2, hbyte3⟩ := extractLsb'_append_four (sbox (v.extractLsb' 24 8))
    (sbox (v.extractLsb' 16 8)) (sbox (v.extractLsb' 8 8)) (sbox (v.extractLsb' 0 8))
  intro k hk
  interval_cases k
  exacts [hbyte0, hbyte1, hbyte2, hbyte3]

/-- The low byte goes to the top and the three others down by one place (R143). -/
theorem rotWord_byte (v : BitVec 32) :
    ∀ k < 4, (rotWord v).extractLsb' (8 * k) 8 = v.extractLsb' (8 * ((k + 1) % 4)) 8 := by
  intro k hk
  by_cases hlow : k < 3
  · rw [rotWord, BitVec.extractLsb'_append_eq_of_add_le (by omega), Nat.mod_eq_of_lt (by omega)]
    refine BitVec.eq_of_getLsbD_eq fun j hj => ?_
    rw [BitVec.getLsbD_extractLsb', BitVec.getLsbD_extractLsb', decide_eq_true (show 8 * k + j < 24 by omega),
      BitVec.getLsbD_extractLsb', Bool.true_and, show 8 + (8 * k + j) = 8 * (k + 1) + j by omega]
  · obtain rfl : k = 3 := by omega
    exact BitVec.extractLsb'_append_eq_left

/-- Settles O45: each word function, byte by byte. -/
theorem subWordAndRotWord : Obligations.SubWordAndRotWord :=
  fun v => ⟨subWord_byte v, rotWord_byte v⟩

/-- The inverse of the affine map of R144. -/
def sboxAffineInv (b : Byte) : Byte := b.rotateLeft 1 ^^^ b.rotateLeft 3 ^^^ b.rotateLeft 6 ^^^ 0x05

theorem sboxAffine_sboxAffineInv : ∀ b : Byte, sboxAffine (sboxAffineInv b) = b := by decide

theorem sboxAffineInv_sbox_zero : sboxAffineInv (sbox 0) = 0 := by decide

set_option maxRecDepth 1000 in
/-- The table, read back through the affine map, is the multiplicative inverse: one product for each of its entries. -/
theorem gfMul_sboxAffineInv_sbox : ∀ b : Byte, b ≠ 0 → gfMul b (sboxAffineInv (sbox b)) = 1 := by decide

/-- Settles O46: the affine map is one to one, so the inverse of `b` is what it takes to the entry of `b`. -/
theorem substitutionBoxFormula : Obligations.SubstitutionBoxFormula := by
  intro b
  refine ⟨sboxAffineInv (sbox b), ?_, gfMul_sboxAffineInv_sbox b, (sboxAffine_sboxAffineInv (sbox b)).symm⟩
  rintro rfl
  exact sboxAffineInv_sbox_zero

end Sys2Proof.Machine
end

section
/-! What an AND leaves (41_and.md R150, R151): the flags of its result, a register or memory operand written, and the
rest as before. -/

namespace Sys2Proof.Machine

/-! ## The flags (R151) -/

theorem parityFlag_eq_true {w : Nat} (res : BitVec w) :
    parityFlag res = true ↔ ((List.range 8).filter fun j => res.getLsbD j).length % 2 = 0 := by
  have hbyte : (List.range 8).filter (fun j => (res.extractLsb' 0 8).getLsbD j) =
      (List.range 8).filter fun j => res.getLsbD j :=
    List.filter_congr fun j hj => by simp [List.mem_range.mp hj]
  rw [parityFlag, beq_iff_eq, ones, List.countP_eq_length_filter, hbyte]

theorem beq_zero_eq_true {w : Nat} (res : BitVec w) : (res == 0) = true ↔ ∀ j < w, res.getLsbD j = false := by
  rw [beq_iff_eq]
  exact ⟨fun h => by simp [h], fun h => BitVec.eq_of_getLsbD_eq fun j hj => by simp [h j hj]⟩

/-- `SetFlags` of R151, with a fresh AF. -/
theorem andFlagsFor_of_andFlags {w : Nat} (res : BitVec w) (s t : State)
    (hflags : t.flags = andFlags res (Config.freeAF s.draws == 1) s.flags) (hdraws : t.draws = s.draws + 1) :
    AndFlagsFor res s t := by
  rw [AndFlagsFor, hflags]
  exact ⟨rfl, rfl, BitVec.msb_eq_getLsbD_last res, beq_zero_eq_true res, parityFlag_eq_true res, beq_iff_eq, hdraws,
    rfl⟩

/-! ## Where a register operand lies (R22 to R25) -/

/-- The register of an operand and its lowest bit. -/
def operandLoc (z : OpSize) (rex : Bool) (c : RegCode) : RegCode × Nat :=
  match z with
  | .b8 => byteLoc rex c
  | .b16 => (c, 0)
  | .b32 => (c, 0)
  | .b64 => (c, 0)

/-- A write at this size clears bits 63:32 (R23). -/
def clearsAt (z : OpSize) (s : State) : Bool :=
  match z with
  | .b8 => false
  | .b16 => false
  | .b32 => clears32 s
  | .b64 => false

theorem OpSize.bytes_pos (z : OpSize) : 0 < z.bytes := by cases z <;> decide

theorem operandLoc_accumulator (z : OpSize) (rex : Bool) : operandLoc z rex accumulator = (0, 0) := by
  cases z <;> cases rex <;> rfl

section operand

variable (z : OpSize) (rex : Bool) (c : RegCode) (s : State)

theorem operandLoc_fst : (operandLoc z rex c).1 = operandHome z rex c := by
  cases z with
  | b8 => rw [operandLoc, byteLoc_eq, operandHome]
  | b16 | b32 | b64 => rfl

theorem readReg_eq_extractLsb' :
    readReg z rex c s = s.x[(operandLoc z rex c).1.val].extractLsb' (operandLoc z rex c).2 z.bits := by
  cases z with
  | b8 => exact reg8_eq_byteReg rex c s
  | b16 | b32 => rfl
  | b64 => exact (BitVec.extractLsb'_eq_self).symm

theorem writeReg_holds (v : BitVec z.bits) :
    RegisterHolds (operandLoc z rex c).1 (operandLoc z rex c).2 (clearsAt z s) v s (writeReg z rex c v s) := by
  cases z with
  | b8 => exact writeReg_b8_holds rex c v s
  | b16 => exact writeReg_b16_holds rex c v s
  | b32 => exact writeReg_b32_holds rex c v s
  | b64 => exact (registerHolds_setX c 0 false v v s).mpr fun j =>
      (if_pos ⟨Nat.zero_le _, show j.val < 0 + 64 by omega⟩).symm

end operand

/-! ## A register destination -/

/-- An advance over writes that leave `pc` and the configuration. -/
theorem pcAdvanced_advance (i : Instr) (s u : State) (hpc : u.pc = s.pc) (hsys : u.sys = s.sys) :
    PcAdvanced i s (advance (instrLength i) u) := by
  rw [PcAdvanced, advance_pc_toNat, hpc, hsys]

theorem andIntoReg_anded (i : Instr) (z : OpSize) (rex : Bool) (c : RegCode) (src : BitVec z.bits) (s : State) :
    AndedRegister i (operandLoc z rex c).1 (operandLoc z rex c).2 (clearsAt z s) src s
      (andIntoReg z rex (instrLength i) c src s) := by
  rw [AndedRegister, ← readReg_eq_extractLsb', RegisterHolds, andIntoReg_x]
  exact ⟨writeReg_holds z rex c s _, andFlagsFor_of_andFlags _ _ _ (andIntoReg_flags ..) (andIntoReg_draws ..),
    pcAdvanced_advance i s _ (by simp) (by simp),
    fun d hd => writeReg_x_other z rex c d _ s (operandLoc_fst z rex c ▸ hd), andIntoReg_xmm ..,
    fun a => by rw [andIntoReg_mem], andIntoReg_sys .., andIntoReg_text .., andIntoReg_upper ..⟩

/-! ## A memory destination -/

theorem leBytes_getD {w : Nat} (n : Nat) (v : BitVec w) (k : Nat) (hk : k < n) :
    (leBytes n v).getD k 0 = v.extractLsb' (8 * k) 8 := by
  simp [leBytes, hk]

theorem overlapsText_eq_false (s : State) (as : List Nat) :
    overlapsText s as = false ↔ ∀ a ∈ as, a ∉ textAddrs s := by
  simp [overlapsText]

/-- What a store of a value and its flags leave, where the value is the old one AND `src`. -/
theorem storeLE_anded (i : Instr) (z : OpSize) (src : BitVec z.bits) (s : State) (as : List Nat)
    (hwf : s.mem.wf) (hlength : as.length = z.bytes) :
    AndedMemory (n := z.bytes) i as src s
      (advance (instrLength i) (setAndFlags (loadLE z.bytes s.mem as &&& src)
        (storeLE z.bytes as (loadLE z.bytes s.mem as &&& src) s))) := by
  refine ⟨fun k hk hlast => ?_, fun a ha => Memory.read_writeAll_other _ _ _ a ha, fun old hold => ?_,
    pcAdvanced_advance i s _ rfl rfl, rfl, rfl, rfl, rfl, rfl⟩
  · have hstored := Memory.read_writeAll_at s.mem as (leBytes z.bytes (loadLE z.bytes s.mem as &&& src)) k hwf.1
      (by simp [leBytes, hlength]) (hlength ▸ hk) (hlength ▸ hlast)
    rw [leBytes_getD _ _ _ hk, BitVec.extractLsb'_and, bytesAt_loadLE _ _ _ hlength k hk] at hstored
    exact hstored
  · rw [← loadLE_eq_of_bytesAt hlength hold]
    exact andFlagsFor_of_andFlags _ _ _ rfl rfl

end Sys2Proof.Machine
end

section
/-! The 22 rows of AND, each one shape at one operand size (41_and.md R155 to R176). -/

namespace Sys2Proof.Machine

/-- A memory source that may be read is the value of its bytes. -/
theorem readRm_mem_of_operandOk {p : Prefixes} {i : Instr} {z : OpSize} {m : MemOp} {s : State} {as : List Nat}
    {v : BitVec z.bits} (hok : OperandOk .and p i m z.bytes .read s as) (hbytes : BytesAt (n := z.bytes) s.mem as v) :
    readRm z p (instrLength i) (.mem m) s = .next v := by
  have haccess := operandAccess_of_operandOk z.bytes_pos hok
  exact (readRm_mem_eq_next ..).mpr ⟨as, haccess, loadLE_eq_of_bytesAt (access_length _ _ _ _ _ _ _ haccess) hbytes⟩

section rows

variable {p : Prefixes} (hlock : p.lock = false)
include hlock

theorem andAccImm_anded (i : Instr) (z : OpSize) (src : BitVec z.bits) (s : State) :
    ∃ t, andAccImm z p (instrLength i) src s = .next t ∧ AndedRegister i 0 0 (clearsAt z s) src s t := by
  have handed := andIntoReg_anded i z p.rex.isSome accumulator src s
  rw [operandLoc_accumulator] at handed
  exact ⟨_, (andAccImm_eq_next ..).mpr ⟨hlock, rfl⟩, handed⟩

theorem andToRm_reg_anded (i : Instr) (z : OpSize) (r : BitVec 3) (src : BitVec z.bits) (s : State) :
    ∃ t, andToRm z p (instrLength i) (.reg r) src s = .next t ∧
      AndedRegister i (operandLoc z p.rex.isSome (baseField p r)).1 (operandLoc z p.rex.isSome (baseField p r)).2
        (clearsAt z s) src s t :=
  ⟨_, by rw [andToRm_reg, hlock]; rfl, andIntoReg_anded ..⟩

theorem andRegRm_anded (i : Instr) (z : OpSize) (reg : BitVec 3) (rm : Rm) (src : BitVec z.bits) (s : State)
    (hsrc : readRm z p (instrLength i) rm s = .next src) :
    ∃ t, andRegRm z p (instrLength i) reg rm s = .next t ∧
      AndedRegister i (operandLoc z p.rex.isSome (regField p reg)).1 (operandLoc z p.rex.isSome (regField p reg)).2
        (clearsAt z s) src s t :=
  ⟨_, (andRegRm_eq_next ..).mpr ⟨hlock, src, hsrc, rfl⟩, andIntoReg_anded ..⟩

theorem andRegRm_mem_anded {i : Instr} {m : MemOp} {s : State} {as : List Nat} (z : OpSize) (reg : BitVec 3)
    (v : BitVec z.bits) (hok : OperandOk .and p i m z.bytes .read s as) (hbytes : BytesAt (n := z.bytes) s.mem as v) :
    ∃ t, andRegRm z p (instrLength i) reg (.mem m) s = .next t ∧
      AndedRegister i (operandLoc z p.rex.isSome (regField p reg)).1 (operandLoc z p.rex.isSome (regField p reg)).2
        (clearsAt z s) v s t :=
  andRegRm_anded hlock i z reg (.mem m) v s (readRm_mem_of_operandOk hok hbytes)

end rows

theorem andToRm_mem_anded {p : Prefixes} {i : Instr} {m : MemOp} {s : State} {as : List Nat} (z : OpSize)
    (src : BitVec z.bits) (hwf : s.mem.wf) (htext : ∀ a ∈ as, a ∉ textAddrs s)
    (hok : OperandOk .and p i m z.bytes .rmw s as) :
    ∃ t, andToRm z p (instrLength i) (.mem m) src s = .next t ∧ AndedMemory (n := z.bytes) i as src s t := by
  have haccess := operandAccess_of_operandOk z.bytes_pos hok
  exact ⟨_, (andToRm_mem_eq_next ..).mpr ⟨as, haccess, (overlapsText_eq_false s as).mpr htext, rfl⟩,
    storeLE_anded i z src s as hwf (access_length _ _ _ _ _ _ _ haccess)⟩

/-- Settles O34: the four rows are one shape, at the four operand sizes. -/
theorem andImmediateToAccumulator : Obligations.AndImmediateToAccumulator :=
  fun _ s hlock =>
    ⟨fun imm => andAccImm_anded hlock _ .b8 imm s, fun imm => andAccImm_anded hlock _ .b16 imm s,
    fun imm => andAccImm_anded hlock _ .b32 imm s, fun imm => andAccImm_anded hlock _ .b64 (imm.signExtend 64) s⟩

/-- Settles O35: the eight rows are one shape, which writes the register at the operand size. -/
theorem andImmediateToRegister : Obligations.AndImmediateToRegister :=
  fun _ r s hlock =>
    ⟨fun imm => andToRm_reg_anded hlock _ .b8 r imm s, fun imm => andToRm_reg_anded hlock _ .b8 r imm s,
    fun imm => andToRm_reg_anded hlock _ .b16 r imm s, fun imm => andToRm_reg_anded hlock _ .b32 r imm s,
    fun imm => andToRm_reg_anded hlock _ .b64 r (imm.signExtend 64) s,
    fun imm => andToRm_reg_anded hlock _ .b16 r (imm.signExtend 16) s,
    fun imm => andToRm_reg_anded hlock _ .b32 r (imm.signExtend 32) s,
    fun imm => andToRm_reg_anded hlock _ .b64 r (imm.signExtend 64) s⟩

/-- Settles O36: the eight rows are one shape, which stores the result where the access found the old bytes. -/
theorem andImmediateToMemory : Obligations.AndImmediateToMemory :=
  fun _ _ _ _ hwf htext =>
    ⟨fun imm => andToRm_mem_anded .b8 imm hwf htext, fun imm => andToRm_mem_anded .b8 imm hwf htext,
    fun imm => andToRm_mem_anded .b16 imm hwf htext, fun imm => andToRm_mem_anded .b32 imm hwf htext,
    fun imm => andToRm_mem_anded .b64 (imm.signExtend 64) hwf htext,
    fun imm => andToRm_mem_anded .b16 (imm.signExtend 16) hwf htext,
    fun imm => andToRm_mem_anded .b32 (imm.signExtend 32) hwf htext,
    fun imm => andToRm_mem_anded .b64 (imm.signExtend 64) hwf htext⟩

/-- Settles O37: the rows of O35's shape, with a register operand as the source. -/
theorem andRegisterToRegister : Obligations.AndRegisterToRegister := by
  intro p r reg s hlock
  simp only [← reg8_eq_byteReg]
  exact ⟨andToRm_reg_anded hlock _ .b8 r _ s, andToRm_reg_anded hlock _ .b8 r _ s,
    andToRm_reg_anded hlock _ .b16 r _ s, andToRm_reg_anded hlock _ .b32 r _ s, andToRm_reg_anded hlock _ .b64 r _ s⟩

/-- Settles O38: the rows of O36's shape, with a register operand as the source. -/
theorem andRegisterToMemory : Obligations.AndRegisterToMemory := by
  intro p m reg s as hwf htext
  simp only [← reg8_eq_byteReg]
  exact ⟨andToRm_mem_anded .b8 _ hwf htext, andToRm_mem_anded .b8 _ hwf htext, andToRm_mem_anded .b16 _ hwf htext,
    andToRm_mem_anded .b32 _ hwf htext, andToRm_mem_anded .b64 _ hwf htext⟩

/-- Settles O39: the source is the register operand that r/m names. -/
theorem andRegisterFromRegister : Obligations.AndRegisterFromRegister := by
  intro p reg r s hlock
  simp only [← reg8_eq_byteReg]
  exact ⟨andRegRm_anded hlock _ .b8 reg (.reg r) _ s rfl, andRegRm_anded hlock _ .b8 reg (.reg r) _ s rfl,
    andRegRm_anded hlock _ .b16 reg (.reg r) _ s rfl, andRegRm_anded hlock _ .b32 reg (.reg r) _ s rfl,
    andRegRm_anded hlock _ .b64 reg (.reg r) _ s rfl⟩

/-- Settles O40: the source is the value of the bytes that the access found. -/
theorem andRegisterFromMemory : Obligations.AndRegisterFromMemory :=
  fun _ reg _ _ _ hlock =>
    ⟨fun v => andRegRm_mem_anded hlock .b8 reg v, fun v => andRegRm_mem_anded hlock .b8 reg v,
    fun v => andRegRm_mem_anded hlock .b16 reg v, fun v => andRegRm_mem_anded hlock .b32 reg v,
    fun v => andRegRm_mem_anded hlock .b64 reg v⟩

end Sys2Proof.Machine
end

section
/-! The four shapes of `exec` (30_encoding.md R119; 41_and.md R150, 42_andpd.md R190). -/

namespace Sys2Proof.Machine

/-- What an instruction runs: one of the three shapes of AND, or that of the XMM instructions, with its operands. -/
inductive ExecShape (i : Instr) (s : State) : Prop where
  | accImm (z : OpSize) (src : BitVec z.bits) (hclass : instrClass i = .and) (hrm : i.rm? = none)
      (hdest : memDest i = false) (hexec : exec i s = andAccImm z i.prefixes (instrLength i) src s)
  | toRm (z : OpSize) (rm : Rm) (src : BitVec z.bits) (hclass : instrClass i = .and) (hrm : i.rm? = some rm)
      (hdest : memDest i = true ↔ ∃ m, rm = .mem m) (hbytes : operandBytes i = z.bytes)
      (hexec : exec i s = andToRm z i.prefixes (instrLength i) rm src s)
  | toReg (z : OpSize) (reg : BitVec 3) (rm : Rm) (hclass : instrClass i = .and) (hrm : i.rm? = some rm)
      (hdest : memDest i = false) (hbytes : operandBytes i = z.bytes)
      (hexec : exec i s = andRegRm z i.prefixes (instrLength i) reg rm s)
  | xmm (f : XWord → XWord → XWord) (reg : BitVec 3) (rm : Rm) (hclass : instrClass i = .xmm)
      (hrm : i.rm? = some rm) (hdest : memDest i = false) (hbytes : operandBytes i = 16)
      (hexec : exec i s = xmmInto (featureOf s.sys i) f i.prefixes (instrLength i) reg rm s)

theorem operandBytes_of_opsize {i : Instr} {n : Nat} (h : i.rowRule.opsize = 8 * n) : operandBytes i = n := by
  rw [operandBytes, h, Nat.mul_div_cancel_left n (by decide)]

/-- Every row of R119 has one of the shapes. -/
theorem execShape (i : Instr) (s : State) : ExecShape i s := by
  cases i with
  | aeskeygenassist p reg rm imm =>
    exact .xmm (fun _ src => keygenAssist src imm) reg rm rfl rfl rfl (operandBytes_of_opsize rfl) rfl
  | andpd p reg rm | andps p reg rm =>
    exact .xmm (fun dest src => dest &&& src) reg rm rfl rfl rfl (operandBytes_of_opsize rfl) rfl
  | andAlImm8 p imm => exact .accImm .b8 imm rfl rfl rfl rfl
  | andAxImm16 p imm => exact .accImm .b16 imm rfl rfl rfl rfl
  | andEaxImm32 p imm => exact .accImm .b32 imm rfl rfl rfl rfl
  | andRaxImm32 p imm => exact .accImm .b64 (imm.signExtend 64) rfl rfl rfl rfl
  | andRm8Imm8 p rm imm | andRm8Imm8Rex p rm imm =>
    exact .toRm .b8 rm imm rfl rfl (by cases rm <;> simp [memDest]) (operandBytes_of_opsize rfl) rfl
  | andRm16Imm16 p rm imm =>
    exact .toRm .b16 rm imm rfl rfl (by cases rm <;> simp [memDest]) (operandBytes_of_opsize rfl) rfl
  | andRm32Imm32 p rm imm =>
    exact .toRm .b32 rm imm rfl rfl (by cases rm <;> simp [memDest]) (operandBytes_of_opsize rfl) rfl
  | andRm64Imm32 p rm imm | andRm64Imm8 p rm imm =>
    exact .toRm .b64 rm (imm.signExtend 64) rfl rfl (by cases rm <;> simp [memDest]) (operandBytes_of_opsize rfl) rfl
  | andRm16Imm8 p rm imm =>
    exact .toRm .b16 rm (imm.signExtend 16) rfl rfl (by cases rm <;> simp [memDest]) (operandBytes_of_opsize rfl) rfl
  | andRm32Imm8 p rm imm =>
    exact .toRm .b32 rm (imm.signExtend 32) rfl rfl (by cases rm <;> simp [memDest]) (operandBytes_of_opsize rfl) rfl
  | andRm8R8 p rm reg | andRm8R8Rex p rm reg =>
    exact .toRm .b8 rm _ rfl rfl (by cases rm <;> simp [memDest]) (operandBytes_of_opsize rfl) rfl
  | andRm16R16 p rm reg =>
    exact .toRm .b16 rm _ rfl rfl (by cases rm <;> simp [memDest]) (operandBytes_of_opsize rfl) rfl
  | andRm32R32 p rm reg =>
    exact .toRm .b32 rm _ rfl rfl (by cases rm <;> simp [memDest]) (operandBytes_of_opsize rfl) rfl
  | andRm64R64 p rm reg =>
    exact .toRm .b64 rm _ rfl rfl (by cases rm <;> simp [memDest]) (operandBytes_of_opsize rfl) rfl
  | andR8Rm8 p reg rm | andR8Rm8Rex p reg rm => exact .toReg .b8 reg rm rfl rfl rfl (operandBytes_of_opsize rfl) rfl
  | andR16Rm16 p reg rm => exact .toReg .b16 reg rm rfl rfl rfl (operandBytes_of_opsize rfl) rfl
  | andR32Rm32 p reg rm => exact .toReg .b32 reg rm rfl rfl rfl (operandBytes_of_opsize rfl) rfl
  | andR64Rm64 p reg rm => exact .toReg .b64 reg rm rfl rfl rfl (operandBytes_of_opsize rfl) rfl

end Sys2Proof.Machine
end

section
/-! What a memory access raises (60_exceptions.md R203 to R206). -/

namespace Sys2Proof.Machine

/-- The exceptions of a memory access (R203 to R206): all but #UD and #NM. -/
def Fault.ofAccess : Fault → Bool
  | .ud _ => false
  | .nm _ => false
  | .ss .. => true
  | .gp .. => true
  | .pf .. => true
  | .ac .. => true

section faults

variable {cls : AccessClass} {seg : Seg} {ea : Word64} {n : Nat} {kind : AccessKind} {s : State} {x : Fault}

theorem ofAccess_of_raise {α : Type} {f : Word64 → Fault} (hf : (f s.pc).ofAccess = true)
    (h : (raise f s : Result α) = .fault x) : x.ofAccess = true := by
  cases h
  exact hf

theorem ofAccess_segFault (code : Option (BitVec 32)) (a : Word64) : (segFault seg code a).ofAccess = true := by
  rw [segFault]
  split <;> rfl

theorem ofAccess_of_limitLinear {code : Option (BitVec 32)} (h : limitLinear seg code ea n s = .fault x) :
    x.ofAccess = true := by
  simp only [limitLinear] at h
  split_ifs at h
  exact ofAccess_of_raise (ofAccess_segFault code s.pc) h

theorem ofAccess_of_protectedLinear (h : protectedLinear cls seg ea n kind s = .fault x) : x.ofAccess = true := by
  simp only [protectedLinear.eq_def] at h
  split_ifs at h
  · exact ofAccess_of_raise rfl h
  · exact ofAccess_of_raise rfl h
  · cases cls with
    | and => exact ofAccess_of_raise rfl h
    | xmm => exact ofAccess_of_raise (ofAccess_segFault code0 s.pc) h
  · exact ofAccess_of_limitLinear h

theorem ofAccess_of_realLinear {code : Option (BitVec 32)} (h : realLinear cls code seg ea n s = .fault x) :
    x.ofAccess = true := by
  cases cls with
  | and => exact ofAccess_of_limitLinear h
  | xmm =>
    rw [realLinear.eq_def] at h
    split_ifs at h
    exact ofAccess_of_raise rfl h

theorem ofAccess_of_long64Linear (h : long64Linear seg ea n s = .fault x) : x.ofAccess = true := by
  simp only [long64Linear] at h
  split_ifs at h
  exact ofAccess_of_raise (ofAccess_segFault code0 s.pc) h

theorem ofAccess_of_linear (h : linear cls seg ea n kind s = .fault x) : x.ofAccess = true := by
  rcases (andThen_eq_fault _ _ _).mp h with hseg | ⟨lin, -, halign⟩
  · rw [segLinear] at hseg
    split at hseg
    exacts [ofAccess_of_protectedLinear hseg, ofAccess_of_protectedLinear hseg, ofAccess_of_realLinear hseg,
      ofAccess_of_realLinear hseg, ofAccess_of_long64Linear hseg]
  · split_ifs at halign
    exact ofAccess_of_raise rfl halign

theorem ofAccess_of_translateAll {lin : Word64} (h : translateAll kind s lin n = .fault x) : x.ofAccess = true := by
  rcases translateAll_stops kind s lin n with ⟨as, hstop⟩ | ⟨code, recorded, hstop⟩ <;> cases hstop.symm.trans h
  rfl

/-- An access raises neither #UD nor #NM. -/
theorem ofAccess_of_access (h : access cls seg ea n kind s = .fault x) : x.ofAccess = true := by
  rcases (andThen_eq_fault _ _ _).mp h with hlinear | ⟨lin, -, hlater⟩
  · exact ofAccess_of_linear hlinear
  · split at hlater
    · cases hlater
    · rcases (andThen_eq_fault _ _ _).mp hlater with hpages | ⟨as, -, hchecks⟩
      · exact ofAccess_of_translateAll hpages
      · split at hchecks
        · exact ofAccess_of_raise rfl hchecks
        · split at hchecks <;> cases hchecks

end faults

end Sys2Proof.Machine
end

section
/-! LOCK and stopped accesses, by the shape of the instruction (41_and.md R152, R153; 60_exceptions.md R208). -/

namespace Sys2Proof.Machine

/-! ## LOCK (R152) -/

/-- With a memory destination every fault is the access's. -/
theorem andToRm_mem_eq_fault (z : OpSize) (p : Prefixes) (len : Nat) (m : MemOp) (src : BitVec z.bits) (s : State)
    (x : Fault) :
    andToRm z p len (.mem m) src s = .fault x ↔ operandAccess .and p len m z.bytes .rmw s = .fault x := by
  rw [andToRm, andThen_eq_fault]
  refine or_iff_left ?_
  rintro ⟨as, -, h⟩
  split_ifs at h

section lock

variable (z : OpSize) {p : Prefixes} (len : Nat) (s : State) (hlock : p.lock = true)
include hlock

theorem andAccImm_lock (src : BitVec z.bits) : andAccImm z p len src s = .fault (.ud s.pc) := if_pos hlock

theorem andToRm_reg_lock (r : BitVec 3) (src : BitVec z.bits) : andToRm z p len (.reg r) src s = .fault (.ud s.pc) :=
  if_pos hlock

theorem andRegRm_lock (reg : BitVec 3) (rm : Rm) : andRegRm z p len reg rm s = .fault (.ud s.pc) := if_pos hlock

end lock

theorem exec_lock_of_not_memDest (i : Instr) (s : State) (hclass : instrClass i = .and) (hlock : i.prefixes.lock = true)
    (hdest : memDest i = false) : exec i s = .fault (.ud s.pc) := by
  cases execShape i s with
  | accImm z src _ _ _ hexec => exact hexec.trans (andAccImm_lock z _ s hlock src)
  | toRm z rm src _ _ hmem _ hexec =>
    cases rm with
    | reg r => exact hexec.trans (andToRm_reg_lock z _ s hlock r src)
    | mem m => simp [hdest] at hmem
  | toReg z reg rm _ _ _ _ hexec => exact hexec.trans (andRegRm_lock z _ s hlock reg rm)
  | xmm _ _ _ hxmm => simp [hclass] at hxmm

/-- An instruction with a memory destination is an AND into its r/m operand. -/
theorem exec_of_memDest (i : Instr) (s : State) (hdest : memDest i = true) :
    ∃ z m src, i.rm? = some (.mem m) ∧ operandBytes i = z.bytes ∧
      exec i s = andToRm z i.prefixes (instrLength i) (.mem m) src s := by
  cases execShape i s with
  | accImm _ _ _ _ h | toReg _ _ _ _ _ h | xmm _ _ _ _ _ h => simp [h] at hdest
  | toRm z rm src _ hrm hmem hbytes hexec =>
    obtain ⟨m, rfl⟩ := hmem.mp hdest
    exact ⟨z, m, src, hrm, hbytes, hexec⟩

/-- Settles O41: LOCK is tested first but for a memory destination, where every fault is the access's. -/
theorem lockNeedsMemoryDestination : Obligations.LockNeedsMemoryDestination := by
  refine fun i s hclass hlock => ⟨exec_lock_of_not_memDest i s hclass hlock, fun hdest => ?_⟩
  obtain ⟨z, m, src, hrm, hbytes, hexec⟩ := exec_of_memDest i s hdest
  rw [hexec]
  refine ⟨fun h => ?_, fun m' as hrm' hok htext => ?_⟩
  · have hud := ofAccess_of_access ((andToRm_mem_eq_fault ..).mp h)
    cases hud
  · cases hrm.symm.trans hrm'
    rw [hbytes] at hok
    exact ⟨_, (andToRm_mem_eq_next ..).mpr
      ⟨as, operandAccess_of_operandOk z.bytes_pos hok, (overlapsText_eq_false s as).mpr htext, rfl⟩⟩

/-! ## Stopped accesses (R153, R208) -/

theorem accessKind_of_not_memDest {i : Instr} (h : memDest i = false) : accessKind i = .read :=
  if_neg (by simp [h])

theorem andThen_assoc {α β γ : Type} (r : Result α) (f : α → Result β) (g : β → Result γ) :
    andThen (andThen r f) g = andThen r fun a => andThen (f a) g := by
  cases r <;> rfl

theorem andRegRm_mem (z : OpSize) {p : Prefixes} (len : Nat) (reg : BitVec 3) (m : MemOp) (s : State)
    (hlock : p.lock = false) :
    andRegRm z p len reg (.mem m) s =
      andThen (operandAccess .and p len m z.bytes .read s) fun as =>
        .next (andIntoReg z p.rex.isSome len (regField p reg) (loadLE z.bytes s.mem as) s) := by
  rw [andRegRm, hlock]
  exact andThen_assoc ..

theorem xmmInto_mem (feature : Bool) (f : XWord → XWord → XWord) (p : Prefixes) (len : Nat) (reg : BitVec 3)
    (m : MemOp) (s : State) (henabled : XmmEnabled feature p s) :
    xmmInto feature f p len reg (.mem m) s =
      andThen (operandAccess .xmm p len m 16 .read s) fun as =>
        .next (advance len (writeXmm (regField p reg) (f (readXmm (regField p reg) s) (loadLE 16 s.mem as)) s)) := by
  rw [xmmInto, (xmmChecks_eq_next ..).mpr henabled]
  exact andThen_assoc ..

/-- Past #UD and #NM the access of a memory operand stands first, and all else uses its addresses. -/
theorem exec_eq_andThen_operandAccess (i : Instr) (m : MemOp) (s : State) (hrm : i.rm? = some (.mem m))
    (hxmm : instrClass i = .xmm → XmmEnabled (featureOf s.sys i) i.prefixes s)
    (hand : instrClass i = .and → memDest i = true ∨ i.prefixes.lock = false) :
    ∃ f, exec i s =
      andThen (operandAccess (instrClass i) i.prefixes (instrLength i) m (operandBytes i) (accessKind i) s) f := by
  cases execShape i s with
  | accImm _ _ _ hnone => simp [hrm] at hnone
  | toRm z rm src hclass hrm' hdest hbytes hexec =>
    cases hrm'.symm.trans hrm
    rw [hclass, hbytes, accessKind, if_pos (hdest.mpr ⟨m, rfl⟩)]
    exact ⟨_, hexec⟩
  | toReg z reg rm hclass hrm' hdest hbytes hexec =>
    cases hrm'.symm.trans hrm
    have hlock : i.prefixes.lock = false := (hand hclass).resolve_left (by simp [hdest])
    rw [hclass, hbytes, accessKind_of_not_memDest hdest]
    exact ⟨_, hexec.trans (andRegRm_mem z _ reg m s hlock)⟩
  | xmm f reg rm hclass hrm' hdest hbytes hexec =>
    cases hrm'.symm.trans hrm
    rw [hclass, hbytes, accessKind_of_not_memDest hdest]
    exact ⟨_, hexec.trans (xmmInto_mem _ f _ _ reg m s (hxmm hclass))⟩

/-- Settles O49: each shape with a memory operand begins with its access once its own checks are past. -/
theorem accessStopsTheInstruction : Obligations.AccessStopsTheInstruction := by
  intro i m s hrm hxmm hand
  obtain ⟨f, hexec⟩ := exec_eq_andThen_operandAccess i m s hrm hxmm hand
  rw [hexec, operandAccess]
  exact ⟨fun x h => by rw [h, andThen_fault], fun q h => by rw [h, andThen_refused]⟩

end Sys2Proof.Machine
end

section
/-! ANDPD and ANDPS (42_andpd.md R190, 43_andps.md R195): one function, the AND of two XMM operands, behind two feature
bits. -/

namespace Sys2Proof.Machine

theorem exec_andpd (p : Prefixes) (reg : BitVec 3) (rm : Rm) (s : State) :
    exec (.andpd p reg rm) s =
      xmmInto s.sys.cpuidSSE2 (fun dest src => dest &&& src) p (instrLength (.andpd p reg rm)) reg rm s := rfl

theorem exec_andps (p : Prefixes) (reg : BitVec 3) (rm : Rm) (s : State) :
    exec (.andps p reg rm) s =
      xmmInto s.sys.cpuidSSE (fun dest src => dest &&& src) p (instrLength (.andps p reg rm)) reg rm s := rfl

theorem readXmmRm_reg (p : Prefixes) (len : Nat) (r : BitVec 3) (s : State) :
    readXmmRm p len (.reg r) s = .next s.xmm[(baseField p r).val] := rfl

/-- A source of 16 bytes that may be read is read as their little-endian value. -/
theorem readXmmRm_mem_of_operandOk {p : Prefixes} {i : Instr} {m : MemOp} {s : State} {as : List Nat} {v : XWord}
    (hbytes : BytesAt (n := 16) s.mem as v) (hok : OperandOk .xmm p i m 16 .read s as) :
    readXmmRm p (instrLength i) (.mem m) s = .next v := by
  refine readXmmRm_eq_next p i (.mem m) s v nofun ?_
  rintro _ ⟨⟩
  exact ⟨as, hok, hbytes⟩

/-- Settles O42: a register source is always read, so the enables alone let each instruction complete. -/
theorem packedAndOfRegister : Obligations.PackedAndOfRegister := by
  intro p reg r s
  rw [exec_andpd, exec_andps]
  refine ⟨fun henabled => ?_, fun henabled => ?_⟩ <;>
    exact xmmInto_wroteXmm _ _ (fun dest src => dest &&& src) p reg _ s _ henabled (readXmmRm_reg ..)

/-- Settles O43: the 16 bytes may be read, so the source is their value. -/
theorem packedAndOfMemory : Obligations.PackedAndOfMemory := by
  intro p reg m s as v hbytes
  rw [exec_andpd, exec_andps]
  refine ⟨fun henabled hok => ?_, fun henabled hok => ?_⟩ <;>
    exact xmmInto_wroteXmm _ _ (fun dest src => dest &&& src) p reg _ s v henabled
      (readXmmRm_mem_of_operandOk hbytes hok)

end Sys2Proof.Machine
end

section
/-! Every fault of a memory access stands in its cell of R207 (60_exceptions.md R203 to R207, R210). -/

namespace Sys2Proof.Machine

/-- The fault is in the cell of R207 for the class and the mode, and records the raising instruction's `pc` (R210). -/
def ListedFault (cls : AccessClass) (s : State) (x : Fault) : Prop :=
  listedFault cls s.sys.mode x = true ∧ x.at = s.pc

section cells

variable {cls : AccessClass} {mode : Mode} {code : Option (BitVec 32)} {a : Word64}

/-- A cell of R207 that lists #SS with a code lists #GP with the same. -/
theorem listedFault_gp_of_ss (h : listedFault cls mode (.ss code a) = true) :
    listedFault cls mode (.gp code a) = true := by
  cases cls <;> cases mode <;> simp_all [listedFault]

theorem listedFault_segFault (seg : Seg) (h : listedFault cls mode (.ss code a) = true) :
    listedFault cls mode (segFault seg code a) = true := by
  rw [segFault]
  split
  · exact h
  · exact listedFault_gp_of_ss h

/-- The alignment #GP is written with the code that the XMM instructions' cell has (R71). -/
theorem listedFault_alignCode : listedFault .xmm mode (.gp (alignCode mode) a) = true := by
  cases mode <;> rfl

theorem segFault_at (seg : Seg) : (segFault seg code a).at = a := by
  rw [segFault]
  split <;> rfl

end cells

section faults

variable {cls : AccessClass} {seg : Seg} {code : Option (BitVec 32)} {ea lin : Word64} {n : Nat} {kind : AccessKind}
  {s : State} {x : Fault}

theorem listedFault_of_raise {α : Type} {f : Word64 → Fault} (hlisted : listedFault cls s.sys.mode (f s.pc) = true)
    (hat : (f s.pc).at = s.pc) (h : (raise f s : Result α) = .fault x) : ListedFault cls s x := by
  cases h
  exact ⟨hlisted, hat⟩

theorem listedFault_of_raise_segFault {α : Type} (hss : listedFault cls s.sys.mode (.ss code s.pc) = true)
    (h : (raise (segFault seg code) s : Result α) = .fault x) : ListedFault cls s x :=
  listedFault_of_raise (listedFault_segFault seg hss) (segFault_at seg) h

theorem listedFault_of_limitLinear (hss : listedFault cls s.sys.mode (.ss code s.pc) = true)
    (h : limitLinear seg code ea n s = .fault x) : ListedFault cls s x := by
  simp only [limitLinear] at h
  split_ifs at h
  exact listedFault_of_raise_segFault hss h

theorem listedFault_of_protectedLinear (hss : listedFault cls s.sys.mode (.ss code0 s.pc) = true)
    (h : protectedLinear cls seg ea n kind s = .fault x) : ListedFault cls s x := by
  have hgp := listedFault_gp_of_ss hss
  simp only [protectedLinear.eq_def] at h
  split_ifs at h
  · exact listedFault_of_raise hgp rfl h
  · exact listedFault_of_raise hgp rfl h
  · cases cls with
    | and => exact listedFault_of_raise hgp rfl h
    | xmm => exact listedFault_of_raise_segFault hss h
  · exact listedFault_of_limitLinear hss h

theorem listedFault_of_realLinear
    (hmode : (s.sys.mode = .real ∧ code = none) ∨ (s.sys.mode = .v86 ∧ code = code0))
    (h : realLinear cls code seg ea n s = .fault x) : ListedFault cls s x := by
  cases cls with
  | and =>
    refine listedFault_of_limitLinear ?_ h
    rcases hmode with ⟨hmode, rfl⟩ | ⟨hmode, rfl⟩ <;> rw [hmode] <;> rfl
  | xmm =>
    rw [realLinear.eq_def] at h
    split_ifs at h
    refine listedFault_of_raise ?_ rfl h
    rcases hmode with ⟨hmode, -⟩ | ⟨hmode, -⟩ <;> rw [hmode] <;> rfl

theorem listedFault_of_long64Linear (hss : listedFault cls s.sys.mode (.ss code0 s.pc) = true)
    (h : long64Linear seg ea n s = .fault x) : ListedFault cls s x := by
  simp only [long64Linear] at h
  split_ifs at h
  exact listedFault_of_raise_segFault hss h

/-- In protected, compatibility and 64-bit mode both classes list #SS(0). -/
theorem listedFault_ss_code0 (cls : AccessClass) (hreal : s.sys.mode ≠ .real) (hv86 : s.sys.mode ≠ .v86) :
    listedFault cls s.sys.mode (.ss code0 s.pc) = true := by
  cases cls <;> cases hmode : s.sys.mode <;> simp_all [listedFault, code0]

theorem listedFault_of_segLinear (h : segLinear cls seg ea n kind s = .fault x) : ListedFault cls s x := by
  cases hmode : s.sys.mode with
  | prot | compat =>
    rw [segLinear_of_protected _ _ _ _ _ (by simp [hmode])] at h
    exact listedFault_of_protectedLinear (listedFault_ss_code0 cls (by simp [hmode]) (by simp [hmode])) h
  | real =>
    rw [segLinear_of_real _ _ none _ _ _ (.inl ⟨hmode, rfl⟩)] at h
    exact listedFault_of_realLinear (.inl ⟨hmode, rfl⟩) h
  | v86 =>
    rw [segLinear_of_real _ _ code0 _ _ _ (.inr ⟨hmode, rfl⟩)] at h
    exact listedFault_of_realLinear (.inr ⟨hmode, rfl⟩) h
  | long64 =>
    rw [segLinear_of_long64 _ _ _ _ _ hmode] at h
    exact listedFault_of_long64Linear (listedFault_ss_code0 cls (by simp [hmode]) (by simp [hmode])) h

theorem listedFault_of_linear (h : linear cls seg ea n kind s = .fault x) : ListedFault cls s x := by
  rcases (andThen_eq_fault _ _ _).mp h with hseg | ⟨lin, -, halign⟩
  · exact listedFault_of_segLinear hseg
  · split_ifs at halign with hunaligned
    obtain ⟨rfl, -⟩ := hunaligned
    exact listedFault_of_raise listedFault_alignCode rfl halign

/-- Real-address mode has no page fault (R72). -/
theorem translate_of_real (hmode : s.sys.mode = .real) : translate s.sys lin kind = .phys lin.toNat := by
  rw [translate, hmode]

theorem translateAll_of_real (hmode : s.sys.mode = .real) : ∃ as, translateAll kind s lin n = .next as := by
  induction n generalizing lin with
  | zero => exact ⟨[], rfl⟩
  | succ n ih =>
    obtain ⟨as, htail⟩ := ih (lin := lin + 1#64)
    exact ⟨lin.toNat :: as, by simp [translateAll, translate_of_real hmode, htail]⟩

theorem listedFault_of_translateAll (h : translateAll kind s lin n = .fault x) : ListedFault cls s x := by
  have hpaged : s.sys.mode ≠ .real := fun hmode => by
    obtain ⟨as, hnext⟩ := translateAll_of_real (kind := kind) (lin := lin) (n := n) hmode
    cases hnext.symm.trans h
  rcases translateAll_stops kind s lin n with ⟨as, hstop⟩ | ⟨code, recorded, hstop⟩ <;> cases hstop.symm.trans h
  exact ⟨bne_iff_ne.mpr hpaged, rfl⟩

theorem listedFault_ac (h : AlignmentFault cls lin n s) : listedFault cls s.sys.mode (.ac code0 s.pc) = true := by
  obtain ⟨rfl, -, hmode, -⟩ := h
  simp [listedFault, code0, hmode]

/-- Each stage of an access raises what R207 lists. -/
theorem listedFault_of_access (h : access cls seg ea n kind s = .fault x) : ListedFault cls s x := by
  rcases (andThen_eq_fault _ _ _).mp h with hlinear | ⟨lin, -, hlater⟩
  · exact listedFault_of_linear hlinear
  · split at hlater
    · cases hlater
    · rcases (andThen_eq_fault _ _ _).mp hlater with hpages | ⟨as, -, hchecks⟩
      · exact listedFault_of_translateAll hpages
      · split_ifs at hchecks with hac
        · exact listedFault_of_raise (listedFault_ac ((alignmentCheck_eq_true ..).mp hac)) rfl hchecks
        · split at hchecks <;> cases hchecks

end faults

end Sys2Proof.Machine
end

section
/-! Every fault of an instruction: #UD, then #NM, then the access's (60_exceptions.md R201, R202, R208). -/

namespace Sys2Proof.Machine

/-- The #UD conditions of an XMM instruction (R145, R192, R197). -/
def XmmInvalid (feature : Bool) (p : Prefixes) (s : State) : Prop :=
  p.lock = true ∨ s.sys.cr0EM = true ∨ s.sys.cr4OSFXSR = false ∨ feature = false

/-- The #UD conditions of an instruction (R201). -/
def InvalidOpcode (i : Instr) (s : State) : Prop :=
  instrClass i = .and ∧ i.prefixes.lock = true ∧ memDest i = false ∨
    instrClass i = .xmm ∧ XmmInvalid (featureOf s.sys i) i.prefixes s

/-- The #NM condition, tested after those of #UD (R202). -/
def DeviceNotAvailable (i : Instr) (s : State) : Prop :=
  instrClass i = .xmm ∧ ¬XmmInvalid (featureOf s.sys i) i.prefixes s ∧ s.sys.cr0TS = true

/-- The access of the instruction's memory operand raises `x`. -/
def OperandFaults (i : Instr) (s : State) (x : Fault) : Prop :=
  ∃ m, i.rm? = some (.mem m) ∧
    operandAccess (instrClass i) i.prefixes (instrLength i) m (operandBytes i) (accessKind i) s = .fault x

section shapes

variable (z : OpSize) (p : Prefixes) (len : Nat) (s : State) (x : Fault)

theorem ite_raise_eq_fault {α : Type} (c : Prop) [Decidable c] (f : Word64 → Fault) (r : Result α) :
    (if c then raise f s else r) = .fault x ↔ c ∧ f s.pc = x ∨ ¬c ∧ r = .fault x := by
  by_cases hc : c <;> simp [hc, raise_eq_fault]

theorem andAccImm_eq_fault (src : BitVec z.bits) :
    andAccImm z p len src s = .fault x ↔ p.lock = true ∧ .ud s.pc = x := by
  simp [andAccImm, ite_raise_eq_fault]

theorem andToRm_reg_eq_fault (r : BitVec 3) (src : BitVec z.bits) :
    andToRm z p len (.reg r) src s = .fault x ↔ p.lock = true ∧ .ud s.pc = x := by
  simp [andToRm_reg, ite_raise_eq_fault]

theorem readRm_eq_fault (rm : Rm) :
    readRm z p len rm s = .fault x ↔ ∃ m, rm = .mem m ∧ operandAccess .and p len m z.bytes .read s = .fault x := by
  cases rm <;> simp [readRm, andThen_eq_fault]

theorem andRegRm_eq_fault (reg : BitVec 3) (rm : Rm) :
    andRegRm z p len reg rm s = .fault x ↔
      p.lock = true ∧ .ud s.pc = x ∨
        p.lock = false ∧ ∃ m, rm = .mem m ∧ operandAccess .and p len m z.bytes .read s = .fault x := by
  simp [andRegRm, ite_raise_eq_fault, andThen_eq_fault, readRm_eq_fault]

theorem readXmmRm_eq_fault (rm : Rm) :
    readXmmRm p len rm s = .fault x ↔ ∃ m, rm = .mem m ∧ operandAccess .xmm p len m 16 .read s = .fault x := by
  cases rm <;> simp [readXmmRm, andThen_eq_fault]

theorem xmmChecks_eq_fault (feature : Bool) :
    xmmChecks feature p s = .fault x ↔
      XmmInvalid feature p s ∧ .ud s.pc = x ∨ (¬XmmInvalid feature p s ∧ s.sys.cr0TS = true) ∧ .nm s.pc = x := by
  have hinvalid : (p.lock || s.sys.cr0EM || !s.sys.cr4OSFXSR || !feature) = true ↔ XmmInvalid feature p s := by
    simp [XmmInvalid, or_assoc]
  simp [xmmChecks, ite_raise_eq_fault, ← hinvalid, and_assoc]

theorem xmmEnabled_iff (feature : Bool) :
    XmmEnabled feature p s ↔ ¬XmmInvalid feature p s ∧ ¬(¬XmmInvalid feature p s ∧ s.sys.cr0TS = true) := by
  grind [XmmInvalid]

theorem xmmInto_eq_fault (feature : Bool) (f : XWord → XWord → XWord) (reg : BitVec 3) (rm : Rm) :
    xmmInto feature f p len reg rm s = .fault x ↔
      (XmmInvalid feature p s ∧ .ud s.pc = x ∨ (¬XmmInvalid feature p s ∧ s.sys.cr0TS = true) ∧ .nm s.pc = x) ∨
        XmmEnabled feature p s ∧ ∃ m, rm = .mem m ∧ operandAccess .xmm p len m 16 .read s = .fault x := by
  simp [xmmInto, andThen_eq_fault, xmmChecks_eq_fault, Unique.exists_iff, xmmChecks_eq_next, readXmmRm_eq_fault]

end shapes

/-- R208: what an instruction raises, in the order of its tests. -/
theorem exec_eq_fault (i : Instr) (s : State) (x : Fault) :
    exec i s = .fault x ↔
      InvalidOpcode i s ∧ .ud s.pc = x ∨ DeviceNotAvailable i s ∧ .nm s.pc = x ∨
        (¬InvalidOpcode i s ∧ ¬DeviceNotAvailable i s) ∧ OperandFaults i s x := by
  simp only [InvalidOpcode, DeviceNotAvailable, OperandFaults, accessKind]
  cases execShape i s with
  | accImm z src hclass hrm hdest hexec =>
    rw [hexec, andAccImm_eq_fault]
    simp [hclass, hrm, hdest]
  | toRm z rm src hclass hrm hdest hbytes hexec =>
    rw [hexec]
    cases rm with
    | reg r =>
      have hdest : memDest i = false := by simpa using hdest
      rw [andToRm_reg_eq_fault]
      simp [hclass, hrm, hdest]
    | mem m =>
      have hdest : memDest i = true := by simpa using hdest
      rw [andToRm_mem_eq_fault]
      simp [hclass, hrm, hdest, hbytes]
  | toReg z reg rm hclass hrm hdest hbytes hexec =>
    rw [hexec, andRegRm_eq_fault]
    simp [hclass, hrm, hdest, hbytes]
  | xmm f reg rm hclass hrm hdest hbytes hexec =>
    rw [hexec, xmmInto_eq_fault, xmmEnabled_iff, or_assoc]
    simp [hclass, hrm, hdest, hbytes]

/-- Settles O16: #UD and #NM are listed for their classes, and the access raises what is listed. -/
theorem everyFaultIsListed : Obligations.EveryFaultIsListed := by
  intro i s x h
  rcases (exec_eq_fault i s x).mp h with ⟨-, rfl⟩ | ⟨⟨hclass, -⟩, rfl⟩ | ⟨-, m, -, haccess⟩
  · exact ⟨rfl, rfl⟩
  · exact ⟨by rw [hclass]; rfl, rfl⟩
  · exact listedFault_of_access haccess

theorem OperandFaults.ofAccess {i : Instr} {s : State} {x : Fault} (h : OperandFaults i s x) : x.ofAccess = true := by
  obtain ⟨m, -, haccess⟩ := h
  exact ofAccess_of_access haccess

/-- Settles O48: the access raises neither, so each exception has its own condition alone. -/
theorem invalidOpcodeAndDeviceNotAvailable : Obligations.InvalidOpcodeAndDeviceNotAvailable := by
  intro i s xmmUd hud
  obtain rfl : xmmUd = XmmInvalid (featureOf s.sys i) i.prefixes s := propext hud
  have hno_ud : ¬OperandFaults i s (.ud s.pc) := fun h => by cases h.ofAccess
  have hno_nm : ¬OperandFaults i s (.nm s.pc) := fun h => by cases h.ofAccess
  constructor
  · simp [exec_eq_fault, hno_ud, InvalidOpcode]
  · simp [exec_eq_fault, hno_nm, DeviceNotAvailable]

end Sys2Proof.Machine
end

section
/-! What an instruction that completes leaves, by its shape: `pc` advanced, the configuration and the text's place
kept, and no store into the text (00_scope.md R5; 10_state.md R26, R33; 20_memory.md R82). -/

namespace Sys2Proof.Machine

/-- Memory is as before but for bytes stored at physical addresses outside the program text. -/
def StoredOutsideText (s t : State) : Prop :=
  ∃ as bs, t.mem = s.mem.writeAll as bs ∧ (∀ a ∈ as, a < 2 ^ 64) ∧ ∀ a ∈ as, a ∉ textAddrs s

theorem storedOutsideText_of_mem_eq {s t : State} (h : t.mem = s.mem) : StoredOutsideText s t :=
  ⟨[], [], h, List.forall_mem_nil _, List.forall_mem_nil _⟩

/-- What every instruction that completes leaves. -/
structure Completed (i : Instr) (s t : State) : Prop where
  pc : PcAdvanced i s t
  fixed : FixedKept s t
  other : t.flags.other = s.flags.other
  stored : StoredOutsideText s t

theorem andIntoReg_completed (i : Instr) (z : OpSize) (rex : Bool) (c : RegCode) (src : BitVec z.bits) (s : State) :
    Completed i s (andIntoReg z rex (instrLength i) c src s) := by
  obtain ⟨-, -, hpc, -, -, -, hfixed⟩ := andIntoReg_anded i z rex c src s
  exact ⟨hpc, hfixed, by rw [andIntoReg_flags, andFlags_other], storedOutsideText_of_mem_eq (andIntoReg_mem ..)⟩

theorem andToRm_completed {i : Instr} {z : OpSize} {p : Prefixes} {rm : Rm} {src : BitVec z.bits} {s t : State}
    (h : andToRm z p (instrLength i) rm src s = .next t) : Completed i s t := by
  cases rm with
  | reg r =>
    obtain ⟨-, ⟨⟩⟩ := (ite_raise_eq_next ..).mp h
    exact andIntoReg_completed i z _ _ src s
  | mem m =>
    obtain ⟨as, haccess, htext, rfl⟩ := (andToRm_mem_eq_next ..).mp h
    exact ⟨pcAdvanced_advance i s _ rfl rfl, ⟨rfl, rfl, rfl⟩, rfl, as, _, rfl, access_lt _ _ _ _ _ _ _ haccess,
      (overlapsText_eq_false s as).mp htext⟩

theorem exec_completed {i : Instr} {s t : State} (h : exec i s = .next t) : Completed i s t := by
  cases execShape i s with
  | accImm z src _ _ _ hexec =>
    obtain ⟨-, rfl⟩ := (andAccImm_eq_next ..).mp (hexec.symm.trans h)
    exact andIntoReg_completed i z _ _ src s
  | toRm z rm src _ _ _ _ hexec => exact andToRm_completed (hexec.symm.trans h)
  | toReg z reg rm _ _ _ _ hexec =>
    obtain ⟨-, src, -, rfl⟩ := (andRegRm_eq_next ..).mp (hexec.symm.trans h)
    exact andIntoReg_completed i z _ _ src s
  | xmm f reg rm _ _ _ _ hexec =>
    obtain ⟨-, src, -, rfl⟩ := (xmmInto_eq_next ..).mp (hexec.symm.trans h)
    obtain ⟨-, -, hpc, -, -, -, -, hfixed⟩ := wroteXmm_advance_writeXmm i (regField i.prefixes reg)
      (f (readXmm (regField i.prefixes reg) s) src) s
    exact ⟨hpc, hfixed, rfl, storedOutsideText_of_mem_eq rfl⟩

/-- A step that answers completed one instruction. -/
theorem step_completed {s t : State} (h : step s = .next t) : ∃ i, Completed i s t := by
  obtain ⟨i, -, hexec⟩ := (step_eq_next s t).mp h
  exact ⟨i, exec_completed hexec⟩

/-- Settles O19: each shape advances `pc` last. -/
theorem completedInstructionAdvancesPc : Obligations.CompletedInstructionAdvancesPc :=
  fun _ _ _ h => (exec_completed h).pc

/-- Settles O14: no shape writes them. -/
theorem noStepChangesTheConfiguration : Obligations.NoStepChangesTheConfiguration := by
  intro s t h
  obtain ⟨i, hi⟩ := step_completed h
  obtain ⟨hsys, htext, hupper⟩ := hi.fixed
  exact ⟨hsys, htext, hupper, hi.other⟩

/-- Settles O12: stores keep the canonical form, an advance is reduced to the width of `pc`, and the bits of `other`
are kept. -/
theorem stepKeepsTheInvariant : Obligations.StepKeepsTheInvariant := by
  rintro s t ⟨hmem, -, hflags⟩ h
  obtain ⟨i, hi⟩ := step_completed h
  obtain ⟨as, bs, hstored, hphys, -⟩ := hi.stored
  refine ⟨hstored ▸ Memory.writeAll_wf s.mem as bs hphys hmem, ?_, by rw [hi.other, hflags]⟩
  rw [hi.fixed.1, hi.pc]
  exact Nat.mod_lt _ (Nat.two_pow_pos _)

/-- Settles O13: memory is empty, `pc` is FFF0H at width 16, and no bit of `other` is set. -/
theorem resetMeetsTheInvariant : Obligations.ResetMeetsTheInvariant :=
  ⟨State.reset_memory_wf, by decide, by decide⟩

end Sys2Proof.Machine
end

section
/-! The program text: where its bytes lie, and that no store reaches them (20_memory.md R82; D8). -/

namespace Sys2Proof.Machine

/-- A code address is the one byte of an access that answers. -/
theorem codeAddr_eq_some (s : State) (off : Word64) (a : Nat) :
    codeAddr s off = some a ↔ AccessOk .and .cs off 1 .read s [a] := by
  rw [← accessAnswersExactlyWhenOk _ _ _ _ _ _ _ Nat.one_pos, codeAddr]
  split <;> simp_all

theorem not_alignmentFault_one (cls : AccessClass) (lin : Word64) (s : State) : ¬AlignmentFault cls lin 1 s := by
  simp [AlignmentFault]

/-- Code addresses depend on the configuration alone, and not on its privilege level: one byte is always aligned. -/
theorem codeAddr_congr {s t : State} (c : Fin 4) (h : t.sys = (s.withCpl c).sys) (off : Word64) :
    codeAddr t off = codeAddr s off := by
  refine Option.ext fun a => ?_
  simp only [codeAddr_eq_some, AccessOk, SegmentOk, linearOf, not_alignmentFault_one, not_false_eq_true, true_and, h]
  rfl

theorem mem_textAddrs {s : State} {k a : Nat} (hk : k < s.text.length)
    (ha : codeAddr s (s.text.start + BitVec.ofNat 64 k) = some a) : a ∈ textAddrs s :=
  List.mem_filterMap.mpr ⟨k, List.mem_range.mpr hk, ha⟩

/-- Settles O15: the stores of a step lie outside the text, and the configuration fixes where the text lies. -/
theorem programTextIsConstant : Obligations.ProgramTextIsConstant := by
  intro s t h
  obtain ⟨i, hi⟩ := step_completed h
  obtain ⟨hsys, -⟩ := hi.fixed
  obtain ⟨as, bs, hstored, -, houtside⟩ := hi.stored
  refine ⟨codeAddr_congr s.sys.cpl hsys, fun k hk a ha => ?_⟩
  rw [hstored]
  exact Memory.read_writeAll_other _ as bs a fun hmem => houtside a hmem (mem_textAddrs hk ha)

/-- Settles O50: past the access of a memory destination the overlap with the text is looked at first. -/
theorem storeIntoTextRefused : Obligations.StoreIntoTextRefused := by
  rintro i m s as hdest hrm hok ⟨a, ha, htext⟩
  obtain ⟨z, m', src, hrm', hbytes, hexec⟩ := exec_of_memDest i s hdest
  cases hrm'.symm.trans hrm
  rw [hbytes] at hok
  have hoverlaps : overlapsText s as = true := by
    rw [← Bool.not_eq_false, overlapsText_eq_false]
    exact fun hfree => hfree a ha htext
  rw [hexec, andToRm, operandAccess_of_operandOk z.bytes_pos hok, andThen_next, if_pos hoverlaps]

end Sys2Proof.Machine
end

section
/-! Privilege enters the alignment check alone (20_memory.md R73; 60_exceptions.md R215). -/

namespace Sys2Proof.Machine

/-- `r'` is `r` with its answer taken by `g`, unless one of the two is #AC. -/
inductive AgreeUnlessAc {α β : Type} (g : α → β) : Result α → Result β → Prop where
  | next (a : α) : AgreeUnlessAc g (.next a) (.next (g a))
  | fault (x : Fault) : AgreeUnlessAc g (.fault x) (.fault x)
  | refused (q : Refusal) : AgreeUnlessAc g (.refused q) (.refused q)
  | acLeft (code : Option (BitVec 32)) (a : Word64) (r : Result β) : AgreeUnlessAc g (.fault (.ac code a)) r
  | acRight (code : Option (BitVec 32)) (a : Word64) (r : Result α) : AgreeUnlessAc g r (.fault (.ac code a))

theorem agreeUnlessAc_self {α : Type} (r : Result α) : AgreeUnlessAc id r r := by
  cases r with
  | next a => exact .next a
  | fault x => exact .fault x
  | refused q => exact .refused q

/-- Results that agree, followed by results that agree on each answer. -/
theorem AgreeUnlessAc.andThen {α β γ : Type} {g : β → γ} {r r' : Result α} {f : α → Result β} {f' : α → Result γ}
    (hr : AgreeUnlessAc id r r') (hf : ∀ a, AgreeUnlessAc g (f a) (f' a)) :
    AgreeUnlessAc g (andThen r f) (andThen r' f') := by
  cases hr with
  | next a => exact hf a
  | fault x => exact .fault x
  | refused q => exact .refused q
  | acLeft code a r' => exact .acLeft code a _
  | acRight code a r => exact .acRight code a _

theorem AgreeUnlessAc.ite {α β : Type} {g : α → β} (p : Prop) [Decidable p] {r₁ r₂ : Result α} {r₁' r₂' : Result β}
    (h₁ : AgreeUnlessAc g r₁ r₁') (h₂ : AgreeUnlessAc g r₂ r₂') :
    AgreeUnlessAc g (if p then r₁ else r₂) (if p then r₁' else r₂') := by
  split
  · exact h₁
  · exact h₂

section privilege

variable (s : State) (c : Fin 4)

/-! ## The access of an operand -/

theorem translateAll_withCpl (kind : AccessKind) (lin : Word64) (n : Nat) :
    translateAll kind (s.withCpl c) lin n = translateAll kind s lin n := by
  induction n generalizing lin with
  | zero => rfl
  | succ n ih =>
    simp only [translateAll, ih]
    rfl

/-- Of the stages of an access the alignment check alone looks at the privilege level. -/
theorem access_withCpl (cls : AccessClass) (seg : Seg) (ea : Word64) (n : Nat) (kind : AccessKind) :
    AgreeUnlessAc id (access cls seg ea n kind s) (access cls seg ea n kind (s.withCpl c)) := by
  refine (agreeUnlessAc_self (linear cls seg ea n kind s)).andThen fun lin => ?_
  rw [translateAll_withCpl]
  refine .ite (pastTop s.sys.mode lin n = true) (.refused _)
    ((agreeUnlessAc_self (translateAll kind s lin n)).andThen fun as => ?_)
  by_cases hac : alignmentCheck cls lin n s.sys = true
  · rw [if_pos hac]
    exact .acLeft ..
  · rw [if_neg hac]
    by_cases hac' : alignmentCheck cls lin n (s.withCpl c).sys = true
    · rw [if_pos hac']
      exact .acRight ..
    · rw [if_neg hac']
      exact agreeUnlessAc_self _

theorem overlapsText_withCpl (as : List Nat) : overlapsText (s.withCpl c) as = overlapsText s as := by
  simp only [overlapsText, textAddrs, codeAddr_congr (t := s.withCpl c) c rfl]
  rfl

/-! ## The instruction shapes -/

theorem readReg_withCpl (z : OpSize) (rex : Bool) (r : RegCode) :
    readReg z rex r (s.withCpl c) = readReg z rex r s := by
  cases z <;> rfl

theorem readRm_withCpl (z : OpSize) (p : Prefixes) (len : Nat) (rm : Rm) :
    AgreeUnlessAc id (readRm z p len rm s) (readRm z p len rm (s.withCpl c)) := by
  cases rm with
  | reg r =>
    rw [readRm_reg, readRm_reg, readReg_withCpl]
    exact .next _
  | mem m => exact (access_withCpl ..).andThen fun as => .next _

theorem readXmmRm_withCpl (p : Prefixes) (len : Nat) (rm : Rm) :
    AgreeUnlessAc id (readXmmRm p len rm s) (readXmmRm p len rm (s.withCpl c)) := by
  cases rm with
  | reg r => exact .next _
  | mem m => exact (access_withCpl ..).andThen fun as => .next _

theorem andIntoReg_withCpl (z : OpSize) (rex : Bool) (len : Nat) (r : RegCode) (src : BitVec z.bits) :
    andIntoReg z rex len r src (s.withCpl c) = (andIntoReg z rex len r src s).withCpl c := by
  cases z <;> rfl

theorem next_andIntoReg_withCpl (z : OpSize) (rex : Bool) (len : Nat) (r : RegCode) (src : BitVec z.bits) :
    AgreeUnlessAc (State.withCpl c) (.next (andIntoReg z rex len r src s))
      (.next (andIntoReg z rex len r src (s.withCpl c))) := by
  rw [andIntoReg_withCpl]
  exact .next _

theorem andAccImm_withCpl (z : OpSize) (p : Prefixes) (len : Nat) (src : BitVec z.bits) :
    AgreeUnlessAc (State.withCpl c) (andAccImm z p len src s) (andAccImm z p len src (s.withCpl c)) :=
  AgreeUnlessAc.ite _ (.fault _) (next_andIntoReg_withCpl ..)

theorem andToRm_withCpl (z : OpSize) (p : Prefixes) (len : Nat) (rm : Rm) (src : BitVec z.bits) :
    AgreeUnlessAc (State.withCpl c) (andToRm z p len rm src s) (andToRm z p len rm src (s.withCpl c)) := by
  cases rm with
  | reg r => exact AgreeUnlessAc.ite _ (.fault _) (next_andIntoReg_withCpl ..)
  | mem m =>
    refine (access_withCpl ..).andThen fun as => ?_
    rw [overlapsText_withCpl]
    exact .ite _ (.refused _) (.next _)

theorem andRmReg_withCpl (z : OpSize) (p : Prefixes) (len : Nat) (rm : Rm) (reg : BitVec 3) :
    AgreeUnlessAc (State.withCpl c) (andRmReg z p len rm reg s) (andRmReg z p len rm reg (s.withCpl c)) := by
  rw [andRmReg, andRmReg, readReg_withCpl]
  exact andToRm_withCpl ..

theorem andRegRm_withCpl (z : OpSize) (p : Prefixes) (len : Nat) (reg : BitVec 3) (rm : Rm) :
    AgreeUnlessAc (State.withCpl c) (andRegRm z p len reg rm s) (andRegRm z p len reg rm (s.withCpl c)) :=
  AgreeUnlessAc.ite _ (.fault _) ((readRm_withCpl ..).andThen fun _ => next_andIntoReg_withCpl ..)

theorem xmmInto_withCpl (feature : Bool) (f : XWord → XWord → XWord) (p : Prefixes) (len : Nat) (reg : BitVec 3)
    (rm : Rm) :
    AgreeUnlessAc (State.withCpl c) (xmmInto feature f p len reg rm s)
      (xmmInto feature f p len reg rm (s.withCpl c)) :=
  (agreeUnlessAc_self (xmmChecks feature p s)).andThen fun _ => (readXmmRm_withCpl ..).andThen fun _ => .next _

end privilege

/-- An instruction does the same at every privilege level, unless #AC is raised at one of the two. -/
theorem exec_withCpl (i : Instr) (s : State) (c : Fin 4) :
    AgreeUnlessAc (State.withCpl c) (exec i s) (exec i (s.withCpl c)) := by
  cases i with
  | aeskeygenassist p reg rm imm => exact xmmInto_withCpl s c _ (fun _ src => keygenAssist src imm) ..
  | andpd | andps => exact xmmInto_withCpl ..
  | andAlImm8 | andAxImm16 | andEaxImm32 | andRaxImm32 => exact andAccImm_withCpl ..
  | andRm8Imm8 | andRm8Imm8Rex | andRm16Imm16 | andRm32Imm32 | andRm64Imm32 | andRm16Imm8 | andRm32Imm8
  | andRm64Imm8 => exact andToRm_withCpl ..
  | andRm8R8 | andRm8R8Rex | andRm16R16 | andRm32R32 | andRm64R64 => exact andRmReg_withCpl ..
  | andR8Rm8 | andR8Rm8Rex | andR16Rm16 | andR32Rm32 | andR64Rm64 => exact andRegRm_withCpl ..

/-- Settles O17: the five ways in which two runs agree unless one of them raises #AC. -/
theorem privilegeMattersToAlignmentOnly : Obligations.PrivilegeMattersToAlignmentOnly := by
  intro i s c
  have hagree := exec_withCpl i s c
  generalize exec i s = r, exec i (s.withCpl c) = r' at hagree
  cases hagree with
  | next t => exact .inr (.inr (.inl ⟨t, rfl, rfl⟩))
  | fault x => exact .inr (.inr (.inr (.inl ⟨x, rfl, rfl⟩)))
  | refused q => exact .inr (.inr (.inr (.inr ⟨q, rfl, rfl⟩)))
  | acLeft code a => exact .inl ⟨code, a, rfl⟩
  | acRight code a => exact .inr (.inl ⟨code, a, rfl⟩)

end Sys2Proof.Machine
end

section
/-! Legacy prefixes in any order (30_encoding.md R100; D21): each is recorded in a place of its own. -/

namespace Sys2Proof

/-- Settles O2: each part of the decoder answers what its row admits. -/
theorem decodedIsWellFormed : Obligations.DecodedIsWellFormed :=
  fun _ _ _ _ h => (decode_eq_ok h).1

/-- `k` may be added to the legacy prefixes seen (R99, R100). -/
def PrefixFree (cx : CodeCtx) (p : Prefixes) : PrefixByte → Prop
  | .lock => p.lock = false
  | .p66 => p.p66 = false
  | .p67 => p.p67 = false
  | .seg g => p.seg = none ∧ overrideAdmitted cx g = true
  | .rep => False

/-- `k` recorded in its place. -/
def recordPrefix (p : Prefixes) : PrefixByte → Prefixes
  | .lock => { p with lock := true }
  | .p66 => { p with p66 := true }
  | .p67 => { p with p67 := true }
  | .seg g => { p with seg := some g }
  | .rep => p

/-- A test that refuses lets pass exactly where it fails. -/
theorem ite_error_eq_ok {ε α : Type} (c : Prop) [Decidable c] (e : ε) (r : Except ε α) (a : α) :
    (if c then .error e else r) = .ok a ↔ ¬c ∧ r = .ok a := by
  by_cases hc : c <;> simp [hc]

theorem addPrefix_eq_ok (cx : CodeCtx) (p q : Prefixes) (k : PrefixByte) :
    addPrefix cx p k = .ok q ↔ PrefixFree cx p k ∧ recordPrefix p k = q := by
  cases k with
  | lock | p66 | p67 => simp [addPrefix, ite_error_eq_ok, PrefixFree, recordPrefix]
  | rep => simp [addPrefix, PrefixFree]
  | seg g => cases hseg : p.seg <;> simp [addPrefix, ite_error_eq_ok, PrefixFree, recordPrefix, hseg]

/-- Two prefixes that may both be added have different places. -/
theorem prefixFree_swap {cx : CodeCtx} {p : Prefixes} {j k : PrefixByte} (hj : PrefixFree cx p j)
    (hk : PrefixFree cx (recordPrefix p j) k) :
    PrefixFree cx p k ∧ PrefixFree cx (recordPrefix p k) j ∧
      recordPrefix (recordPrefix p k) j = recordPrefix (recordPrefix p j) k := by
  cases j with
  | rep => exact hj.elim
  | lock | p66 | p67 | seg => cases k <;> simp_all [PrefixFree, recordPrefix]

theorem takePrefixes_cons_eq_ok (cx : CodeCtx) (p : Prefixes) (b : Byte) (bs : List Byte) (k : PrefixByte)
    (r : Prefixes × List Byte) (hb : prefixByte? b = some k) :
    takePrefixes cx p (b :: bs) = .ok r ↔ PrefixFree cx p k ∧ takePrefixes cx (recordPrefix p k) bs = .ok r := by
  cases hk : addPrefix cx p k with
  | error e =>
    have hnot : ¬PrefixFree cx p k := fun hfree => by
      simp [(addPrefix_eq_ok cx p _ k).mpr ⟨hfree, rfl⟩] at hk
    simp [takePrefixes, hb, hk, hnot]
  | ok q =>
    obtain ⟨hfree, rfl⟩ := (addPrefix_eq_ok cx p q k).mp hk
    simp [takePrefixes_cons cx p _ b bs k hb hk, hfree]

/-- Step (1) of R105 answers the same on the same legacy bytes in another order. -/
theorem takePrefixes_perm {cx : CodeCtx} {ps qs bs : List Byte} {p : Prefixes} {r : Prefixes × List Byte}
    (hperm : ps.Perm qs) (hps : ∀ b ∈ ps, (prefixByte? b).isSome = true)
    (h : takePrefixes cx p (ps ++ bs) = .ok r) : takePrefixes cx p (qs ++ bs) = .ok r := by
  induction hperm generalizing p with
  | nil => exact h
  | cons b _ ih =>
    obtain ⟨hb, hps⟩ := List.forall_mem_cons.mp hps
    obtain ⟨k, hk⟩ := Option.isSome_iff_exists.mp hb
    obtain ⟨hfree, htail⟩ := (takePrefixes_cons_eq_ok _ _ _ _ _ _ hk).mp h
    exact (takePrefixes_cons_eq_ok _ _ _ _ _ _ hk).mpr ⟨hfree, ih hps htail⟩
  | swap a b _ =>
    obtain ⟨hb, hps⟩ := List.forall_mem_cons.mp hps
    obtain ⟨ha, hps⟩ := List.forall_mem_cons.mp hps
    obtain ⟨j, hj⟩ := Option.isSome_iff_exists.mp hb
    obtain ⟨k, hk⟩ := Option.isSome_iff_exists.mp ha
    obtain ⟨hfree, htail⟩ := (takePrefixes_cons_eq_ok _ _ _ _ _ _ hj).mp h
    obtain ⟨hfree', htail⟩ := (takePrefixes_cons_eq_ok _ _ _ _ _ _ hk).mp htail
    obtain ⟨hk_free, hj_free, hrecord⟩ := prefixFree_swap hfree hfree'
    rw [← hrecord] at htail
    exact (takePrefixes_cons_eq_ok _ _ _ _ _ _ hk).mpr
      ⟨hk_free, (takePrefixes_cons_eq_ok _ _ _ _ _ _ hj).mpr ⟨hj_free, htail⟩⟩
  | trans hleft _ ihleft ihright =>
    exact ihright (fun b hb => hps b (hleft.mem_iff.mpr hb)) (ihleft hps h)

theorem decodeAnyLength_perm {cx : CodeCtx} {ps qs bs : List Byte} {r : Instr × List Byte}
    (hperm : ps.Perm qs) (hps : ∀ b ∈ ps, (prefixByte? b).isSome = true)
    (h : decodeAnyLength cx (ps ++ bs) = .ok r) : decodeAnyLength cx (qs ++ bs) = .ok r := by
  obtain ⟨⟨p, cs⟩, hlegacy, hrest⟩ := exists_of_bind_eq_ok h
  simpa [decodeAnyLength, takePrefixes_perm hperm hps hlegacy, bind, Except.bind] using hrest

/-- What `decode` does after the procedure of R105: the length is looked at (R114). -/
theorem decode_eq_ok_iff (cx : CodeCtx) (bs : List Byte) (r : Instr × List Byte) :
    decode cx bs = .ok r ↔ decodeAnyLength cx bs = .ok r ∧ bs.length - r.2.length ≤ 15 := by
  unfold decode
  cases decodeAnyLength cx bs with
  | error e => simp
  | ok r' =>
    simp only [ite_error_eq_ok, not_lt, Except.ok.injEq]
    constructor
    · rintro ⟨hlength, rfl⟩
      exact ⟨rfl, hlength⟩
    · rintro ⟨rfl, hlength⟩
      exact ⟨hlength, rfl⟩

/-- Settles O7: the prefixes read are the same in every order, and so is the number of bytes. -/
theorem legacyPrefixOrderIrrelevant : Obligations.LegacyPrefixOrderIrrelevant := by
  intro cx ps qs bs r hperm hps h
  obtain ⟨hany, hlength⟩ := (decode_eq_ok_iff _ _ _).mp h
  rw [List.length_append, hperm.length_eq, ← List.length_append] at hlength
  exact (decode_eq_ok_iff _ _ _).mpr ⟨decodeAnyLength_perm hperm hps hany, hlength⟩

end Sys2Proof
end

section
/-! Little-endian writes (20_memory.md R60, R76; D4). -/

namespace Sys2Proof.Machine

/-- A store to distinct addresses leaves each byte at its own. -/
theorem bytesAt_storeLE {n : Nat} {as : List Nat} (s : State) (v : BitVec (8 * n)) (hlength : as.length = n)
    (hdistinct : as.Nodup) (hwf : s.mem.wf) : BytesAt (storeLE n as v s).mem as v := by
  intro k hk
  rw [storeLE_mem, Memory.read_writeAll_at s.mem as (leBytes n v) k hwf.1 (by simp [leBytes, hlength])
    (by omega) fun k' hk' hlt heq => ?_, leBytes_getD n v k hk]
  have hk_as : k < as.length := by omega
  simp only [List.getD_eq_getElem _ _ hk', List.getD_eq_getElem _ _ hk_as] at heq
  exact hlt.ne' (hdistinct.getElem_inj_iff.mp heq)

/-- Settles O27: a load reads the bytes that stand there, and a store to distinct addresses keeps all its own. -/
theorem bytesAreLittleEndian : Obligations.BytesAreLittleEndian :=
  fun n as s hlength =>
    ⟨bytesAt_loadLE n s.mem as hlength, fun hdistinct hwf v => bytesAt_storeLE s v hlength hdistinct hwf⟩

end Sys2Proof.Machine
end

section
/-! What the result of AESKEYGENASSIST depends on (40_aeskeygenassist.md R146). -/

namespace Sys2Proof.Machine

/-- The immediate at its two places in the result. -/
def rconMask (imm : BitVec 8) : XWord := imm.zeroExtend 32 ++ 0#32 ++ imm.zeroExtend 32 ++ 0#32

theorem xor_append_four {w : Nat} (d c b a d' c' b' a' : BitVec w) :
    (d ++ c ++ b ++ a) ^^^ (d' ++ c' ++ b' ++ a') = (d ^^^ d') ++ (c ^^^ c') ++ (b ^^^ b') ++ (a ^^^ a') := by
  simp only [BitVec.xor_append]

/-- Each doubleword is its value with immediate 0, the second and the fourth with the immediate XORed in. -/
theorem keygenAssist_eq_xor (src : XWord) (imm : BitVec 8) :
    keygenAssist src imm = keygenAssist src 0 ^^^ rconMask imm := by
  rw [keygenAssist, keygenAssist, rconMask]
  refine Eq.trans ?_ (xor_append_four _ _ _ _ (imm.zeroExtend 32) 0 (imm.zeroExtend 32) 0).symm
  simp

theorem zeroExtend_getLsbD {w n : Nat} (hwn : w ≤ n) (v : BitVec w) (j : Nat) :
    (v.zeroExtend n).getLsbD j = v.getLsbD j := by
  rw [BitVec.getLsbD_setWidth]
  by_cases hj : j < n
  · simp [hj]
  · simp [hj, BitVec.getLsbD_of_ge v j (by omega)]

theorem rconMask_getLsbD (imm : BitVec 8) (j : Nat) :
    (rconMask imm).getLsbD j =
      if 32 ≤ j ∧ j < 40 then imm.getLsbD (j - 32)
      else if 96 ≤ j ∧ j < 104 then imm.getLsbD (j - 96) else false := by
  have happend : (rconMask imm).getLsbD j =
      if j < 32 then false else if j < 64 then imm.getLsbD (j - 32) else if j < 96 then false
      else imm.getLsbD (j - 96) := by
    simp only [rconMask, BitVec.getLsbD_append, zeroExtend_getLsbD (show 8 ≤ 32 by decide), BitVec.getLsbD_zero]
    grind
  have hzero (k : Nat) (hk : 8 ≤ k) : imm.getLsbD k = false := BitVec.getLsbD_of_ge imm k hk
  grind

/-- Settles O47: the source enters by two of its doublewords, the immediate by its mask. -/
theorem keygenAssistDependencies : Obligations.KeygenAssistDependencies := by
  refine fun src src' imm => ⟨fun h1 h3 => by simp only [keygenAssist, h1, h3], fun j _ => ?_⟩
  rw [keygenAssist_eq_xor, BitVec.getLsbD_xor, rconMask_getLsbD]

end Sys2Proof.Machine
end

section
/-! Where a fetch is refused (70_reset_and_hazards.md R253; 20_memory.md R66; 30_encoding.md R130; D9, D11, D14). -/

namespace Sys2Proof.Machine

/-- A refused fetch is the step's refusal. -/
theorem step_of_fetch_refused {s : State} {q : Refusal} (h : fetch s = .refused q) : step s = .refused q := by
  rw [step, fetchInstr, h, andThen_refused, andThen_refused]

/-- Settles O52: the configuration is tested first. -/
theorem expandDownConfigurationRefused : Obligations.ExpandDownConfigurationRefused := by
  intro s g hdown
  have hexp : hasExpandDown s.sys.segs = true := (hasExpandDown_eq_true _).mpr ⟨g, hdown⟩
  exact step_of_fetch_refused (if_pos hexp)

/-- Settles O10: the offset one past the text is not in it, also where it wraps to 0. -/
theorem endOfTextStops : Obligations.EndOfTextStops := by
  intro s hseg htop hfull hpc
  have hexp : hasExpandDown s.sys.segs = false := by
    simpa [hseg] using (hasExpandDown_eq_true s.sys.segs).not
  have hout : ¬(s.text.start.toNat ≤ s.pc.toNat ∧ s.pc.toNat < s.text.start.toNat + s.text.length) := by
    rcases htop.lt_or_eq with hlt | heq
    · rw [hpc, Nat.mod_eq_of_lt hlt]
      omega
    · rw [hpc, heq, Nat.mod_self]
      omega
  refine step_of_fetch_refused ?_
  simp only [fetch, hexp, Bool.false_eq_true, if_false, htop.not_gt, hfull.not_ge, or_self, hout, if_pos hpc]

/-- Settles O11: the decoder's reason is the refusal's. -/
theorem undecodableBytesRefused : Obligations.UndecodableBytesRefused := by
  intro s bs e hfetch hdecode
  have hinstr : fetchInstr s = .refused (.undecodable e) := by simp [fetchInstr, hfetch, hdecode]
  rw [step, hinstr, andThen_refused]

/-- Settles O51: each value is `State.reset`'s own; the word of RFLAGS has reserved bit 1 alone. -/
theorem resetValues : Obligations.ResetValues := by
  refine ⟨by decide, by decide, rfl, rfl, rfl, rfl, by decide, fun a => rfl, rfl, rfl, rfl, rfl, rfl, rfl, rfl, rfl,
    rfl, fun g => ?_, fun g hg => ?_, fun g => ?_, rfl, rfl, rfl⟩
  · cases g <;> rfl
  · cases g with
    | cs => exact absurd rfl hg
    | _ => rfl
  · cases g <;> exact ⟨rfl, rfl, rfl, rfl⟩

end Sys2Proof.Machine
end
